-- ==== Sys2Proof/Word.lean ====
section
/-! DEFINITION. The block's plainest data: bytes, 7-bit slave addresses, 16-bit words, handles (D4). -/

namespace Sys2Proof

/-- A byte of the bus, of a descriptor field or of a status: 8 bits (D4). -/
abbrev Byte := BitVec 8

/-- An unshifted 7-bit slave address (R15). -/
abbrev Addr7 := BitVec 7

/-- The data of WriteWord and ReadWord: 16 bits (R67). -/
abbrev Word16 := BitVec 16

/-- A descriptor's handle: its index in the descriptor table (R10). `NONE` is `Option.none` wherever a
register may hold it. -/
abbrev Handle := Nat

/-- A requester's name. The block never reads it (R177); it only tells the requesters apart. -/
abbrev Who := Nat

end Sys2Proof
end

