-- ==== Sys2Proof/Config.lean ====
section
/-! DEFINITION. The implementation parameters of R2, and the values `State.reset` takes for them. -/

namespace Sys2Proof

/-- Where the sequencer step runs (R2, R145, R146). -/
inductive DispatchMode where
  /-- inside the phase interrupt -/
  | direct
  /-- in the handler, woken by the interrupt stub -/
  | deferred
  deriving DecidableEq, Repr

/-- A duration parameter (`T_WAIT`, `T_RECOVER`): a number of time units, or D17's model without time, in which
the timer counts as expired from the moment it starts (R91, R92: the ending is enabled at any point).
DESIGN CHOICE (log 6). -/
inductive Duration where
  | untimed
  | units (n : Nat)
  deriving DecidableEq, Repr

/-- The parameters no instruction sets (R2, closing paragraph of R36). `N_DESC` is the length of the descriptor table
and `QUEUE_CAPACITY` the register that `init` writes (R95). -/
structure Params where
  dispatchMode : DispatchMode
  tWait : Duration
  tRecover : Duration
  deriving DecidableEq, Repr

/-- R2: `T_WAIT` and `T_RECOVER` are positive durations. -/
def Duration.positive : Duration → Bool
  | .untimed => true
  | .units n => 0 < n

/-- R2's constraints on the parameters that stand in `Params`; those on `N_DESC` and `QUEUE_CAPACITY` stand beside them in
`State.configWf`. -/
def Params.wf (p : Params) : Bool := p.tWait.positive && p.tRecover.positive

/-! The spec leaves these OPEN (R2). They are the values of ONE machine, the one `State.reset` describes; every
statement about all states holds whatever they are. DESIGN CHOICE (log 5). -/

/-- `N_DESC` of `State.reset`. -/
def Config.nDesc : Nat := 4

/-- The argument of the `init` that `State.reset` is the result of. -/
def Config.queueCapacity : Nat := 2

/-- The other parameters of `State.reset`. -/
def Config.params : Params := { dispatchMode := .direct, tWait := .untimed, tRecover := .untimed }

end Sys2Proof
end

