-- ==== Sys2Proof/Syntax.lean ====
section
/-! DEFINITION. The instructions: one constructor per row of spec/opcode_table.json, and the words they come in. -/

namespace Sys2Proof

/-- The seven transaction kinds (R1, R64). The reserved value 7 of the 3-bit field is no opcode (R69). -/
inductive Opcode where
  | quick
  | sendByte
  | receiveByte
  | writeByte
  | readByte
  | writeWord
  | readWord
  deriving DecidableEq, Repr

/-- The thirteen classes of phase-status codes (R65). -/
inductive PhaseClass where
  | busError
  | startSent
  | repStartSent
  | addrWAck
  | addrWNak
  | dataWAck
  | dataWNak
  | arbLost
  | addrRAck
  | addrRNak
  | dataRxAck
  | dataRxNak
  | other
  deriving DecidableEq, Repr

/-- The instruction set. The seven operations and `init` are written as R71 writes them; an event carries the byte
`rx` of its EVT16 word (R63), and `evtOther` also the code that put it in the class OTHER (R113). -/
inductive Instr where
  | quick (h : Handle) (address : Addr7) (data : Byte)
  | sendByte (h : Handle) (address : Addr7) (data : Byte)
  | receiveByte (h : Handle) (address : Addr7)
  | writeByte (h : Handle) (address : Addr7) (command data : Byte)
  | readByte (h : Handle) (address : Addr7) (command : Byte)
  | writeWord (h : Handle) (address : Addr7) (command : Byte) (data16 : Word16)
  | readWord (h : Handle) (address : Addr7) (command : Byte)
  | init (queueCapacity : Nat)
  | evtBusError (rx : Byte)
  | evtStartSent (rx : Byte)
  | evtRepStartSent (rx : Byte)
  | evtAddrWAck (rx : Byte)
  | evtAddrWNak (rx : Byte)
  | evtDataWAck (rx : Byte)
  | evtDataWNak (rx : Byte)
  | evtArbLost (rx : Byte)
  | evtAddrRAck (rx : Byte)
  | evtAddrRNak (rx : Byte)
  | evtDataRxAck (rx : Byte)
  | evtDataRxNak (rx : Byte)
  | evtOther (code rx : Byte)
  deriving DecidableEq, Repr

/-- What reaches the block: a request (the handle is the call's first argument and no part of the word, R61, R71), a
phase event word, or the call `init`, which has no word (spec/opcode_table.json, row init). -/
inductive Stimulus where
  | req40 (h : Handle) (w : BitVec 40)
  | evt16 (w : BitVec 16)
  | initCall (queueCapacity : Nat)
  deriving DecidableEq, Repr

/-- Why a REQ40 word names no operation (R61, R69 (a)). -/
inductive DecodeError where
  /-- a bit of 39:35 is set -/
  | reservedHighBits
  /-- bit 31 is set -/
  | reservedBit31
  /-- the opcode field is 7 -/
  | reservedOpcode
  deriving DecidableEq, Repr

end Sys2Proof
end

