-- ==== Sys2Proof/Decode.lean ====
section
/-! DEFINITION. The encodings of 30_encoding.md: opcode numbers, phase-status codes, the decoder of REQ40 and EVT16
words, and the encoder. The numbers are the spec's decisions D1 and D2. -/

namespace Sys2Proof

/-! ### Opcodes (R64) -/

/-- The opcode field of REQ40, bits 34:32 (R61, R64). -/
def Opcode.bits : Opcode → BitVec 3
  | .quick => 0
  | .sendByte => 1
  | .receiveByte => 2
  | .writeByte => 3
  | .readByte => 4
  | .writeWord => 5
  | .readWord => 6

/-- R64 read backwards; 7 is reserved. -/
def Opcode.ofBits (b : BitVec 3) : Option Opcode :=
  if b = 0 then some .quick
  else if b = 1 then some .sendByte
  else if b = 2 then some .receiveByte
  else if b = 3 then some .writeByte
  else if b = 4 then some .readByte
  else if b = 5 then some .writeWord
  else if b = 6 then some .readWord
  else none

/-! ### Phase-status codes (R65) -/

def phBusError : Byte := 0x00
def phStartSent : Byte := 0x08
def phRepStartSent : Byte := 0x10
def phAddrWAck : Byte := 0x18
def phAddrWNak : Byte := 0x20
def phDataWAck : Byte := 0x28
def phDataWNak : Byte := 0x30
def phArbLost : Byte := 0x38
def phAddrRAck : Byte := 0x40
def phAddrRNak : Byte := 0x48
def phDataRxAck : Byte := 0x50
def phDataRxNak : Byte := 0x58

/-- The reset value of `phase` and `last_phase`; as a received code it is of the class OTHER (R65, R113). -/
def phIdle : Byte := 0xF8

/-- `class(code)`: exact match on all eight bits; every value not listed is OTHER (R65). -/
def classify (code : Byte) : PhaseClass :=
  if code = phBusError then .busError
  else if code = phStartSent then .startSent
  else if code = phRepStartSent then .repStartSent
  else if code = phAddrWAck then .addrWAck
  else if code = phAddrWNak then .addrWNak
  else if code = phDataWAck then .dataWAck
  else if code = phDataWNak then .dataWNak
  else if code = phArbLost then .arbLost
  else if code = phAddrRAck then .addrRAck
  else if code = phAddrRNak then .addrRNak
  else if code = phDataRxAck then .dataRxAck
  else if code = phDataRxNak then .dataRxNak
  else .other

/-! ### Fields of the words (R61, R63) -/

def Req40.reservedHigh (w : BitVec 40) : BitVec 5 := w.extractLsb' 35 5
def Req40.opcode (w : BitVec 40) : BitVec 3 := w.extractLsb' 32 3
def Req40.reserved31 (w : BitVec 40) : BitVec 1 := w.extractLsb' 31 1
def Req40.address (w : BitVec 40) : Addr7 := w.extractLsb' 24 7
def Req40.command (w : BitVec 40) : Byte := w.extractLsb' 16 8
def Req40.payload1 (w : BitVec 40) : Byte := w.extractLsb' 8 8
def Req40.payload0 (w : BitVec 40) : Byte := w.extractLsb' 0 8

/-- Bits 15:0, the 16-bit word of WriteWord (R61). -/
def Req40.data16 (w : BitVec 40) : Word16 := w.extractLsb' 0 16

def Evt16.code (w : BitVec 16) : Byte := w.extractLsb' 8 8
def Evt16.rx (w : BitVec 16) : Byte := w.extractLsb' 0 8

/-! ### The decoder -/

/-- The operation of an opcode with the fields of a REQ40 word that it uses (R72; the others are don't care). -/
def requestOf (h : Handle) (w : BitVec 40) : Opcode → Instr
  | .quick => .quick h (Req40.address w) (Req40.payload0 w)
  | .sendByte => .sendByte h (Req40.address w) (Req40.payload0 w)
  | .receiveByte => .receiveByte h (Req40.address w)
  | .writeByte => .writeByte h (Req40.address w) (Req40.command w) (Req40.payload0 w)
  | .readByte => .readByte h (Req40.address w) (Req40.command w)
  | .writeWord => .writeWord h (Req40.address w) (Req40.command w) (Req40.data16 w)
  | .readWord => .readWord h (Req40.address w) (Req40.command w)

/-- REQ40 (R61, R69 (a)). -/
def decodeReq40 (h : Handle) (w : BitVec 40) : Except DecodeError Instr :=
  if Req40.reservedHigh w ≠ 0 then .error .reservedHighBits
  else if Req40.reserved31 w ≠ 0 then .error .reservedBit31
  else
    match Opcode.ofBits (Req40.opcode w) with
    | none => .error .reservedOpcode
    | some o => .ok (requestOf h w o)

/-- EVT16 (R63): every word is an event, of the class of its code (R69 (b)). -/
def decodeEvt16 (w : BitVec 16) : Instr :=
  match classify (Evt16.code w) with
  | .busError => .evtBusError (Evt16.rx w)
  | .startSent => .evtStartSent (Evt16.rx w)
  | .repStartSent => .evtRepStartSent (Evt16.rx w)
  | .addrWAck => .evtAddrWAck (Evt16.rx w)
  | .addrWNak => .evtAddrWNak (Evt16.rx w)
  | .dataWAck => .evtDataWAck (Evt16.rx w)
  | .dataWNak => .evtDataWNak (Evt16.rx w)
  | .arbLost => .evtArbLost (Evt16.rx w)
  | .addrRAck => .evtAddrRAck (Evt16.rx w)
  | .addrRNak => .evtAddrRNak (Evt16.rx w)
  | .dataRxAck => .evtDataRxAck (Evt16.rx w)
  | .dataRxNak => .evtDataRxNak (Evt16.rx w)
  | .other => .evtOther (Evt16.code w) (Evt16.rx w)

/-- The decoder: total, refusing by name. -/
def decode : Stimulus → Except DecodeError Instr
  | .req40 h w => decodeReq40 h w
  | .evt16 w => .ok (decodeEvt16 w)
  | .initCall cap => .ok (.init cap)

/-! ### The encoder -/

/-- A REQ40 word from its fields, bit 39 first (R61). -/
def req40 (o : Opcode) (address : Addr7) (command : Byte) (data16 : Word16) : BitVec 40 :=
  0#5 ++ o.bits ++ 0#1 ++ address ++ command ++ data16

/-- An EVT16 word (R63). -/
def evt16 (code rx : Byte) : BitVec 16 := code ++ rx

/-- A byte argument in the place of `payload[0]`, `payload[1]` being don't care and written 0 (R61, 95_test_vectors.md 2.1). -/
def inPayload0 (data : Byte) : Word16 := 0#8 ++ data

/-- The encoder; a don't-care field is written 0, as 95_test_vectors.md writes it. -/
def encode : Instr → Stimulus
  | .quick h a d => .req40 h (req40 .quick a 0 (inPayload0 d))
  | .sendByte h a d => .req40 h (req40 .sendByte a 0 (inPayload0 d))
  | .receiveByte h a => .req40 h (req40 .receiveByte a 0 0)
  | .writeByte h a c d => .req40 h (req40 .writeByte a c (inPayload0 d))
  | .readByte h a c => .req40 h (req40 .readByte a c 0)
  | .writeWord h a c dd => .req40 h (req40 .writeWord a c dd)
  | .readWord h a c => .req40 h (req40 .readWord a c 0)
  | .init cap => .initCall cap
  | .evtBusError rx => .evt16 (evt16 phBusError rx)
  | .evtStartSent rx => .evt16 (evt16 phStartSent rx)
  | .evtRepStartSent rx => .evt16 (evt16 phRepStartSent rx)
  | .evtAddrWAck rx => .evt16 (evt16 phAddrWAck rx)
  | .evtAddrWNak rx => .evt16 (evt16 phAddrWNak rx)
  | .evtDataWAck rx => .evt16 (evt16 phDataWAck rx)
  | .evtDataWNak rx => .evt16 (evt16 phDataWNak rx)
  | .evtArbLost rx => .evt16 (evt16 phArbLost rx)
  | .evtAddrRAck rx => .evt16 (evt16 phAddrRAck rx)
  | .evtAddrRNak rx => .evt16 (evt16 phAddrRNak rx)
  | .evtDataRxAck rx => .evt16 (evt16 phDataRxAck rx)
  | .evtDataRxNak rx => .evt16 (evt16 phDataRxNak rx)
  | .evtOther code rx => .evt16 (evt16 code rx)

/-! ### The table's numbering -/

/-- The stimulus that the bits of an opcode-table row stand for: a row of 40 bits is a request on handle 0 (the table gives the
handle no bits), a row of 16 bits an event, a row of no bits the call `init` with the number as its argument (log 16). -/
def tableStimulus (nbits w : Nat) : Option Stimulus :=
  if nbits = 40 then some (.req40 0 (BitVec.ofNat 40 w))
  else if nbits = 16 then some (.evt16 (BitVec.ofNat 16 w))
  else if nbits = 0 then some (.initCall w)
  else none

/-- The instruction the decoder reads from an opcode-table row's bits. -/
def decodeTableWord (nbits w : Nat) : Option Instr :=
  match tableStimulus nbits w with
  | none => none
  | some st =>
    match decode st with
    | .error _ => none
    | .ok i => some i

end Sys2Proof
end

