-- ==== Sys2Proof/WellFormed.lean ====
section
/-! DEFINITION. What a well-formed instruction is: what its type does not already say. -/

namespace Sys2Proof

/-- `init` takes an integer of at least 1 (R95), and an event is of the class OTHER only if its code is none of the
twelve named values (R65, R113). Every other operand is well formed by its type (R42). -/
def Instr.wf : Instr → Bool
  | .init cap => 1 ≤ cap
  | .evtOther code _ => classify code == .other
  | .quick _ _ _ | .sendByte _ _ _ | .receiveByte _ _ | .writeByte _ _ _ _ | .readByte _ _ _
  | .writeWord _ _ _ _ | .readWord _ _ _ => true
  | .evtBusError _ | .evtStartSent _ | .evtRepStartSent _ | .evtAddrWAck _ | .evtAddrWNak _ | .evtDataWAck _
  | .evtDataWNak _ | .evtArbLost _ | .evtAddrRAck _ | .evtAddrRNak _ | .evtDataRxAck _ | .evtDataRxNak _ => true

end Sys2Proof
end

