-- ==== Sys2Proof/Machine/State.lean ====
section
/-! DEFINITION. The state of the block (10_state.md), the reasons a step can stop (60_exceptions.md section 4), and the
state after reset (R180 to R184). -/

namespace Sys2Proof.Machine

/-- One descriptor: its seven fields, with the completion channel held as the flag `done` (R10 to R17, R140). -/
structure Descriptor where
  /-- R11 -/
  requesterId : Byte
  /-- R13, R68 -/
  status : Byte
  /-- R14; one of the seven opcodes (log 17) -/
  opcode : Opcode
  /-- R15 -/
  address : Addr7
  /-- R16 -/
  command : Byte
  /-- R17 -/
  payload0 : Byte
  /-- R17 -/
  payload1 : Byte
  /-- the completion channel `done[h]` (R12, R140) -/
  done : Bool
  /-- MODEL's own: some operation has been called on this descriptor. It tells the first use, before which `done[h]` must be 0
  (R187, U13; log 11). -/
  used : Bool
  deriving DecidableEq, Repr

/-- One write of one descriptor field by a fill step (R43, R80): one atomic step (R47 (a)). -/
inductive FieldWrite where
  | opcode (o : Opcode)
  | address (a : Addr7)
  | command (c : Byte)
  | payload0 (b : Byte)
  | payload1 (b : Byte)
  deriving DecidableEq, Repr

/-- Where a requester stands inside an operation: the step it takes next (R37). -/
inductive Pos where
  /-- the fill step: the next field write, and those after it (R80) -/
  | fill (next : FieldWrite) (rest : List FieldWrite)
  /-- R88 -/
  | s1
  /-- R89 -/
  | s2
  /-- R90 -/
  | s3
  /-- the wait, with the time units left on the wait timer (R91, R175) -/
  | s4 (left : Nat)
  /-- after a timeout, before the beginning of S5: the recovery delay has not begun yet (R92; log 19) -/
  | s5
  /-- the recovery delay, with the time units left on the recovery timer (R92, R175) -/
  | s5Delay (left : Nat)
  /-- R93 -/
  | s6
  deriving DecidableEq, Repr

/-- What a requester inside an operation holds (R37). -/
structure Op where
  /-- the handle it passed -/
  handle : Handle
  pos : Pos
  /-- how S4 ended; 0 until it has -/
  timedOut : Bool
  deriving DecidableEq, Repr

/-- One requester (R37). -/
structure Requester where
  /-- the operation it is inside, if any: at most one -/
  op : Option Op
  /-- the status its last operation returned (R93, R96), if one has returned -/
  ret : Option Byte
  deriving DecidableEq, Repr

/-- A requester that has never called an operation: what an unlisted requester is. -/
def Requester.idle : Requester := { op := none, ret := none }

/-- The commands to the Hardware Bus Interface (R33). -/
inductive HwCmd where
  | start
  | clearStart
  | stop
  | tx (b : Byte)
  | ackOn
  | ackOff
  | configure
  deriving DecidableEq, Repr

/-- The CMD port while it presents one command: six strobes and one byte (R70); `tx` is `tx_valid` with `tx_data`. -/
structure CmdPort where
  startSet : Bool
  startClr : Bool
  stopSet : Bool
  ackSet : Bool
  ackClr : Bool
  tx : Option Byte
  deriving DecidableEq, Repr

/-- One move of one agent, or one input from outside: what the next step of the interleaving is (R47; log 1). -/
inductive Move where
  /-- requester `who` calls the operation of the REQ40 word `w` on handle `h` (R71, R80): the first atomic step of the call -/
  | call (who : Who) (h : Handle) (w : BitVec 40)
  /-- the host calls `init` (R95, R186) -/
  | init (queueCapacity : Nat)
  /-- requester `who` takes the next atomic step of the operation it is inside (R47 (a)) -/
  | run (who : Who)
  /-- the HBI makes the phase event of the EVT16 word `w` pending (R34, R47 (d)) -/
  | raise (w : BitVec 16)
  /-- the phase interrupt is taken: the sequencer step in DIRECT mode (R145), the stub step in DEFERRED mode (R147) -/
  | interrupt
  /-- the handler takes its step (R148) -/
  | handler
  /-- one unit of time passes (R175; log 6) -/
  | tick
  /-- the owner `who` writes `desc[h].requester_id` (R11, R187) -/
  | writeId (who : Who) (h : Handle) (id : Byte)
  /-- the owner `who`, outside any operation, waits on `done[h]` and clears it (R187, R191, R192; log 12) -/
  | drain (who : Who) (h : Handle)
  deriving DecidableEq, Repr

end Sys2Proof.Machine

namespace Sys2Proof.Machine

/-- The state of the block: plain data. -/
structure State where
  /-- `DISPATCH_MODE`, `T_WAIT`, `T_RECOVER` (R2): nothing changes them -/
  params : Params
  /-- `QUEUE_CAPACITY`: what `init` was given (R3, R95) -/
  queueCapacity : Nat
  /-- the descriptor table `desc[0 .. N_DESC-1]` with `done[h]` (R10, R32); its length is `N_DESC` -/
  descs : List Descriptor
  /-- the Request Queue, head (oldest) first (R20) -/
  queue : List Handle
  /-- the Busy Flag (R25) -/
  busy : Bool
  /-- the active descriptor, or `NONE` (R27) -/
  cur : Option Handle
  /-- R28 -/
  phase : Byte
  /-- R28 -/
  lastPhase : Byte
  /-- R29 -/
  wrCnt : BitVec 2
  /-- R29 -/
  rdCnt : BitVec 2
  /-- R30 -/
  arbLost : Bool
  /-- R32 -/
  irqEn : Bool
  /-- R32 -/
  deferSig : Bool
  /-- R36, R180 -/
  initialised : Bool
  /-- the phase event the HBI has pending, as an EVT16 word (R34, R35 (b)) -/
  pending : Option (BitVec 16)
  /-- a `HW.Start` has been issued and no phase event has been processed since (R26, R184; log 4) -/
  startOutstanding : Bool
  /-- the output `yield_req` (R151; log 18) -/
  yieldReq : Bool
  /-- the requesters, by name, in rising order, the idle ones left out (R37) -/
  requesters : List (Who × Requester)
  /-- MODEL's own: every command presented on the CMD port so far, oldest first (R33, R70; log 3) -/
  cmds : List HwCmd
  /-- MODEL's own: the requester that makes the call being executed (log 2) -/
  turn : Who
  /-- MODEL's own: the moves still to come, next first (R47; log 1) -/
  inputs : List Move
  deriving DecidableEq, Repr

/-- Where the spec gives a situation no behaviour and asks that the model stop (R172). Every one is safe: the model stops
where the real driver goes on in an unknown way. -/
inductive Fault where
  /-- raised by a sequencer step with `cur == NONE` that is not a fresh start-sent with a non-empty queue (R100, R122, U1); safe -/
  | noActiveDescriptor
  /-- raised by a store of a third received byte into a two-byte payload (R114, U2); safe -/
  | payloadOverrun
  deriving DecidableEq, Repr

/-- Uses that break a precondition the spec makes a duty of the caller or of the HBI: the call is no step of the model (R173).
Every one is safe: the model stops where the spec gives no meaning. -/
inductive Refusal where
  /-- an instruction exec has no meaning for; raised by no arm of this model; safe -/
  | notModelled (mnemonic : String)
  /-- any operation, event or owner's access before `init` (R173 (a), R180); safe -/
  | notInitialised
  /-- a second `init` (R173 (b)); safe -/
  | alreadyInitialised
  /-- `init` with a capacity below 1 (R173 (c)); safe -/
  | capacityZero
  /-- a handle outside `0 .. N_DESC-1`: in a call (R173 (d)), or in `cur` or a requester's operation, which no run reaches
  (log 13); safe -/
  | handleOutOfRange
  /-- an operation on, or a write to, a lent descriptor (R173 (e)); safe -/
  | descriptorLent
  /-- a REQ40 word that names no operation (R69 (a), R173 (f)); safe -/
  | reservedEncoding (why : DecodeError)
  /-- another requester is inside an operation on the descriptor (R173 (g)); safe -/
  | descriptorInUse
  /-- the requester is inside an operation already (R37, R80); safe -/
  | requesterInsideOperation
  /-- first use of a descriptor whose completion channel is not empty (R187, U13; log 11); safe -/
  | channelNotEmpty
  /-- the HBI raises a phase event while one is pending (R34, D22; log 15); safe -/
  | eventAlreadyPending
  deriving DecidableEq, Repr

/-- What an instruction or a move answers with. -/
abbrev Result := Host.Outcome State Fault Refusal

/-- A descriptor nobody has written: every field is unspecified by the spec (R183) but `done`, which R36 shows as 0. The zeros are
a DESIGN CHOICE (log 8). -/
def Descriptor.fresh : Descriptor :=
  { requesterId := 0, status := 0, opcode := .quick, address := 0, command := 0, payload0 := 0, payload1 := 0,
    done := false, used := false }

/-- The block right after its one reset, `init(QUEUE_CAPACITY)` (R180 to R184; log 7). -/
def State.reset : State :=
  { params := Config.params
    queueCapacity := Config.queueCapacity
    descs := List.replicate Config.nDesc Descriptor.fresh
    queue := []
    busy := false
    cur := none
    phase := phIdle
    lastPhase := phIdle
    wrCnt := 0
    rdCnt := 0
    arbLost := false
    irqEn := true
    deferSig := false
    initialised := true
    pending := none
    startOutstanding := false
    yieldReq := false
    requesters := []
    cmds := [.configure]
    turn := 0
    inputs := [] }

end Sys2Proof.Machine
end

