-- ==== Sys2Proof/Machine/Operands.lean ====
section
/-! DEFINITION. Operand assembly: the address byte, the split of a word, field writes, the response word, the CMD port's strobes
(30_encoding.md sections 4, 5, 7), and the status values. -/

namespace Sys2Proof.Machine

/-! ### Status values (R68) -/

def stSuccess : Byte := 0x00
def stAddrWNak : Byte := 0x01
def stAddrRNak : Byte := 0x02
def stDataNak : Byte := 0x03
def stBusError : Byte := 0x04
def stUnexpected : Byte := 0x05
def stOverloaded : Byte := 0x06
def stIncomplete : Byte := 0x07

/-! ### The address byte (R66) -/

/-- `addr_byte = {address[6:0], dir}`: 0 = write, 1 = read. -/
def addrByte (address : Addr7) (dir : BitVec 1) : Byte := address ++ dir

/-- The direction of a transaction's first address byte: read iff the opcode is ReceiveByte (R102). -/
def originalDir (o : Opcode) : BitVec 1 := if o = .receiveByte then 1 else 0

/-! ### Words (R41, R67) -/

/-- The low byte of `data16`, which goes to `payload[0]`. -/
def lowByte (data16 : Word16) : Byte := data16.extractLsb' 0 8

/-- The high byte of `data16`, which goes to `payload[1]`. -/
def highByte (data16 : Word16) : Byte := data16.extractLsb' 8 8

/-- The word a descriptor holds: `{payload[1], payload[0]}`. -/
def Descriptor.word (d : Descriptor) : Word16 := d.payload1 ++ d.payload0

/-- The response word RSP24 (R62): what the owner reads back (R96). -/
def Descriptor.rsp24 (d : Descriptor) : BitVec 24 := d.status ++ d.payload1 ++ d.payload0

/-! ### Field writes -/

/-- One field write; every other field keeps its value (R80). -/
def FieldWrite.apply (f : FieldWrite) (d : Descriptor) : Descriptor :=
  match f with
  | .opcode o => { d with opcode := o }
  | .address a => { d with address := a }
  | .command c => { d with command := c }
  | .payload0 b => { d with payload0 := b }
  | .payload1 b => { d with payload1 := b }

/-- `payload[rd_cnt] <- b` for `rd_cnt < 2` (R114). -/
def Descriptor.storePayload (d : Descriptor) (rdCnt : BitVec 2) (b : Byte) : Descriptor :=
  if rdCnt = 0 then { d with payload0 := b } else { d with payload1 := b }

/-! ### Timers (R37, R175) -/

/-- What a one-shot of this duration shows when it starts; without time it has expired at once (D17). -/
def timerStart : Duration → Nat
  | .untimed => 0
  | .units n => n

/-- One unit of time passes for a requester inside an operation. -/
def Pos.tick : Pos → Pos
  | .s4 left => .s4 (left - 1)
  | .s5Delay left => .s5Delay (left - 1)
  | .fill next rest => .fill next rest
  | .s1 => .s1
  | .s2 => .s2
  | .s3 => .s3
  | .s5 => .s5
  | .s6 => .s6

/-- The position after a fill step's field write: the next write, or S1 (R80). -/
def Pos.afterWrite : List FieldWrite → Pos
  | [] => .s1
  | next :: rest => .fill next rest

/-! ### The CMD port (R70) -/

/-- No strobe asserted. -/
def CmdPort.quiet : CmdPort :=
  { startSet := false, startClr := false, stopSet := false, ackSet := false, ackClr := false, tx := none }

/-- How one command shows on the CMD port; `HW.Configure` has no encoding (R70). -/
def HwCmd.port : HwCmd → Option CmdPort
  | .start => some { CmdPort.quiet with startSet := true }
  | .clearStart => some { CmdPort.quiet with startClr := true }
  | .stop => some { CmdPort.quiet with stopSet := true }
  | .tx b => some { CmdPort.quiet with tx := some b }
  | .ackOn => some { CmdPort.quiet with ackSet := true }
  | .ackOff => some { CmdPort.quiet with ackClr := true }
  | .configure => none

/-- Whether a command is `HW.Start`. -/
def HwCmd.isStart : HwCmd → Bool
  | .start => true
  | .clearStart => false
  | .stop => false
  | .tx _ => false
  | .ackOn => false
  | .ackOff => false
  | .configure => false

end Sys2Proof.Machine
end

