-- ==== Sys2Proof/Machine/Flags.lean ====
section
/-! DEFINITION. The flags and counters of the block: completion flags, the Protocol State, the dispatch flags, and the predicates on
descriptors that the rules test. -/

namespace Sys2Proof.Machine

/-! ### The descriptor table -/

/-- `N_DESC` (R10). -/
def State.nDesc (s : State) : Nat := s.descs.length

/-- Descriptor `h`, if the handle names one (R10). -/
def State.desc? (s : State) (h : Handle) : Option Descriptor := s.descs[h]?

/-- Change descriptor `h`, and nothing else. -/
def State.modDesc (s : State) (h : Handle) (f : Descriptor → Descriptor) : State :=
  { s with descs := s.descs.modify h f }

/-- `queued(h)`, `active(h)` and `lent(h)` (R18). -/
def State.queued (s : State) (h : Handle) : Bool := s.queue.contains h

def State.active (s : State) (h : Handle) : Bool := s.cur == some h

def State.lent (s : State) (h : Handle) : Bool := s.queued h || s.active h

/-! ### Completion flags (R140 to R144) -/

/-- `Signal(h)`: sets `done[h]` (set stays set) and contributes to `yield_req` (R141, R151). -/
def State.signal (s : State) (h : Handle) : State :=
  { s.modDesc h (fun d => { d with done := true }) with yieldReq := true }

/-- The clearing of `done[h]` by the wait that consumed it (R142). -/
def State.consume (s : State) (h : Handle) : State := s.modDesc h (fun d => { d with done := false })

/-! ### The Protocol State (R28 to R31) -/

/-- The entry of a sequencer step: `last_phase <- phase ; phase <- code` (R100). The event is consumed (R152), no start is
outstanding any more (log 4), and `yield_req` speaks of this step alone (R151). -/
def State.recordPhase (s : State) (code : Byte) : State :=
  { s with lastPhase := s.phase, phase := code, pending := none, startOutstanding := false, yieldReq := false }

/-- The reset of the Protocol State at a fresh start condition (R31, R102). -/
def State.resetCounters (s : State) : State := { s with wrCnt := 0, rdCnt := 0, arbLost := false }

/-! ### The CMD port -/

/-- Issue one command to the HBI, after those issued before it (R33, R70). -/
def State.emit (s : State) (c : HwCmd) : State :=
  { s with cmds := s.cmds ++ [c], startOutstanding := s.startOutstanding || c.isStart }

/-! ### Dispatch flags (R145 to R148) -/

/-- A phase event is delivered when it is pending, the line is enabled and `init` has run (R32, R145, R147, R168). -/
def State.delivered (s : State) : Option (BitVec 16) :=
  if s.initialised && s.irqEn then s.pending else none

/-- The event whose sequencer step runs inside the interrupt: DIRECT mode (R145). -/
def State.interruptEvent (s : State) : Option (BitVec 16) :=
  match s.params.dispatchMode with
  | .direct => s.delivered
  | .deferred => none

/-- The stub step of DEFERRED mode (R147), where it is enabled; else nothing happens. -/
def State.stubStep (s : State) : State :=
  match s.params.dispatchMode with
  | .direct => s
  | .deferred =>
    match s.delivered with
    | none => s
    | some _ => { s with irqEn := false, deferSig := true, yieldReq := true }

/-- The event whose sequencer step the handler runs, where the handler step is enabled: `defer_sig == 1` (R148). -/
def State.handlerEvent (s : State) : Option (BitVec 16) :=
  match s.params.dispatchMode with
  | .direct => none
  | .deferred => if s.initialised && s.deferSig then s.pending else none

/-- The handler step before its SeqStep: `defer_sig <- 0` (R148). -/
def State.handlerEntry (s : State) : State := { s with deferSig := false }

/-- The handler step after its SeqStep: `irq_en <- 1` (R148). -/
def State.handlerExit (s : State) : State := { s with irqEn := true }

/-- The HBI raises a phase event (R34, R47 (d)): not delivered before `init` (R180; log 14), and never while one is pending
(D22; log 15). -/
def State.raiseEvent (s : State) (w : BitVec 16) : Result :=
  if !s.initialised then .next s
  else if s.pending.isSome then .refused .eventAlreadyPending
  else .next { s with pending := some w }

end Sys2Proof.Machine
end

