-- ==== Sys2Proof/Machine/Ops.lean ====
section
/-! DEFINITION. The named operations the instructions share: the Request Queue, the requesters, the entry into an operation, the
frame of a sequencer step, the store of a received byte, and the terminal sequence, which is this block's trap entry
(60_exceptions.md). -/

namespace Sys2Proof.Machine

/-! ### Outcomes -/

/-- Go on from a next state; a fault or a refusal stays. -/
def thenDo (r : Result) (f : State → State) : Result :=
  match r with
  | .next s => .next (f s)
  | .fault e => .fault e
  | .refused e => .refused e

/-- The next state of an outcome, if it is one. -/
def nextOf : Result → Option State
  | .next s => some s
  | .fault _ => none
  | .refused _ => none

/-- The fault of an outcome, if it is one. -/
def faultOf : Result → Option Fault
  | .next _ => none
  | .fault e => some e
  | .refused _ => none

/-- The refusal of an outcome, if it is one. -/
def refusalOf : Result → Option Refusal
  | .next _ => none
  | .fault _ => none
  | .refused e => some e

/-! ### The Request Queue (R20 to R24) -/

/-- `Enqueue(h)`: fails on a full queue, else appends at the tail (R22). -/
def State.enqueue (s : State) (h : Handle) : Option State :=
  if s.queue.length = s.queueCapacity then none else some { s with queue := s.queue ++ [h] }

/-- `Dequeue()`: fails on an empty queue, else removes and returns the head (R23). -/
def State.dequeue (s : State) : Option (Handle × State) :=
  match s.queue with
  | [] => none
  | h :: rest => some (h, { s with queue := rest })

/-! ### Requesters (R37) -/

/-- The requester of a name; an unlisted one is idle. -/
def lookupRequester : List (Who × Requester) → Who → Requester
  | [], _ => Requester.idle
  | (k, r) :: rest, who => if k = who then r else lookupRequester rest who

/-- List a requester at its place in the rising order. -/
def putRequester : List (Who × Requester) → Who → Requester → List (Who × Requester)
  | [], who, r => [(who, r)]
  | (k, r') :: rest, who, r =>
    if who < k then (who, r) :: (k, r') :: rest
    else if who = k then (who, r) :: rest
    else (k, r') :: putRequester rest who r

def State.requester (s : State) (who : Who) : Requester := lookupRequester s.requesters who

def State.setRequester (s : State) (who : Who) (r : Requester) : State :=
  { s with requesters := putRequester s.requesters who r }

/-- The operation a requester is inside goes on at `o`. -/
def State.setOp (s : State) (who : Who) (o : Op) : State :=
  s.setRequester who { s.requester who with op := some o }

/-- A requester leaves its operation, which returns `status` (R89, R93). -/
def State.returnFrom (s : State) (who : Who) (status : Byte) : State :=
  s.setRequester who { op := none, ret := some status }

/-- Whether a requester is inside an operation on descriptor `h`. -/
def Requester.uses (r : Requester) (h : Handle) : Bool :=
  match r.op with
  | none => false
  | some o => o.handle == h

/-- Whether some requester is inside an operation on descriptor `h` (R173 (g)). -/
def State.inUse (s : State) (h : Handle) : Bool := s.requesters.any (fun e => e.2.uses h)

/-- A requester no list entry has the name of: above every listed name. -/
def State.freshWho (s : State) : Who := s.requesters.foldl (fun n e => max n (e.1 + 1)) 0

/-- One unit of time passes for every running timer (R175). -/
def Requester.tick (r : Requester) : Requester :=
  { r with op := r.op.map (fun o => { o with pos := o.pos.tick }) }

def State.tick (s : State) : State :=
  { s with requesters := s.requesters.map (fun e => (e.1, e.2.tick)) }

/-! ### Where a stimulus waits to be taken -/

/-- Put a stimulus where the very next step takes it (log 16): a request as the next move, of a requester that is inside no
operation; a phase event as the HBI's pending event, with the interrupt taken next (DIRECT mode) or the hand-off to the
handler done and the handler next (DEFERRED mode); `init` as the next move. -/
def State.place (s : State) (st : Stimulus) : State :=
  match st with
  | .req40 h w => { s with inputs := .call s.freshWho h w :: s.inputs }
  | .initCall cap => { s with inputs := .init cap :: s.inputs }
  | .evt16 w =>
    match s.params.dispatchMode with
    | .direct => { s with pending := some w, irqEn := true, inputs := .interrupt :: s.inputs }
    | .deferred => { s with pending := some w, irqEn := false, deferSig := true, inputs := .handler :: s.inputs }

/-! ### Entering an operation (R80) -/

/-- The preconditions of an operation of requester `who` on handle `h`, in the order they are looked at; the first one broken
names the refusal (R80, R173, U13). -/
def State.callRefusal (s : State) (who : Who) (h : Handle) : Option Refusal :=
  if !s.initialised then some .notInitialised
  else
    match s.desc? h with
    | none => some .handleOutOfRange
    | some d =>
      if (s.requester who).op.isSome then some .requesterInsideOperation
      else if s.inUse h then some .descriptorInUse
      else if s.lent h then some .descriptorLent
      else if !d.used && d.done then some .channelNotEmpty
      else none

/-- The call of an operation whose fill step writes `first` and then `rest` (R80): the first field write is the call's first atomic
step (R47 (a)); the requester takes the others, and `SubmitAndWait(h)` after them, by moves of its own (log 2). -/
def State.beginCall (s : State) (h : Handle) (first : FieldWrite) (rest : List FieldWrite) : Result :=
  match s.callRefusal s.turn h with
  | some why => .refused why
  | none =>
    .next ((s.modDesc h (fun d => first.apply { d with used := true })).setOp s.turn
      { handle := h, pos := Pos.afterWrite rest, timedOut := false })

/-! ### The sequencer step (R100) -/

/-- A sequencer step on code `code`: it runs only when `init` has run; the phase is recorded before dispatch. -/
def State.seqStep (s : State) (code : Byte) (rule : State → Result) : Result :=
  if !s.initialised then .refused .notInitialised else rule (s.recordPhase code)

/-- What every rule but R102 begins with: `d` stands for `desc[cur]`, and there is a fault where `cur == NONE` (R100). -/
def State.withActive (s : State) (rule : Handle → Descriptor → Result) : Result :=
  match s.cur with
  | none => .fault .noActiveDescriptor
  | some h =>
    match s.desc? h with
    | none => .refused .handleOutOfRange
    | some d => rule h d

/-- `StoreRx(b)` into the active descriptor `h` (R114). -/
def State.storeRx (s : State) (h : Handle) (b : Byte) : Result :=
  if 2 ≤ s.rdCnt then .fault .payloadOverrun
  else .next { s.modDesc h (fun d => d.storePayload s.rdCnt b) with rdCnt := s.rdCnt + 1 }

/-- `Terminal(st)` for the active descriptor `h` (R115): stop, status, signal, then the next transaction or idle, in this order. -/
def State.terminal (s : State) (h : Handle) (st : Byte) : State :=
  let s1 := s.emit .stop
  let s2 := s1.modDesc h (fun d => { d with status := st })
  let s3 := s2.signal h
  match s3.dequeue with
  | some (next, s4) => { s4 with cur := some next }.emit .start
  | none => { s3 with cur := none, busy := false }

/-- A step whose whole action is `Terminal(st)` (R101, R105, R107, R112, R113). -/
def State.errorStop (s : State) (code st : Byte) : Result :=
  s.seqStep code fun s1 => s1.withActive fun h _ => .next (s1.terminal h st)

end Sys2Proof.Machine
end

