-- ==== Sys2Proof/Machine/Manager.lean ====
section
/-! DEFINITION. The request arbiter (40_manager.md): the seven operations, `init`, the steps S1 to S6 of submit-and-wait, and the
owner's accesses outside any operation. -/

namespace Sys2Proof.Machine

/-! ### The seven operations (R81 to R87) -/

/-- R81. -/
def execQuick (h : Handle) (address : Addr7) (data : Byte) (s : State) : Result :=
  s.beginCall h (.opcode .quick) [.address address, .payload0 data]

/-- R82. -/
def execSendByte (h : Handle) (address : Addr7) (data : Byte) (s : State) : Result :=
  s.beginCall h (.opcode .sendByte) [.address address, .payload0 data]

/-- R83. -/
def execReceiveByte (h : Handle) (address : Addr7) (s : State) : Result :=
  s.beginCall h (.opcode .receiveByte) [.address address]

/-- R84. -/
def execWriteByte (h : Handle) (address : Addr7) (command data : Byte) (s : State) : Result :=
  s.beginCall h (.opcode .writeByte) [.address address, .command command, .payload0 data]

/-- R85. -/
def execReadByte (h : Handle) (address : Addr7) (command : Byte) (s : State) : Result :=
  s.beginCall h (.opcode .readByte) [.address address, .command command]

/-- R86: the low byte first. -/
def execWriteWord (h : Handle) (address : Addr7) (command : Byte) (data16 : Word16) (s : State) : Result :=
  s.beginCall h (.opcode .writeWord)
    [.address address, .command command, .payload0 (lowByte data16), .payload1 (highByte data16)]

/-- R87. -/
def execReadWord (h : Handle) (address : Addr7) (command : Byte) (s : State) : Result :=
  s.beginCall h (.opcode .readWord) [.address address, .command command]

/-! ### init (R95) -/

/-- R95, with the HBI configured and idle: no event pending and no start outstanding (R184; log 14). Descriptors and `done` flags
are untouched (R183), and so is the model's own bit `used`: from an uninitialised state with `used = 1` and `done = 1` the first
operation after `init` runs as a later one (DESIGN CHOICE, log 11). -/
def execInit (queueCapacity : Nat) (s : State) : Result :=
  if s.initialised then .refused .alreadyInitialised
  else if queueCapacity < 1 then .refused .capacityZero
  else
    .next
      { s.emit .configure with
        queueCapacity := queueCapacity, queue := [], busy := false, cur := none,
        phase := phIdle, lastPhase := phIdle, wrCnt := 0, rdCnt := 0, arbLost := false,
        irqEn := true, deferSig := false, initialised := true,
        pending := none, startOutstanding := false }

/-! ### Submit-and-wait (R88 to R93) -/

/-- One field write of the fill step (R80). -/
def State.stepFill (s : State) (who : Who) (o : Op) (next : FieldWrite) (rest : List FieldWrite) : State :=
  (s.modDesc o.handle next.apply).setOp who { o with pos := Pos.afterWrite rest }

/-- S1 (R88). -/
def State.stepS1 (s : State) (who : Who) (o : Op) : State :=
  (s.modDesc o.handle (fun d => { d with status := stIncomplete })).setOp who { o with pos := .s2 }

/-- S2 (R89). -/
def State.stepS2 (s : State) (who : Who) (o : Op) : State :=
  match s.enqueue o.handle with
  | none => (s.modDesc o.handle (fun d => { d with status := stOverloaded })).returnFrom who stOverloaded
  | some s1 => s1.setOp who { o with pos := .s3 }

/-- The kick of S3: `HW.Start` and `busy <- 1` if the block is idle (R90). -/
def State.kick (s : State) : State := if s.busy then s else { s.emit .start with busy := true }

/-- S3 (R90); the wait timer starts as S4 begins (R91, R175). -/
def State.stepS3 (s : State) (who : Who) (o : Op) : State :=
  s.kick.setOp who { o with pos := .s4 (timerStart s.params.tWait) }

/-- S5 begins (R92): `status` is what the descriptor holds at this moment; the recovery timer starts if the delay applies. -/
def State.beginS5 (s : State) (who : Who) (o : Op) (status : Byte) : State :=
  if o.timedOut || status != stSuccess then s.setOp who { o with pos := .s5Delay (timerStart s.params.tRecover) }
  else s.setOp who { o with pos := .s6 }

/-- S4 (R91, R142): ended by completion, or by the timeout, or still waiting. An ending by completion begins S5 in the same atomic step: R47
lists no step between the two, and so R92 and R97 agree on a stale notification (DEDUCED, logs 19 and 22). After a timeout the
transaction may still end before S5 begins (V-M4). -/
def State.stepS4 (s : State) (who : Who) (o : Op) (d : Descriptor) (left : Nat) : State :=
  if d.done then (s.consume o.handle).beginS5 who { o with timedOut := false } d.status
  else if left = 0 then s.setOp who { o with pos := .s5, timedOut := true }
  else s

/-- The beginning of S5 as a step of its own, after a timeout (R92; log 19). -/
def State.stepS5 (s : State) (who : Who) (o : Op) (d : Descriptor) : State := s.beginS5 who o d.status

/-- The ending of the recovery delay (R92), or the requester does nothing. -/
def State.stepS5Delay (s : State) (who : Who) (o : Op) (left : Nat) : State :=
  if left = 0 then s.setOp who { o with pos := .s6 } else s

/-- S6 (R93): returns the status the descriptor holds now. -/
def State.stepS6 (s : State) (who : Who) (d : Descriptor) : State := s.returnFrom who d.status

/-- The next atomic step of requester `who`. Before `init` no step but `init` is enabled (R180); a requester inside no operation
takes none. -/
def State.runRequester (s : State) (who : Who) : Result :=
  if !s.initialised then .next s
  else
    match (s.requester who).op with
    | none => .next s
    | some o =>
      match s.desc? o.handle with
      | none => .refused .handleOutOfRange
      | some d =>
        match o.pos with
        | .fill next rest => .next (s.stepFill who o next rest)
        | .s1 => .next (s.stepS1 who o)
        | .s2 => .next (s.stepS2 who o)
        | .s3 => .next (s.stepS3 who o)
        | .s4 left => .next (s.stepS4 who o d left)
        | .s5 => .next (s.stepS5 who o d)
        | .s5Delay left => .next (s.stepS5Delay who o left)
        | .s6 => .next (s.stepS6 who d)

/-! ### The owner's accesses outside any operation -/

/-- What the owner's access needs: `init` has run, the handle names a descriptor, the owner is inside no operation, and no other
requester is inside one on this descriptor (R37, R173, R180). -/
def State.ownerRefusal (s : State) (who : Who) (h : Handle) : Option Refusal :=
  if !s.initialised then some .notInitialised
  else if !(s.desc? h).isSome then some .handleOutOfRange
  else if (s.requester who).op.isSome then some .requesterInsideOperation
  else if s.inUse h then some .descriptorInUse
  else none

/-- The owner writes `requester_id` (R11, R187), never while the descriptor is lent (R44, R173 (e)). -/
def State.writeRequesterId (s : State) (who : Who) (h : Handle) (id : Byte) : Result :=
  match s.ownerRefusal who h with
  | some why => .refused why
  | none =>
    if s.lent h then .refused .descriptorLent
    else .next (s.modDesc h (fun d => { d with requesterId := id }))

/-- The owner waits on `done[h]` and clears it (R187, R191, R192); while the flag is 0 it waits on. -/
def State.drainChannel (s : State) (who : Who) (h : Handle) : Result :=
  match s.ownerRefusal who h with
  | some why => .refused why
  | none => .next (s.consume h)

end Sys2Proof.Machine
end

