-- ==== Sys2Proof/Machine/Sequencer.lean ====
section
/-! DEFINITION. The protocol state machine (41_sequencer.md): one meaning per class of phase event. In each, `rx` is the HBI's data
register (R34), which only the two data-received rules read. -/

namespace Sys2Proof.Machine

/-- R101. -/
def execEvtBusError (_rx : Byte) (s : State) : Result := s.errorStop phBusError stBusError

/-- `HW.Tx({d.address, dir})` of the active descriptor (R66, R102, R103). -/
def State.txAddress (s : State) (d : Descriptor) (dir : BitVec 1) : State := s.emit (.tx (addrByte d.address dir))

/-- The fresh start condition of R102: the Protocol State is reset, and at a fresh activation (`cur == NONE`) the queue head becomes
active; an empty queue is the fault of R100. -/
def State.freshStart (s : State) : Result :=
  match s.cur with
  | some _ => .next s.resetCounters
  | none =>
    match s.resetCounters.dequeue with
    | none => .fault .noActiveDescriptor
    | some (h, s1) => .next { s1 with cur := some h }

/-- The end of R102: the address byte of the now active descriptor. -/
def State.startAddress (s : State) : Result :=
  s.withActive fun _ d => .next (s.txAddress d (originalDir d.opcode))

/-- R102. A start sent after an arbitration loss is a retry: nothing is reset and nothing is dequeued. -/
def execEvtStartSent (_rx : Byte) (s : State) : Result :=
  s.seqStep phStartSent fun s1 =>
    if s1.lastPhase = phArbLost then (s1.emit .clearStart).startAddress
    else
      match (s1.emit .clearStart).freshStart with
      | .next s2 => s2.startAddress
      | .fault e => .fault e
      | .refused e => .refused e

/-- R103. -/
def execEvtRepStartSent (_rx : Byte) (s : State) : Result :=
  s.seqStep phRepStartSent fun s1 => s1.withActive fun _ d =>
    .next ((s1.emit .clearStart).txAddress d (if s1.lastPhase = phArbLost then originalDir d.opcode else 1))

/-- R104. -/
def execEvtAddrWAck (_rx : Byte) (s : State) : Result :=
  s.seqStep phAddrWAck fun s1 => s1.withActive fun h d =>
    match d.opcode with
    | .quick => .next (s1.terminal h stSuccess)
    | .sendByte => .next { s1.emit (.tx d.payload0) with wrCnt := 1 }
    | .writeByte | .readByte | .writeWord | .readWord => .next (s1.emit (.tx d.command))
    | .receiveByte => .next (s1.terminal h stUnexpected)

/-- R105. -/
def execEvtAddrWNak (_rx : Byte) (s : State) : Result := s.errorStop phAddrWNak stAddrWNak

/-- R106. -/
def execEvtDataWAck (_rx : Byte) (s : State) : Result :=
  s.seqStep phDataWAck fun s1 => s1.withActive fun h d =>
    match d.opcode with
    | .sendByte => .next (s1.terminal h stSuccess)
    | .writeByte =>
      if s1.wrCnt = 0 then .next { s1.emit (.tx d.payload0) with wrCnt := 1 }
      else .next (s1.terminal h stSuccess)
    | .writeWord =>
      if s1.wrCnt = 0 then .next { s1.emit (.tx d.payload0) with wrCnt := 1 }
      else if s1.wrCnt = 1 then .next { s1.emit (.tx d.payload1) with wrCnt := 2 }
      else .next (s1.terminal h stSuccess)
    | .readByte | .readWord => .next (s1.emit .start)
    | .quick | .receiveByte => .next (s1.terminal h stUnexpected)

/-- R107. -/
def execEvtDataWNak (_rx : Byte) (s : State) : Result := s.errorStop phDataWNak stDataNak

/-- R108. -/
def execEvtArbLost (_rx : Byte) (s : State) : Result :=
  s.seqStep phArbLost fun s1 => s1.withActive fun _ _ => .next { s1.emit .start with arbLost := true }

/-- R109. -/
def execEvtAddrRAck (_rx : Byte) (s : State) : Result :=
  s.seqStep phAddrRAck fun s1 => s1.withActive fun _ d =>
    if d.opcode = .receiveByte || d.opcode = .readByte then .next (s1.emit .ackOff)
    else .next (s1.emit .ackOn)

/-- R112. -/
def execEvtAddrRNak (_rx : Byte) (s : State) : Result := s.errorStop phAddrRNak stAddrRNak

/-- R110: the store comes before `HW.AckOff`. -/
def execEvtDataRxAck (rx : Byte) (s : State) : Result :=
  s.seqStep phDataRxAck fun s1 => s1.withActive fun h d =>
    if d.opcode = .readWord then thenDo (s1.storeRx h rx) (fun s2 => s2.emit .ackOff)
    else .next (s1.terminal h stUnexpected)

/-- R111: the store comes before the terminal sequence. -/
def execEvtDataRxNak (rx : Byte) (s : State) : Result :=
  s.seqStep phDataRxNak fun s1 => s1.withActive fun h _ =>
    thenDo (s1.storeRx h rx) (fun s2 => s2.terminal h stSuccess)

/-- R113: the offending code stays readable in `phase`. -/
def execEvtOther (code _rx : Byte) (s : State) : Result := s.errorStop code stUnexpected

end Sys2Proof.Machine
end

