-- ==== Sys2Proof/Machine/Dispatch.lean ====
section
/-! DEFINITION. One arm per instruction. -/

namespace Sys2Proof.Machine

def exec (i : Instr) (s : State) : Host.Outcome State Fault Refusal :=
  match i with
  | .quick h a d => Sys2Proof.Machine.execQuick h a d s
  | .sendByte h a d => Sys2Proof.Machine.execSendByte h a d s
  | .receiveByte h a => Sys2Proof.Machine.execReceiveByte h a s
  | .writeByte h a c d => Sys2Proof.Machine.execWriteByte h a c d s
  | .readByte h a c => Sys2Proof.Machine.execReadByte h a c s
  | .writeWord h a c w => Sys2Proof.Machine.execWriteWord h a c w s
  | .readWord h a c => Sys2Proof.Machine.execReadWord h a c s
  | .init n => Sys2Proof.Machine.execInit n s
  | .evtBusError rx => Sys2Proof.Machine.execEvtBusError rx s
  | .evtStartSent rx => Sys2Proof.Machine.execEvtStartSent rx s
  | .evtRepStartSent rx => Sys2Proof.Machine.execEvtRepStartSent rx s
  | .evtAddrWAck rx => Sys2Proof.Machine.execEvtAddrWAck rx s
  | .evtAddrWNak rx => Sys2Proof.Machine.execEvtAddrWNak rx s
  | .evtDataWAck rx => Sys2Proof.Machine.execEvtDataWAck rx s
  | .evtDataWNak rx => Sys2Proof.Machine.execEvtDataWNak rx s
  | .evtArbLost rx => Sys2Proof.Machine.execEvtArbLost rx s
  | .evtAddrRAck rx => Sys2Proof.Machine.execEvtAddrRAck rx s
  | .evtAddrRNak rx => Sys2Proof.Machine.execEvtAddrRNak rx s
  | .evtDataRxAck rx => Sys2Proof.Machine.execEvtDataRxAck rx s
  | .evtDataRxNak rx => Sys2Proof.Machine.execEvtDataRxNak rx s
  | .evtOther code rx => Sys2Proof.Machine.execEvtOther code rx s

end Sys2Proof.Machine
end

