-- ==== Sys2Proof/Machine/Moves.lean ====
section
/-! DEFINITION. What one move of the interleaving does (R47). A move of an agent that has no enabled step leaves the state as it is. -/

namespace Sys2Proof.Machine

/-- The instruction of a stimulus, or its refusal by name (R69 (a), R173 (f)). -/
def runStimulus (st : Stimulus) (s : State) : Result :=
  match decode st with
  | .error why => .refused (.reservedEncoding why)
  | .ok i => exec i s

/-- One move, in the state from whose inputs it has been taken. Time, which is no step of the block, passes before `init` too (DESIGN
CHOICE, log 23). -/
def takeMove (m : Move) (s : State) : Result :=
  match m with
  | .call who h w => runStimulus (.req40 h w) { s with turn := who }
  | .init cap => runStimulus (.initCall cap) s
  | .run who => s.runRequester who
  | .raise w => s.raiseEvent w
  | .interrupt =>
    match s.interruptEvent with
    | some w => runStimulus (.evt16 w) s
    | none => .next s.stubStep
  | .handler =>
    match s.handlerEvent with
    | some w => thenDo (runStimulus (.evt16 w) s.handlerEntry) State.handlerExit
    | none => .next s
  | .tick => .next s.tick
  | .writeId who h id => s.writeRequesterId who h id
  | .drain who h => s.drainChannel who h

end Sys2Proof.Machine
end

