-- ==== Sys2Proof/Machine/Step.lean ====
section
/-! DEFINITION. One step of the block: the next move of the interleaving (R47). A step with no move to come leaves the
state as it is: the block waits. -/

namespace Sys2Proof.Machine

/-- One step. -/
def step (s : State) : Host.Outcome State Fault Refusal :=
  match s.inputs with
  | [] => .next s
  | m :: rest => takeMove m { s with inputs := rest }

/-- `s` with the instruction of an opcode-table row placed where the very next step takes it (log 16). -/
def State.withFetchWord (s : State) (nbits w : Nat) : State :=
  match tableStimulus nbits w with
  | none => s
  | some st => s.place st

end Sys2Proof.Machine
end

