-- ==== Sys2Proof/Laws/State.lean ====
section
/-! SUPPORT. One lemma per field per named update of the state, each true by unfolding, so that no later proof opens a record update. -/

namespace Sys2Proof.Machine

@[simp] theorem State.emit_params (s : State) (c : HwCmd) : (s.emit c).params = s.params := rfl
@[simp] theorem State.emit_queueCapacity (s : State) (c : HwCmd) : (s.emit c).queueCapacity = s.queueCapacity := rfl
@[simp] theorem State.emit_descs (s : State) (c : HwCmd) : (s.emit c).descs = s.descs := rfl
@[simp] theorem State.emit_queue (s : State) (c : HwCmd) : (s.emit c).queue = s.queue := rfl
@[simp] theorem State.emit_busy (s : State) (c : HwCmd) : (s.emit c).busy = s.busy := rfl
@[simp] theorem State.emit_cur (s : State) (c : HwCmd) : (s.emit c).cur = s.cur := rfl
@[simp] theorem State.emit_phase (s : State) (c : HwCmd) : (s.emit c).phase = s.phase := rfl
@[simp] theorem State.emit_lastPhase (s : State) (c : HwCmd) : (s.emit c).lastPhase = s.lastPhase := rfl
@[simp] theorem State.emit_wrCnt (s : State) (c : HwCmd) : (s.emit c).wrCnt = s.wrCnt := rfl
@[simp] theorem State.emit_rdCnt (s : State) (c : HwCmd) : (s.emit c).rdCnt = s.rdCnt := rfl
@[simp] theorem State.emit_arbLost (s : State) (c : HwCmd) : (s.emit c).arbLost = s.arbLost := rfl
@[simp] theorem State.emit_irqEn (s : State) (c : HwCmd) : (s.emit c).irqEn = s.irqEn := rfl
@[simp] theorem State.emit_deferSig (s : State) (c : HwCmd) : (s.emit c).deferSig = s.deferSig := rfl
@[simp] theorem State.emit_initialised (s : State) (c : HwCmd) : (s.emit c).initialised = s.initialised := rfl
@[simp] theorem State.emit_pending (s : State) (c : HwCmd) : (s.emit c).pending = s.pending := rfl
@[simp] theorem State.emit_startOutstanding (s : State) (c : HwCmd) : (s.emit c).startOutstanding = (s.startOutstanding || c.isStart) := rfl
@[simp] theorem State.emit_yieldReq (s : State) (c : HwCmd) : (s.emit c).yieldReq = s.yieldReq := rfl
@[simp] theorem State.emit_requesters (s : State) (c : HwCmd) : (s.emit c).requesters = s.requesters := rfl
@[simp] theorem State.emit_cmds (s : State) (c : HwCmd) : (s.emit c).cmds = s.cmds ++ [c] := rfl
@[simp] theorem State.emit_turn (s : State) (c : HwCmd) : (s.emit c).turn = s.turn := rfl
@[simp] theorem State.emit_inputs (s : State) (c : HwCmd) : (s.emit c).inputs = s.inputs := rfl

@[simp] theorem State.modDesc_params (s : State) (h : Handle) (f : Descriptor → Descriptor) : (s.modDesc h f).params = s.params := rfl
@[simp] theorem State.modDesc_queueCapacity (s : State) (h : Handle) (f : Descriptor → Descriptor) : (s.modDesc h f).queueCapacity = s.queueCapacity := rfl
@[simp] theorem State.modDesc_descs (s : State) (h : Handle) (f : Descriptor → Descriptor) : (s.modDesc h f).descs = s.descs.modify h f := rfl
@[simp] theorem State.modDesc_queue (s : State) (h : Handle) (f : Descriptor → Descriptor) : (s.modDesc h f).queue = s.queue := rfl
@[simp] theorem State.modDesc_busy (s : State) (h : Handle) (f : Descriptor → Descriptor) : (s.modDesc h f).busy = s.busy := rfl
@[simp] theorem State.modDesc_cur (s : State) (h : Handle) (f : Descriptor → Descriptor) : (s.modDesc h f).cur = s.cur := rfl
@[simp] theorem State.modDesc_phase (s : State) (h : Handle) (f : Descriptor → Descriptor) : (s.modDesc h f).phase = s.phase := rfl
@[simp] theorem State.modDesc_lastPhase (s : State) (h : Handle) (f : Descriptor → Descriptor) : (s.modDesc h f).lastPhase = s.lastPhase := rfl
@[simp] theorem State.modDesc_wrCnt (s : State) (h : Handle) (f : Descriptor → Descriptor) : (s.modDesc h f).wrCnt = s.wrCnt := rfl
@[simp] theorem State.modDesc_rdCnt (s : State) (h : Handle) (f : Descriptor → Descriptor) : (s.modDesc h f).rdCnt = s.rdCnt := rfl
@[simp] theorem State.modDesc_arbLost (s : State) (h : Handle) (f : Descriptor → Descriptor) : (s.modDesc h f).arbLost = s.arbLost := rfl
@[simp] theorem State.modDesc_irqEn (s : State) (h : Handle) (f : Descriptor → Descriptor) : (s.modDesc h f).irqEn = s.irqEn := rfl
@[simp] theorem State.modDesc_deferSig (s : State) (h : Handle) (f : Descriptor → Descriptor) : (s.modDesc h f).deferSig = s.deferSig := rfl
@[simp] theorem State.modDesc_initialised (s : State) (h : Handle) (f : Descriptor → Descriptor) : (s.modDesc h f).initialised = s.initialised := rfl
@[simp] theorem State.modDesc_pending (s : State) (h : Handle) (f : Descriptor → Descriptor) : (s.modDesc h f).pending = s.pending := rfl
@[simp] theorem State.modDesc_startOutstanding (s : State) (h : Handle) (f : Descriptor → Descriptor) : (s.modDesc h f).startOutstanding = s.startOutstanding := rfl
@[simp] theorem State.modDesc_yieldReq (s : State) (h : Handle) (f : Descriptor → Descriptor) : (s.modDesc h f).yieldReq = s.yieldReq := rfl
@[simp] theorem State.modDesc_requesters (s : State) (h : Handle) (f : Descriptor → Descriptor) : (s.modDesc h f).requesters = s.requesters := rfl
@[simp] theorem State.modDesc_cmds (s : State) (h : Handle) (f : Descriptor → Descriptor) : (s.modDesc h f).cmds = s.cmds := rfl
@[simp] theorem State.modDesc_turn (s : State) (h : Handle) (f : Descriptor → Descriptor) : (s.modDesc h f).turn = s.turn := rfl
@[simp] theorem State.modDesc_inputs (s : State) (h : Handle) (f : Descriptor → Descriptor) : (s.modDesc h f).inputs = s.inputs := rfl

@[simp] theorem State.signal_params (s : State) (h : Handle) : (s.signal h).params = s.params := rfl
@[simp] theorem State.signal_queueCapacity (s : State) (h : Handle) : (s.signal h).queueCapacity = s.queueCapacity := rfl
@[simp] theorem State.signal_descs (s : State) (h : Handle) : (s.signal h).descs = s.descs.modify h (fun d => { d with done := true }) := rfl
@[simp] theorem State.signal_queue (s : State) (h : Handle) : (s.signal h).queue = s.queue := rfl
@[simp] theorem State.signal_busy (s : State) (h : Handle) : (s.signal h).busy = s.busy := rfl
@[simp] theorem State.signal_cur (s : State) (h : Handle) : (s.signal h).cur = s.cur := rfl
@[simp] theorem State.signal_phase (s : State) (h : Handle) : (s.signal h).phase = s.phase := rfl
@[simp] theorem State.signal_lastPhase (s : State) (h : Handle) : (s.signal h).lastPhase = s.lastPhase := rfl
@[simp] theorem State.signal_wrCnt (s : State) (h : Handle) : (s.signal h).wrCnt = s.wrCnt := rfl
@[simp] theorem State.signal_rdCnt (s : State) (h : Handle) : (s.signal h).rdCnt = s.rdCnt := rfl
@[simp] theorem State.signal_arbLost (s : State) (h : Handle) : (s.signal h).arbLost = s.arbLost := rfl
@[simp] theorem State.signal_irqEn (s : State) (h : Handle) : (s.signal h).irqEn = s.irqEn := rfl
@[simp] theorem State.signal_deferSig (s : State) (h : Handle) : (s.signal h).deferSig = s.deferSig := rfl
@[simp] theorem State.signal_initialised (s : State) (h : Handle) : (s.signal h).initialised = s.initialised := rfl
@[simp] theorem State.signal_pending (s : State) (h : Handle) : (s.signal h).pending = s.pending := rfl
@[simp] theorem State.signal_startOutstanding (s : State) (h : Handle) : (s.signal h).startOutstanding = s.startOutstanding := rfl
@[simp] theorem State.signal_yieldReq (s : State) (h : Handle) : (s.signal h).yieldReq = true := rfl
@[simp] theorem State.signal_requesters (s : State) (h : Handle) : (s.signal h).requesters = s.requesters := rfl
@[simp] theorem State.signal_cmds (s : State) (h : Handle) : (s.signal h).cmds = s.cmds := rfl
@[simp] theorem State.signal_turn (s : State) (h : Handle) : (s.signal h).turn = s.turn := rfl
@[simp] theorem State.signal_inputs (s : State) (h : Handle) : (s.signal h).inputs = s.inputs := rfl

@[simp] theorem State.setRequester_params (s : State) (w : Who) (r : Requester) : (s.setRequester w r).params = s.params := rfl
@[simp] theorem State.setRequester_queueCapacity (s : State) (w : Who) (r : Requester) : (s.setRequester w r).queueCapacity = s.queueCapacity := rfl
@[simp] theorem State.setRequester_descs (s : State) (w : Who) (r : Requester) : (s.setRequester w r).descs = s.descs := rfl
@[simp] theorem State.setRequester_queue (s : State) (w : Who) (r : Requester) : (s.setRequester w r).queue = s.queue := rfl
@[simp] theorem State.setRequester_busy (s : State) (w : Who) (r : Requester) : (s.setRequester w r).busy = s.busy := rfl
@[simp] theorem State.setRequester_cur (s : State) (w : Who) (r : Requester) : (s.setRequester w r).cur = s.cur := rfl
@[simp] theorem State.setRequester_phase (s : State) (w : Who) (r : Requester) : (s.setRequester w r).phase = s.phase := rfl
@[simp] theorem State.setRequester_lastPhase (s : State) (w : Who) (r : Requester) : (s.setRequester w r).lastPhase = s.lastPhase := rfl
@[simp] theorem State.setRequester_wrCnt (s : State) (w : Who) (r : Requester) : (s.setRequester w r).wrCnt = s.wrCnt := rfl
@[simp] theorem State.setRequester_rdCnt (s : State) (w : Who) (r : Requester) : (s.setRequester w r).rdCnt = s.rdCnt := rfl
@[simp] theorem State.setRequester_arbLost (s : State) (w : Who) (r : Requester) : (s.setRequester w r).arbLost = s.arbLost := rfl
@[simp] theorem State.setRequester_irqEn (s : State) (w : Who) (r : Requester) : (s.setRequester w r).irqEn = s.irqEn := rfl
@[simp] theorem State.setRequester_deferSig (s : State) (w : Who) (r : Requester) : (s.setRequester w r).deferSig = s.deferSig := rfl
@[simp] theorem State.setRequester_initialised (s : State) (w : Who) (r : Requester) : (s.setRequester w r).initialised = s.initialised := rfl
@[simp] theorem State.setRequester_pending (s : State) (w : Who) (r : Requester) : (s.setRequester w r).pending = s.pending := rfl
@[simp] theorem State.setRequester_startOutstanding (s : State) (w : Who) (r : Requester) : (s.setRequester w r).startOutstanding = s.startOutstanding := rfl
@[simp] theorem State.setRequester_yieldReq (s : State) (w : Who) (r : Requester) : (s.setRequester w r).yieldReq = s.yieldReq := rfl
@[simp] theorem State.setRequester_requesters (s : State) (w : Who) (r : Requester) : (s.setRequester w r).requesters = putRequester s.requesters w r := rfl
@[simp] theorem State.setRequester_cmds (s : State) (w : Who) (r : Requester) : (s.setRequester w r).cmds = s.cmds := rfl
@[simp] theorem State.setRequester_turn (s : State) (w : Who) (r : Requester) : (s.setRequester w r).turn = s.turn := rfl
@[simp] theorem State.setRequester_inputs (s : State) (w : Who) (r : Requester) : (s.setRequester w r).inputs = s.inputs := rfl

@[simp] theorem State.recordPhase_params (s : State) (c : Byte) : (s.recordPhase c).params = s.params := rfl
@[simp] theorem State.recordPhase_queueCapacity (s : State) (c : Byte) : (s.recordPhase c).queueCapacity = s.queueCapacity := rfl
@[simp] theorem State.recordPhase_descs (s : State) (c : Byte) : (s.recordPhase c).descs = s.descs := rfl
@[simp] theorem State.recordPhase_queue (s : State) (c : Byte) : (s.recordPhase c).queue = s.queue := rfl
@[simp] theorem State.recordPhase_busy (s : State) (c : Byte) : (s.recordPhase c).busy = s.busy := rfl
@[simp] theorem State.recordPhase_cur (s : State) (c : Byte) : (s.recordPhase c).cur = s.cur := rfl
@[simp] theorem State.recordPhase_phase (s : State) (c : Byte) : (s.recordPhase c).phase = c := rfl
@[simp] theorem State.recordPhase_lastPhase (s : State) (c : Byte) : (s.recordPhase c).lastPhase = s.phase := rfl
@[simp] theorem State.recordPhase_wrCnt (s : State) (c : Byte) : (s.recordPhase c).wrCnt = s.wrCnt := rfl
@[simp] theorem State.recordPhase_rdCnt (s : State) (c : Byte) : (s.recordPhase c).rdCnt = s.rdCnt := rfl
@[simp] theorem State.recordPhase_arbLost (s : State) (c : Byte) : (s.recordPhase c).arbLost = s.arbLost := rfl
@[simp] theorem State.recordPhase_irqEn (s : State) (c : Byte) : (s.recordPhase c).irqEn = s.irqEn := rfl
@[simp] theorem State.recordPhase_deferSig (s : State) (c : Byte) : (s.recordPhase c).deferSig = s.deferSig := rfl
@[simp] theorem State.recordPhase_initialised (s : State) (c : Byte) : (s.recordPhase c).initialised = s.initialised := rfl
@[simp] theorem State.recordPhase_pending (s : State) (c : Byte) : (s.recordPhase c).pending = none := rfl
@[simp] theorem State.recordPhase_startOutstanding (s : State) (c : Byte) : (s.recordPhase c).startOutstanding = false := rfl
@[simp] theorem State.recordPhase_yieldReq (s : State) (c : Byte) : (s.recordPhase c).yieldReq = false := rfl
@[simp] theorem State.recordPhase_requesters (s : State) (c : Byte) : (s.recordPhase c).requesters = s.requesters := rfl
@[simp] theorem State.recordPhase_cmds (s : State) (c : Byte) : (s.recordPhase c).cmds = s.cmds := rfl
@[simp] theorem State.recordPhase_turn (s : State) (c : Byte) : (s.recordPhase c).turn = s.turn := rfl
@[simp] theorem State.recordPhase_inputs (s : State) (c : Byte) : (s.recordPhase c).inputs = s.inputs := rfl

@[simp] theorem State.resetCounters_params (s : State) : (s.resetCounters).params = s.params := rfl
@[simp] theorem State.resetCounters_queueCapacity (s : State) : (s.resetCounters).queueCapacity = s.queueCapacity := rfl
@[simp] theorem State.resetCounters_descs (s : State) : (s.resetCounters).descs = s.descs := rfl
@[simp] theorem State.resetCounters_queue (s : State) : (s.resetCounters).queue = s.queue := rfl
@[simp] theorem State.resetCounters_busy (s : State) : (s.resetCounters).busy = s.busy := rfl
@[simp] theorem State.resetCounters_cur (s : State) : (s.resetCounters).cur = s.cur := rfl
@[simp] theorem State.resetCounters_phase (s : State) : (s.resetCounters).phase = s.phase := rfl
@[simp] theorem State.resetCounters_lastPhase (s : State) : (s.resetCounters).lastPhase = s.lastPhase := rfl
@[simp] theorem State.resetCounters_wrCnt (s : State) : (s.resetCounters).wrCnt = 0 := rfl
@[simp] theorem State.resetCounters_rdCnt (s : State) : (s.resetCounters).rdCnt = 0 := rfl
@[simp] theorem State.resetCounters_arbLost (s : State) : (s.resetCounters).arbLost = false := rfl
@[simp] theorem State.resetCounters_irqEn (s : State) : (s.resetCounters).irqEn = s.irqEn := rfl
@[simp] theorem State.resetCounters_deferSig (s : State) : (s.resetCounters).deferSig = s.deferSig := rfl
@[simp] theorem State.resetCounters_initialised (s : State) : (s.resetCounters).initialised = s.initialised := rfl
@[simp] theorem State.resetCounters_pending (s : State) : (s.resetCounters).pending = s.pending := rfl
@[simp] theorem State.resetCounters_startOutstanding (s : State) : (s.resetCounters).startOutstanding = s.startOutstanding := rfl
@[simp] theorem State.resetCounters_yieldReq (s : State) : (s.resetCounters).yieldReq = s.yieldReq := rfl
@[simp] theorem State.resetCounters_requesters (s : State) : (s.resetCounters).requesters = s.requesters := rfl
@[simp] theorem State.resetCounters_cmds (s : State) : (s.resetCounters).cmds = s.cmds := rfl
@[simp] theorem State.resetCounters_turn (s : State) : (s.resetCounters).turn = s.turn := rfl
@[simp] theorem State.resetCounters_inputs (s : State) : (s.resetCounters).inputs = s.inputs := rfl

@[simp] theorem HwCmd.isStart_start : HwCmd.start.isStart = true := rfl
@[simp] theorem HwCmd.isStart_clearStart : HwCmd.clearStart.isStart = false := rfl
@[simp] theorem HwCmd.isStart_stop : HwCmd.stop.isStart = false := rfl
@[simp] theorem HwCmd.isStart_tx (b : Byte) : (HwCmd.tx b).isStart = false := rfl
@[simp] theorem HwCmd.isStart_ackOn : HwCmd.ackOn.isStart = false := rfl
@[simp] theorem HwCmd.isStart_ackOff : HwCmd.ackOff.isStart = false := rfl
@[simp] theorem HwCmd.isStart_configure : HwCmd.configure.isStart = false := rfl

/-! ### Field writes, descriptor by descriptor -/

@[simp] theorem State.desc?_eq (s : State) (h : Handle) : s.desc? h = s.descs[h]? := rfl

theorem State.nDesc_modDesc (s : State) (h : Handle) (f : Descriptor → Descriptor) : (s.modDesc h f).nDesc = s.nDesc := by
  simp [State.nDesc]

/-- The descriptor a change of descriptor `h` leaves at `k`. -/
theorem modify_getElem? (l : List Descriptor) (h k : Handle) (f : Descriptor → Descriptor) :
    (l.modify h f)[k]? = if k = h then l[k]?.map f else l[k]? := by
  rw [List.getElem?_modify]
  by_cases e : h = k
  · subst e
    simp
  · have : ¬ k = h := fun q => e q.symm
    simp [e, this]

/-- Two changes of one descriptor are one. -/
theorem modify_modify (l : List Descriptor) (h : Handle) (f g : Descriptor → Descriptor) :
    (l.modify h f).modify h g = l.modify h (fun d => g (f d)) := by
  apply List.ext_getElem?
  intro k
  simp only [modify_getElem?]
  split <;> simp [Function.comp_def]

end Sys2Proof.Machine
end

