-- ==== Sys2Proof/Laws/Ops.lean ====
section
/-! SUPPORT. For each shared operation, what it can do, said once: provers cite these instead of unfolding the operation. -/

namespace Sys2Proof.Machine

/-! ### Outcomes -/

@[simp] theorem thenDo_next (s : State) (f : State → State) : thenDo (.next s) f = .next (f s) := rfl
@[simp] theorem thenDo_fault (e : Fault) (f : State → State) : thenDo (.fault e) f = .fault e := rfl
@[simp] theorem thenDo_refused (e : Refusal) (f : State → State) : thenDo (.refused e) f = .refused e := rfl

theorem thenDo_eq_next {r : Result} {f : State → State} {t : State} (h : thenDo r f = .next t) :
    ∃ s, r = .next s ∧ t = f s := by
  cases r with
  | next s => exact ⟨s, rfl, by simpa using h.symm⟩
  | fault e => simp at h
  | refused e => simp at h

/-! ### Requesters -/

@[simp] theorem lookup_put_same (l : List (Who × Requester)) (who : Who) (r : Requester) :
    lookupRequester (putRequester l who r) who = r := by
  induction l with
  | nil => simp [putRequester, lookupRequester]
  | cons e rest ih =>
    obtain ⟨k, r'⟩ := e
    simp only [putRequester]
    split
    · simp [lookupRequester]
    · split
      · simp [lookupRequester]
      · rename_i _ hne
        have : ¬ k = who := fun q => hne q.symm
        simp [lookupRequester, this, ih]

theorem lookup_put_other (l : List (Who × Requester)) {who other : Who} (r : Requester) (h : other ≠ who) :
    lookupRequester (putRequester l who r) other = lookupRequester l other := by
  have hne : ¬ who = other := fun q => h q.symm
  induction l with
  | nil => simp [putRequester, lookupRequester, hne]
  | cons e rest ih =>
    obtain ⟨k, r'⟩ := e
    simp only [putRequester]
    split
    · simp [lookupRequester, hne]
    · split
      · rename_i _ heq
        subst heq
        simp [lookupRequester, hne]
      · simp only [lookupRequester]
        split
        · rfl
        · exact ih

@[simp] theorem put_put (l : List (Who × Requester)) (who : Who) (r r' : Requester) :
    putRequester (putRequester l who r) who r' = putRequester l who r' := by
  induction l with
  | nil => simp [putRequester]
  | cons e rest ih =>
    obtain ⟨k, r0⟩ := e
    simp only [putRequester]
    split
    · simp [putRequester]
    · split
      · simp [putRequester]
      · simp only [putRequester, *, if_false]

/-- A requester inside an operation stands in the list. -/
theorem lookup_mem {l : List (Who × Requester)} {who : Who} {o : Op} (h : (lookupRequester l who).op = some o) :
    (who, lookupRequester l who) ∈ l := by
  induction l with
  | nil => simp [lookupRequester, Requester.idle] at h
  | cons e rest ih =>
    obtain ⟨k, r⟩ := e
    simp only [lookupRequester] at h ⊢
    split at h
    · rename_i heq
      subst heq
      simp
    · rename_i hne
      simp only [hne, if_false, List.mem_cons]
      exact .inr (ih h)

/-- A requester inside an operation on `h` makes the descriptor in use. -/
theorem State.inUse_of_op {s : State} {who : Who} {o : Op} (h : (s.requester who).op = some o) :
    s.inUse o.handle = true := by
  simp only [State.inUse, List.any_eq_true]
  exact ⟨_, lookup_mem h, by simp only [Requester.uses]; simp only [State.requester] at h; simp [h]⟩

@[simp] theorem lookup_map_tick (l : List (Who × Requester)) (who : Who) :
    lookupRequester (l.map (fun e => (e.1, e.2.tick))) who = (lookupRequester l who).tick := by
  induction l with
  | nil => rfl
  | cons e rest ih =>
    obtain ⟨k, r⟩ := e
    simp only [List.map_cons, lookupRequester]
    split
    · rfl
    · exact ih

@[simp] theorem State.requester_eq (s : State) (who : Who) : s.requester who = lookupRequester s.requesters who := rfl

/-! ### The requester list's one form -/

/-- Listing a requester keeps the names rising and adds no other name. -/
theorem mem_put {l : List (Who × Requester)} {who : Who} {r : Requester} {e : Who × Requester}
    (h : e ∈ putRequester l who r) : e = (who, r) ∨ e ∈ l := by
  induction l with
  | nil => simpa [putRequester] using h
  | cons e' rest ih =>
    obtain ⟨k, r'⟩ := e'
    simp only [putRequester] at h
    split at h
    · simpa using h
    · split at h
      · simp only [List.mem_cons] at h ⊢
        tauto
      · simp only [List.mem_cons] at h ⊢
        rcases h with h | h
        · exact .inr (.inl h)
        · rcases ih h with h | h
          · exact .inl h
          · exact .inr (.inr h)

theorem put_sorted {l : List (Who × Requester)} (who : Who) (r : Requester)
    (h : l.Pairwise (fun a b => a.1 < b.1)) : (putRequester l who r).Pairwise (fun a b => a.1 < b.1) := by
  induction l with
  | nil => simp [putRequester]
  | cons e rest ih =>
    obtain ⟨k, r'⟩ := e
    obtain ⟨hk, hrest⟩ := List.pairwise_cons.mp h
    simp only [putRequester]
    split
    · rename_i hlt
      refine List.pairwise_cons.mpr ⟨?_, h⟩
      intro e he
      simp only [List.mem_cons] at he
      rcases he with rfl | he
      · exact hlt
      · exact Nat.lt_trans hlt (hk e he)
    · split
      · rename_i _ heq
        subst heq
        exact List.pairwise_cons.mpr ⟨hk, hrest⟩
      · rename_i hnlt hne
        refine List.pairwise_cons.mpr ⟨?_, ih hrest⟩
        intro e he
        rcases mem_put he with rfl | he
        · exact Nat.lt_of_le_of_ne (Nat.le_of_not_lt hnlt) (fun q => hne q.symm)
        · exact hk e he

/-! ### The Request Queue -/

theorem State.enqueue_full {s : State} {h : Handle} (e : s.queue.length = s.queueCapacity) : s.enqueue h = none := by
  simp [State.enqueue, e]

theorem State.enqueue_room {s : State} {h : Handle} (e : s.queue.length ≠ s.queueCapacity) :
    s.enqueue h = some { s with queue := s.queue ++ [h] } := by
  simp [State.enqueue, e]

theorem State.dequeue_empty {s : State} (e : s.queue = []) : s.dequeue = none := by
  simp [State.dequeue, e]

theorem State.dequeue_head {s : State} {h : Handle} {rest : List Handle} (e : s.queue = h :: rest) :
    s.dequeue = some (h, { s with queue := rest }) := by
  simp [State.dequeue, e]

/-! ### The frame of a sequencer step -/

/-- A sequencer step that completes ran its rule on the state with the phase recorded. -/
theorem State.seqStep_next {s t : State} {code : Byte} {rule : State → Result} (h : s.seqStep code rule = .next t) :
    s.initialised = true ∧ rule (s.recordPhase code) = .next t := by
  unfold State.seqStep at h
  split at h
  · cases h
  · rename_i hi
    exact ⟨by simpa using hi, h⟩

theorem State.seqStep_initialised {s : State} {code : Byte} {rule : State → Result} (h : s.initialised = true) :
    s.seqStep code rule = rule (s.recordPhase code) := by
  simp [State.seqStep, h]

/-- A rule that completes had an active descriptor. -/
theorem State.withActive_next {s t : State} {rule : Handle → Descriptor → Result} (e : s.withActive rule = .next t) :
    ∃ h d, s.cur = some h ∧ s.descs[h]? = some d ∧ rule h d = .next t := by
  unfold State.withActive at e
  split at e
  · cases e
  · rename_i h hc
    split at e
    · cases e
    · rename_i d hd
      exact ⟨h, d, hc, hd, e⟩

theorem State.withActive_active {s : State} {rule : Handle → Descriptor → Result} {h : Handle} {d : Descriptor}
    (hc : s.cur = some h) (hd : s.descs[h]? = some d) : s.withActive rule = rule h d := by
  simp [State.withActive, hc, hd]

/-! ### The terminal sequence (R115) -/

/-- With an empty queue the block goes idle. -/
theorem State.terminal_idle {s : State} (h : Handle) (st : Byte) (e : s.queue = []) :
    s.terminal h st =
      { s with cmds := s.cmds ++ [.stop], descs := s.descs.modify h (fun d => { d with status := st, done := true }),
               yieldReq := true, cur := none, busy := false } := by
  simp [State.terminal, State.dequeue, e, State.signal, State.modDesc, State.emit, modify_modify]

/-- With a queued handle it chains. -/
theorem State.terminal_chain {s : State} (h : Handle) (st : Byte) {next : Handle} {rest : List Handle}
    (e : s.queue = next :: rest) :
    s.terminal h st =
      { s with cmds := s.cmds ++ [.stop, .start],
               descs := s.descs.modify h (fun d => { d with status := st, done := true }),
               yieldReq := true, cur := some next, queue := rest, startOutstanding := true } := by
  simp [State.terminal, State.dequeue, e, State.signal, State.modDesc, State.emit, modify_modify]

/-! ### The store of a received byte (R114) -/

theorem State.storeRx_next {s t : State} {h : Handle} {b : Byte} (e : s.storeRx h b = .next t) :
    s.rdCnt < 2 ∧ t = { s.modDesc h (fun d => d.storePayload s.rdCnt b) with rdCnt := s.rdCnt + 1 } := by
  unfold State.storeRx at e
  split at e
  · cases e
  · rename_i hr
    exact ⟨by simpa using hr, by simpa using e.symm⟩

/-! ### The beginning of S5 (R92) -/

/-- It changes the requester's position alone. -/
theorem State.beginS5_eq (s : State) (who : Who) (o : Op) (status : Byte) :
    s.beginS5 who o status =
      s.setOp who { o with pos := if o.timedOut || status != stSuccess then .s5Delay (timerStart s.params.tRecover) else .s6 } := by
  unfold State.beginS5
  split <;> rfl

/-! ### Entering an operation (R80) -/

/-- What a call that completes met, and what it leaves. -/
theorem State.beginCall_next {s t : State} {h : Handle} {first : FieldWrite} {rest : List FieldWrite}
    (e : s.beginCall h first rest = .next t) :
    s.initialised = true ∧ (∃ d, s.descs[h]? = some d ∧ (d.used = true ∨ d.done = false)) ∧
      (s.requester s.turn).op = none ∧ s.inUse h = false ∧ s.lent h = false ∧
      t = (s.modDesc h (fun d => first.apply { d with used := true })).setOp s.turn
        { handle := h, pos := Pos.afterWrite rest, timedOut := false } := by
  unfold State.beginCall at e
  split at e
  · cases e
  · rename_i hc
    unfold State.callRefusal at hc
    split at hc
    · cases hc
    · rename_i hi
      split at hc
      · cases hc
      · rename_i d hd
        split at hc
        · cases hc
        · rename_i hop
          split at hc
          · cases hc
          · rename_i hu
            split at hc
            · cases hc
            · rename_i hl
              split at hc
              · cases hc
              · rename_i hch
                refine ⟨by simpa using hi, ⟨d, hd, ?_⟩, by simpa using hop, by simpa using hu, by simpa using hl,
                  by simpa using e.symm⟩
                cases hx : d.used
                · cases hy : d.done
                  · simp
                  · simp [hx, hy] at hch
                · simp

/-! ### Steps -/

/-- A step with a move to come takes it, in the state without it. -/
theorem step_move {s : State} {m : Move} {rest : List Move} (h : s.inputs = m :: rest) :
    step s = takeMove m { s with inputs := rest } := by
  simp [step, h]

/-- A step that completes took the next move, or there was none. -/
theorem step_next {s t : State} (h : step s = .next t) :
    (s.inputs = [] ∧ t = s) ∨ ∃ m rest, s.inputs = m :: rest ∧ takeMove m { s with inputs := rest } = .next t := by
  unfold step at h
  split at h
  · rename_i e
    exact .inl ⟨e, by simpa using h.symm⟩
  · rename_i m rest e
    exact .inr ⟨m, rest, e, h⟩

/-- Decoding an event word always succeeds. -/
@[simp] theorem runStimulus_evt16 (w : BitVec 16) (s : State) : runStimulus (.evt16 w) s = exec (decodeEvt16 w) s := rfl

@[simp] theorem runStimulus_init (c : Nat) (s : State) : runStimulus (.initCall c) s = exec (.init c) s := rfl

/-- A request that completes decoded to an instruction. -/
theorem runStimulus_req_next {h : Handle} {w : BitVec 40} {s t : State} (e : runStimulus (.req40 h w) s = .next t) :
    ∃ i, decodeReq40 h w = .ok i ∧ exec i s = .next t := by
  unfold runStimulus decode at e
  simp only at e
  split at e
  · cases e
  · rename_i i hd
    exact ⟨i, hd, e⟩

/-- Where a handler step runs an event, one is pending and the mode is DEFERRED. -/
theorem State.handlerEvent_some {s : State} {w : BitVec 16} (h : s.handlerEvent = some w) :
    s.params.dispatchMode = .deferred ∧ s.initialised = true ∧ s.deferSig = true ∧ s.pending = some w := by
  unfold State.handlerEvent at h
  split at h
  · cases h
  · rename_i hm
    split at h
    · rename_i hc
      simp only [Bool.and_eq_true] at hc
      exact ⟨hm, hc.1, hc.2, h⟩
    · cases h

/-- Where an interrupt runs an event, one is pending, the line is enabled and the mode is DIRECT. -/
theorem State.interruptEvent_some {s : State} {w : BitVec 16} (h : s.interruptEvent = some w) :
    s.params.dispatchMode = .direct ∧ s.initialised = true ∧ s.irqEn = true ∧ s.pending = some w := by
  unfold State.interruptEvent at h
  split at h
  · rename_i hm
    unfold State.delivered at h
    split at h
    · rename_i hc
      simp only [Bool.and_eq_true] at hc
      exact ⟨hm, hc.1, hc.2, h⟩
    · cases h
  · cases h

/-- What the stub step can do. -/
theorem State.stubStep_cases (s : State) :
    s.stubStep = s ∨
      (s.params.dispatchMode = .deferred ∧ s.initialised = true ∧ s.irqEn = true ∧ s.pending ≠ none ∧
        s.stubStep = { s with irqEn := false, deferSig := true, yieldReq := true }) := by
  unfold State.stubStep
  split
  · exact .inl rfl
  · rename_i hm
    split
    · exact .inl rfl
    · rename_i w hd
      unfold State.delivered at hd
      split at hd
      · rename_i hc
        simp only [Bool.and_eq_true] at hc
        exact .inr ⟨hm, hc.1, hc.2, by simp [hd], rfl⟩
      · cases hd

end Sys2Proof.Machine
end

