-- ==== Sys2Proof/Laws/Exec.lean ====
section
/-! SUPPORT. What an instruction and a requester's step can do, said once: if exec answers next, one of these cases holds. Invariants are
proved from here and not by unfolding the meanings again. -/

namespace Sys2Proof.Machine

/-- What a phase event that completes leaves. -/
inductive EventEffect (s : State) : State → Prop
  /-- the active transaction goes on: commands are issued, and the Protocol State may change -/
  | goesOn (code : Byte) (h : Handle) (d : Descriptor) (cs : List HwCmd) (wr rd : BitVec 2) (arb : Bool)
      (hc : s.cur = some h) (hd : s.descs[h]? = some d) (hcs : cs ≠ []) (hlen : cs.length ≤ 2)
      (hstop : HwCmd.stop ∉ cs ∧ HwCmd.configure ∉ cs)
      (hwr : wr = 0 ∨ wr = s.wrCnt ∨ wr = 1 ∨ wr = 2) (hrd : rd = 0 ∨ rd = s.rdCnt) :
      EventEffect s
        { s.recordPhase code with
          cmds := s.cmds ++ cs, wrCnt := wr, rdCnt := rd, arbLost := arb, startOutstanding := cs.any HwCmd.isStart }
  /-- a fresh activation takes the head of the queue (R102) -/
  | activates (h : Handle) (rest : List Handle) (d : Descriptor) (hc : s.cur = none) (hq : s.queue = h :: rest)
      (hd : s.descs[h]? = some d) :
      EventEffect s
        { s.recordPhase phStartSent with
          cmds := s.cmds ++ [.clearStart, .tx (addrByte d.address (originalDir d.opcode))], wrCnt := 0, rdCnt := 0,
          arbLost := false, cur := some h, queue := rest }
  /-- a received byte is stored and the transaction goes on (R110) -/
  | stores (h : Handle) (d : Descriptor) (b : Byte) (hc : s.cur = some h) (hd : s.descs[h]? = some d)
      (ho : d.opcode = .readWord) (hrd : s.rdCnt < 2) :
      EventEffect s
        { s.recordPhase phDataRxAck with
          descs := s.descs.modify h (fun d => d.storePayload s.rdCnt b), rdCnt := s.rdCnt + 1, cmds := s.cmds ++ [.ackOff] }
  /-- the transaction ends (R115) -/
  | ends (code : Byte) (h : Handle) (d : Descriptor) (st : Byte) (hc : s.cur = some h) (hd : s.descs[h]? = some d)
      (hst : st.toNat < 6) : EventEffect s ((s.recordPhase code).terminal h st)
  /-- the last byte is stored and the transaction ends (R111) -/
  | storesAndEnds (h : Handle) (d : Descriptor) (b : Byte) (hc : s.cur = some h) (hd : s.descs[h]? = some d)
      (hrd : s.rdCnt < 2) :
      EventEffect s
        (({ s.recordPhase phDataRxNak with
            descs := s.descs.modify h (fun d => d.storePayload s.rdCnt b), rdCnt := s.rdCnt + 1 } : State).terminal h stSuccess)

theorem errorStop_effect {s t : State} {code st : Byte} (hst : st.toNat < 6) (e : s.errorStop code st = .next t) :
    s.initialised = true ∧ EventEffect s t := by
  obtain ⟨hi, e⟩ := State.seqStep_next e
  obtain ⟨h, d, hc, hd, e⟩ := State.withActive_next e
  simp only [Host.Outcome.next.injEq] at e
  subst e
  exact ⟨hi, .ends code h d st hc hd hst⟩

/-- The instructions that are phase events. -/
def Instr.event : Instr → Bool
  | .quick _ _ _ | .sendByte _ _ _ | .receiveByte _ _ | .writeByte _ _ _ _ | .readByte _ _ _ | .writeWord _ _ _ _
  | .readWord _ _ _ | .init _ => false
  | .evtBusError _ | .evtStartSent _ | .evtRepStartSent _ | .evtAddrWAck _ | .evtAddrWNak _ | .evtDataWAck _
  | .evtDataWNak _ | .evtArbLost _ | .evtAddrRAck _ | .evtAddrRNak _ | .evtDataRxAck _ | .evtDataRxNak _
  | .evtOther _ _ => true

/-- Every 16-bit word decodes to an event. -/
theorem decodeEvt16_event (w : BitVec 16) : Instr.event (decodeEvt16 w) = true := by
  unfold decodeEvt16
  split <;> rfl

theorem startAddress_next {s t : State} (e : s.startAddress = .next t) :
    ∃ h d, s.cur = some h ∧ s.descs[h]? = some d ∧ t = s.emit (.tx (addrByte d.address (originalDir d.opcode))) := by
  obtain ⟨h, d, hc, hd, e⟩ := State.withActive_next e
  exact ⟨h, d, hc, hd, by simpa [State.txAddress] using e.symm⟩

theorem execEvtStartSent_effect {s t : State} {rx : Byte} (e : execEvtStartSent rx s = .next t) :
    s.initialised = true ∧ EventEffect s t := by
  obtain ⟨hi, e⟩ := State.seqStep_next e
  refine ⟨hi, ?_⟩
  split at e
  · obtain ⟨h, d, hc, hd, rfl⟩ := startAddress_next e
    have := EventEffect.goesOn (s := s) phStartSent h d [.clearStart, .tx (addrByte d.address (originalDir d.opcode))]
      s.wrCnt s.rdCnt s.arbLost hc hd (by simp) (by simp) (by simp) (by simp) (by simp)
    simpa [State.emit, State.recordPhase] using this
  · split at e
    · rename_i s2 e2
      obtain ⟨h, d, hc, hd, rfl⟩ := startAddress_next e
      unfold State.freshStart at e2
      split at e2
      · rename_i h' hc'
        simp only [Host.Outcome.next.injEq] at e2
        subst e2
        have := EventEffect.goesOn (s := s) phStartSent h d [.clearStart, .tx (addrByte d.address (originalDir d.opcode))]
          0 0 false hc hd (by simp) (by simp) (by simp) (by simp) (by simp)
        simpa [State.emit, State.recordPhase, State.resetCounters] using this
      · rename_i hc'
        split at e2
        · cases e2
        · rename_i h' s1 hdq
          simp only [Host.Outcome.next.injEq] at e2
          subst e2
          cases hq : s.queue with
          | nil => simp [State.dequeue, hq] at hdq
          | cons k rest =>
            simp only [State.dequeue, State.resetCounters_queue, State.emit_queue, State.recordPhase_queue, hq,
              Option.some.injEq, Prod.mk.injEq] at hdq
            obtain ⟨rfl, rfl⟩ := hdq
            simp only [Option.some.injEq] at hc
            subst hc
            have := EventEffect.activates (s := s) k rest d (by simpa using hc') hq hd
            simpa [State.emit, State.recordPhase, State.resetCounters] using this
    · cases e
    · cases e

theorem storePayload_recordPhase (s : State) (code : Byte) (h : Handle) (b : Byte) :
    ({ (s.recordPhase code).modDesc h (fun d => d.storePayload (s.recordPhase code).rdCnt b) with
        rdCnt := (s.recordPhase code).rdCnt + 1 } : State) =
      { s.recordPhase code with descs := s.descs.modify h (fun d => d.storePayload s.rdCnt b), rdCnt := s.rdCnt + 1 } := rfl

/-- The event lemma: a phase event that completes ran after `init` and has one of the five effects. -/
theorem exec_event_effect {i : Instr} {s t : State} (hev : Instr.event i = true) (e : exec i s = .next t) :
    s.initialised = true ∧ EventEffect s t := by
  cases i with
  | quick | sendByte | receiveByte | writeByte | readByte | writeWord | readWord | init => cases hev
  | evtBusError => exact errorStop_effect (by decide) e
  | evtAddrWNak => exact errorStop_effect (by decide) e
  | evtDataWNak => exact errorStop_effect (by decide) e
  | evtAddrRNak => exact errorStop_effect (by decide) e
  | evtOther => exact errorStop_effect (by decide) e
  | evtStartSent rx => exact execEvtStartSent_effect (rx := rx) e
  | evtRepStartSent rx =>
    replace e : execEvtRepStartSent rx s = .next t := e
    unfold execEvtRepStartSent at e
    obtain ⟨hi, e⟩ := State.seqStep_next e
    obtain ⟨h, d, hc, hd, e⟩ := State.withActive_next e
    simp only [Host.Outcome.next.injEq] at e
    subst e
    have tx : ∀ dir, EventEffect s (((s.recordPhase phRepStartSent).emit .clearStart).txAddress d dir) := by
      intro dir
      have := EventEffect.goesOn (s := s) phRepStartSent h d [.clearStart, .tx (addrByte d.address dir)]
        s.wrCnt s.rdCnt s.arbLost hc hd (by simp) (by simp) (by simp) (by simp) (by simp)
      simpa [State.txAddress, State.emit, State.recordPhase] using this
    exact ⟨hi, tx _⟩
  | evtAddrWAck rx =>
    replace e : execEvtAddrWAck rx s = .next t := e
    unfold execEvtAddrWAck at e
    obtain ⟨hi, e⟩ := State.seqStep_next e
    obtain ⟨h, d, hc, hd, e⟩ := State.withActive_next e
    refine ⟨hi, ?_⟩
    have tx : ∀ b wr, wr = s.wrCnt ∨ wr = 1 →
        EventEffect s { (s.recordPhase phAddrWAck).emit (.tx b) with wrCnt := wr } := by
      intro b wr hwr
      have := EventEffect.goesOn (s := s) phAddrWAck h d [.tx b] wr s.rdCnt s.arbLost hc hd (by simp) (by simp) (by simp)
        (by tauto) (by simp)
      simpa [State.emit, State.recordPhase] using this
    cases ho : d.opcode <;> simp only [ho, Host.Outcome.next.injEq] at e <;> subst e
    · exact .ends _ h d _ hc hd (by decide)
    · exact tx _ 1 (by simp)
    · exact .ends _ h d _ hc hd (by decide)
    all_goals exact tx _ s.wrCnt (by simp)
  | evtDataWAck rx =>
    replace e : execEvtDataWAck rx s = .next t := e
    unfold execEvtDataWAck at e
    obtain ⟨hi, e⟩ := State.seqStep_next e
    obtain ⟨h, d, hc, hd, e⟩ := State.withActive_next e
    refine ⟨hi, ?_⟩
    have tx : ∀ b wr, wr = 1 ∨ wr = 2 →
        EventEffect s { (s.recordPhase phDataWAck).emit (.tx b) with wrCnt := wr } := by
      intro b wr hwr
      have := EventEffect.goesOn (s := s) phDataWAck h d [.tx b] wr s.rdCnt s.arbLost hc hd (by simp) (by simp) (by simp)
        (by tauto) (by simp)
      simpa [State.emit, State.recordPhase] using this
    have start : EventEffect s ((s.recordPhase phDataWAck).emit .start) := by
      have := EventEffect.goesOn (s := s) phDataWAck h d [.start] s.wrCnt s.rdCnt s.arbLost hc hd (by simp) (by simp)
        (by simp) (by simp) (by simp)
      simpa [State.emit, State.recordPhase] using this
    have fin : ∀ st : Byte, st.toNat < 6 → EventEffect s ((s.recordPhase phDataWAck).terminal h st) :=
      fun st hst => .ends _ h d st hc hd hst
    cases ho : d.opcode <;> simp only [ho] at e
    case writeByte => split at e <;> simp only [Host.Outcome.next.injEq] at e <;> subst e <;>
      first | exact tx _ 1 (by simp) | exact fin _ (by decide)
    case writeWord =>
      split at e
      · simp only [Host.Outcome.next.injEq] at e
        subst e
        exact tx _ 1 (by simp)
      · split at e <;> simp only [Host.Outcome.next.injEq] at e <;> subst e
        · exact tx _ 2 (by simp)
        · exact fin _ (by decide)
    all_goals
      simp only [Host.Outcome.next.injEq] at e
      subst e
      first | exact start | exact fin _ (by decide)
  | evtArbLost rx =>
    replace e : execEvtArbLost rx s = .next t := e
    unfold execEvtArbLost at e
    obtain ⟨hi, e⟩ := State.seqStep_next e
    obtain ⟨h, d, hc, hd, e⟩ := State.withActive_next e
    simp only [Host.Outcome.next.injEq] at e
    subst e
    have := EventEffect.goesOn (s := s) phArbLost h d [.start] s.wrCnt s.rdCnt true hc hd (by simp) (by simp) (by simp)
      (by simp) (by simp)
    exact ⟨hi, by simpa [State.emit, State.recordPhase] using this⟩
  | evtAddrRAck rx =>
    replace e : execEvtAddrRAck rx s = .next t := e
    unfold execEvtAddrRAck at e
    obtain ⟨hi, e⟩ := State.seqStep_next e
    obtain ⟨h, d, hc, hd, e⟩ := State.withActive_next e
    refine ⟨hi, ?_⟩
    have ack : ∀ c, c = .ackOff ∨ c = .ackOn → EventEffect s ((s.recordPhase phAddrRAck).emit c) := by
      intro c hc'
      have := EventEffect.goesOn (s := s) phAddrRAck h d [c] s.wrCnt s.rdCnt s.arbLost hc hd (by simp) (by simp)
        (by rcases hc' with rfl | rfl <;> simp) (by simp) (by simp)
      rcases hc' with rfl | rfl <;> simpa [State.emit, State.recordPhase] using this
    split at e <;> simp only [Host.Outcome.next.injEq] at e <;> subst e
    · exact ack _ (by simp)
    · exact ack _ (by simp)
  | evtDataRxAck rx =>
    replace e : execEvtDataRxAck rx s = .next t := e
    unfold execEvtDataRxAck at e
    obtain ⟨hi, e⟩ := State.seqStep_next e
    obtain ⟨h, d, hc, hd, e⟩ := State.withActive_next e
    refine ⟨hi, ?_⟩
    split at e
    · rename_i ho
      obtain ⟨s2, e2, rfl⟩ := thenDo_eq_next e
      obtain ⟨hr, rfl⟩ := State.storeRx_next e2
      have := EventEffect.stores (s := s) h d rx hc hd ho hr
      simpa [State.emit, State.recordPhase, State.modDesc] using this
    · simp only [Host.Outcome.next.injEq] at e
      subst e
      exact .ends _ h d _ hc hd (by decide)
  | evtDataRxNak rx =>
    replace e : execEvtDataRxNak rx s = .next t := e
    unfold execEvtDataRxNak at e
    obtain ⟨hi, e⟩ := State.seqStep_next e
    obtain ⟨h, d, hc, hd, e⟩ := State.withActive_next e
    obtain ⟨s2, e2, rfl⟩ := thenDo_eq_next e
    obtain ⟨hr, rfl⟩ := State.storeRx_next e2
    rw [storePayload_recordPhase]
    exact ⟨hi, .storesAndEnds h d rx hc hd hr⟩

/-- An operation that completes its first step met its preconditions and wrote its opcode. -/
theorem exec_request_effect {h : Handle} {w : BitVec 40} {i : Instr} {s t : State} (hd : decodeReq40 h w = .ok i)
    (e : exec i s = .next t) :
    ∃ o rest, s.initialised = true ∧ (∃ d, s.descs[h]? = some d ∧ (d.used = true ∨ d.done = false)) ∧
      (s.requester s.turn).op = none ∧ s.inUse h = false ∧ s.lent h = false ∧
      t = (s.modDesc h (fun d => { d with used := true, opcode := o })).setOp s.turn
        { handle := h, pos := Pos.afterWrite rest, timedOut := false } := by
  unfold decodeReq40 at hd
  split at hd
  · cases hd
  · split at hd
    · cases hd
    · split at hd
      · cases hd
      · rename_i o _
        simp only [Except.ok.injEq] at hd
        subst hd
        cases o
        all_goals
          obtain ⟨h1, h2, h3, h4, h5, h6⟩ := State.beginCall_next e
          exact ⟨_, _, h1, h2, h3, h4, h5, h6⟩

/-- `init` that completes ran first, with a capacity of at least 1. -/
theorem execInit_next {c : Nat} {s t : State} (e : execInit c s = .next t) :
    s.initialised = false ∧ 1 ≤ c ∧ t =
      { s with cmds := s.cmds ++ [.configure], queueCapacity := c, queue := [], busy := false, cur := none,
               phase := phIdle, lastPhase := phIdle, wrCnt := 0, rdCnt := 0, arbLost := false, irqEn := true,
               deferSig := false, initialised := true, pending := none, startOutstanding := false } := by
  unfold execInit at e
  split at e
  · cases e
  · rename_i hi
    split at e
    · cases e
    · simp only [Host.Outcome.next.injEq] at e
      subst e
      exact ⟨by simpa using hi, by omega, by simp [State.emit]⟩

/-- What a requester's step that completes did: nothing, or the step of its position. -/
theorem runRequester_next {s t : State} {who : Who} (e : s.runRequester who = .next t) :
    t = s ∨ ∃ o d, s.initialised = true ∧ (s.requester who).op = some o ∧ s.descs[o.handle]? = some d ∧
      (match o.pos with
       | .fill next rest => t = s.stepFill who o next rest
       | .s1 => t = s.stepS1 who o
       | .s2 => t = s.stepS2 who o
       | .s3 => t = s.stepS3 who o
       | .s4 left => t = s.stepS4 who o d left
       | .s5 => t = s.stepS5 who o d
       | .s5Delay left => t = s.stepS5Delay who o left
       | .s6 => t = s.stepS6 who d) := by
  unfold State.runRequester at e
  split at e
  · exact .inl (by simpa using e.symm)
  · rename_i hi
    split at e
    · exact .inl (by simpa using e.symm)
    · rename_i o ho
      split at e
      · cases e
      · rename_i d hd
        refine .inr ⟨o, d, by simpa using hi, ho, hd, ?_⟩
        cases hp : o.pos <;> simp only [hp, Host.Outcome.next.injEq] at e ⊢ <;> exact e.symm

/-- What a step that completes did, move by move. -/
theorem takeMove_next {m : Move} {s t : State} (e : takeMove m s = .next t) :
    match m with
    | .call who h _ => ∃ o rest, s.initialised = true ∧
        (∃ d, s.descs[h]? = some d ∧ (d.used = true ∨ d.done = false)) ∧
        (s.requester who).op = none ∧ s.inUse h = false ∧ s.lent h = false ∧
        t = ({ s with turn := who }.modDesc h (fun d => { d with used := true, opcode := o })).setOp who
          { handle := h, pos := Pos.afterWrite rest, timedOut := false }
    | .init c => execInit c s = .next t
    | .run who => s.runRequester who = .next t
    | .raise w => (s.initialised = false ∧ t = s) ∨
        (s.initialised = true ∧ s.pending = none ∧ t = { s with pending := some w })
    | .interrupt =>
        (∃ w, s.params.dispatchMode = .direct ∧ s.irqEn = true ∧ s.pending = some w ∧ exec (decodeEvt16 w) s = .next t) ∨
        t = s.stubStep
    | .handler =>
        (∃ w t', s.params.dispatchMode = .deferred ∧ s.deferSig = true ∧ s.pending = some w ∧
          exec (decodeEvt16 w) { s with deferSig := false } = .next t' ∧ t = { t' with irqEn := true }) ∨ t = s
    | .tick => t = s.tick
    | .writeId who h id => s.ownerRefusal who h = none ∧ s.lent h = false ∧
        t = s.modDesc h (fun d => { d with requesterId := id })
    | .drain who h => s.ownerRefusal who h = none ∧ t = s.modDesc h (fun d => { d with done := false }) := by
  cases m with
  | call who h w =>
    obtain ⟨i, hd, e⟩ := runStimulus_req_next e
    exact exec_request_effect hd e
  | init c => exact e
  | run who => exact e
  | raise w =>
    simp only [takeMove, State.raiseEvent] at e
    split at e
    · rename_i hi
      exact .inl ⟨by simpa using hi, by simpa using e.symm⟩
    · rename_i hi
      split at e
      · cases e
      · rename_i hp
        exact .inr ⟨by simpa using hi, by simpa using hp, by simpa using e.symm⟩
  | interrupt =>
    simp only [takeMove] at e
    split at e
    · rename_i w hw
      obtain ⟨h1, _, h3, h4⟩ := State.interruptEvent_some hw
      exact .inl ⟨w, h1, h3, h4, e⟩
    · exact .inr (by simpa using e.symm)
  | handler =>
    simp only [takeMove] at e
    split at e
    · rename_i w hw
      obtain ⟨h1, _, h3, h4⟩ := State.handlerEvent_some hw
      obtain ⟨t', e', rfl⟩ := thenDo_eq_next e
      exact .inl ⟨w, t', h1, h3, h4, e', rfl⟩
    · exact .inr (by simpa using e.symm)
  | tick => simpa [takeMove] using e.symm
  | writeId who h id =>
    simp only [takeMove, State.writeRequesterId] at e
    split at e
    · cases e
    · rename_i ho
      split at e
      · cases e
      · rename_i hl
        exact ⟨ho, by simpa using hl, by simpa using e.symm⟩
  | drain who h =>
    simp only [takeMove, State.drainChannel] at e
    split at e
    · cases e
    · rename_i ho
      exact ⟨ho, by simpa [State.consume] using e.symm⟩

end Sys2Proof.Machine
end

