-- ==== Sys2Proof/Laws/PerInstr.lean ====
section
/-! SUPPORT. The per-instruction family EncodedRow: every instruction's encoding lies in its own row of spec/opcode_table.json. -/

namespace Sys2Proof.Laws.EncodedRow

/-- The row an encoding must lie in: the form of the word, and the table's match under its mask (for the class OTHER: a code that is
none of the twelve). -/
inductive Row where
  | request (mtch : BitVec 40)
  | event (code : Byte)
  | otherEvent
  | call
  deriving DecidableEq, Repr

/-- The row of each constructor, as the table has it. -/
def rowOf : Instr → Row
  | .quick _ _ _ => .request 0x0000000000
  | .sendByte _ _ _ => .request 0x0100000000
  | .receiveByte _ _ => .request 0x0200000000
  | .writeByte _ _ _ _ => .request 0x0300000000
  | .readByte _ _ _ => .request 0x0400000000
  | .writeWord _ _ _ _ => .request 0x0500000000
  | .readWord _ _ _ => .request 0x0600000000
  | .init _ => .call
  | .evtBusError _ => .event 0x00
  | .evtStartSent _ => .event 0x08
  | .evtRepStartSent _ => .event 0x10
  | .evtAddrWAck _ => .event 0x18
  | .evtAddrWNak _ => .event 0x20
  | .evtDataWAck _ => .event 0x28
  | .evtDataWNak _ => .event 0x30
  | .evtArbLost _ => .event 0x38
  | .evtAddrRAck _ => .event 0x40
  | .evtAddrRNak _ => .event 0x48
  | .evtDataRxAck _ => .event 0x50
  | .evtDataRxNak _ => .event 0x58
  | .evtOther _ _ => .otherEvent

/-- Whether a stimulus lies in a row: the word under the mask 0xFF80000000 or 0xFF00 equals the match. -/
def Row.holds : Row → Stimulus → Prop
  | .request m, .req40 _ w => w &&& 0xFF80000000#40 = m
  | .event c, .evt16 w => w &&& 0xFF00#16 = c.setWidth 16 <<< 8
  | .otherEvent, .evt16 w => classify (w.extractLsb' 8 8) = .other
  | .call, .initCall _ => True
  | _, _ => False

/-- The family's statement: a well-formed instruction's encoding lies in its row. -/
def Statement (i : Instr) : Prop := i.wf = true → (rowOf i).holds (encode i)

/-- The bits of the two masks. -/
theorem req40_mask_bit : ∀ i, i < 40 → (0xFF80000000#40).getLsbD i = decide (31 ≤ i) := by decide

theorem evt16_mask_bit : ∀ i, i < 16 → (0xFF00#16).getLsbD i = decide (8 ≤ i) := by decide

/-- The reserved bits and the opcode of a REQ40 word, whatever its operands. -/
theorem req40_masked (o : Opcode) (a : Addr7) (c : Byte) (w : Word16) :
    req40 o a c w &&& 0xFF80000000#40 = (o.bits.setWidth 40) <<< 32 := by
  apply BitVec.eq_of_getLsbD_eq
  intro i hi
  rw [BitVec.getLsbD_and, req40_mask_bit i hi]
  simp only [req40, BitVec.getLsbD_append, BitVec.getLsbD_shiftLeft]
  interval_cases i <;> simp

theorem evt16_masked (code rx : Byte) : evt16 code rx &&& 0xFF00#16 = code.setWidth 16 <<< 8 := by
  apply BitVec.eq_of_getLsbD_eq
  intro i hi
  rw [BitVec.getLsbD_and, evt16_mask_bit i hi]
  simp only [evt16, BitVec.getLsbD_append, BitVec.getLsbD_shiftLeft]
  interval_cases i <;> simp

theorem quick (h : Handle) (a : Addr7) (d : Byte) : Statement (.quick h a d) := fun _ => req40_masked _ _ _ _
theorem sendByte (h : Handle) (a : Addr7) (d : Byte) : Statement (.sendByte h a d) := fun _ => req40_masked _ _ _ _
theorem receiveByte (h : Handle) (a : Addr7) : Statement (.receiveByte h a) := fun _ => req40_masked _ _ _ _
theorem writeByte (h : Handle) (a : Addr7) (c d : Byte) : Statement (.writeByte h a c d) := fun _ => req40_masked _ _ _ _
theorem readByte (h : Handle) (a : Addr7) (c : Byte) : Statement (.readByte h a c) := fun _ => req40_masked _ _ _ _
theorem writeWord (h : Handle) (a : Addr7) (c : Byte) (w : Word16) : Statement (.writeWord h a c w) :=
  fun _ => req40_masked _ _ _ _
theorem readWord (h : Handle) (a : Addr7) (c : Byte) : Statement (.readWord h a c) := fun _ => req40_masked _ _ _ _
theorem init (n : Nat) : Statement (.init n) := fun _ => trivial
theorem evtBusError (rx : Byte) : Statement (.evtBusError rx) := fun _ => evt16_masked _ _
theorem evtStartSent (rx : Byte) : Statement (.evtStartSent rx) := fun _ => evt16_masked _ _
theorem evtRepStartSent (rx : Byte) : Statement (.evtRepStartSent rx) := fun _ => evt16_masked _ _
theorem evtAddrWAck (rx : Byte) : Statement (.evtAddrWAck rx) := fun _ => evt16_masked _ _
theorem evtAddrWNak (rx : Byte) : Statement (.evtAddrWNak rx) := fun _ => evt16_masked _ _
theorem evtDataWAck (rx : Byte) : Statement (.evtDataWAck rx) := fun _ => evt16_masked _ _
theorem evtDataWNak (rx : Byte) : Statement (.evtDataWNak rx) := fun _ => evt16_masked _ _
theorem evtArbLost (rx : Byte) : Statement (.evtArbLost rx) := fun _ => evt16_masked _ _
theorem evtAddrRAck (rx : Byte) : Statement (.evtAddrRAck rx) := fun _ => evt16_masked _ _
theorem evtAddrRNak (rx : Byte) : Statement (.evtAddrRNak rx) := fun _ => evt16_masked _ _
theorem evtDataRxAck (rx : Byte) : Statement (.evtDataRxAck rx) := fun _ => evt16_masked _ _
theorem evtDataRxNak (rx : Byte) : Statement (.evtDataRxNak rx) := fun _ => evt16_masked _ _
theorem evtOther (code rx : Byte) : Statement (.evtOther code rx) := by
  intro h
  have e : (evt16 code rx).extractLsb' 8 8 = code := by
    ext i hi
    rw [BitVec.getElem_extractLsb', evt16, BitVec.getLsbD_append]
    simp [BitVec.getLsbD_eq_getElem hi]
  simpa [Instr.wf, Row.holds, rowOf, encode, e] using h

end Sys2Proof.Laws.EncodedRow
end

