-- ==== Sys2Proof/Safety.lean ====
section
/-! DEFINITION. What counts as a safe state and a safe run: the invariants the spec states or implies, and what it expects of a correct
HBI (41_sequencer.md section 5), in the terms the statements use. -/

namespace Sys2Proof.Machine

/-- `0 ≤ QueueLen() ≤ QUEUE_CAPACITY` (R21). -/
def State.queueBounded (s : State) : Prop := s.queue.length ≤ s.queueCapacity

/-- R2's constraints on the five OPEN values: `N_DESC` is at least 1, the durations are positive, and the capacity that `init` has set is
at least 1 (before `init` it is unspecified, R180). -/
def State.configWf (s : State) : Prop :=
  1 ≤ s.nDesc ∧ s.params.wf = true ∧ (s.initialised = true → 1 ≤ s.queueCapacity)

/-- The counters take the values 0, 1, 2 only (R119). -/
def State.countersInRange (s : State) : Prop := s.wrCnt ≤ 2 ∧ s.rdCnt ≤ 2

/-- R26, with the environment's part of it made explicit: an active descriptor, an outstanding start and a pending event each imply
`busy == 1`. -/
def State.activeImpliesBusy (s : State) : Prop :=
  (s.cur ≠ none → s.busy = true) ∧ (s.startOutstanding = true → s.busy = true) ∧ (s.pending ≠ none → s.busy = true)

/-- The HBI raises a phase event only after it has received a start command that is still being served (R184): the next input, if it is
a raised event, arrives while the block is busy. -/
def State.raisesOnlyWhileBusy (s : State) : Prop :=
  ∀ w rest, s.inputs = .raise w :: rest → s.busy = true

/-- Requester `who` has enqueued `h` and is at the kick (R89, R90). -/
def State.atKick (s : State) (who : Who) (h : Handle) : Prop :=
  ∃ o, (s.requester who).op = some o ∧ o.handle = h ∧ o.pos = .s3

/-- No handle is stranded: while the block is idle, every queued handle has its requester still at the kick (R116, R199). -/
def State.noHandleStranded (s : State) : Prop :=
  s.busy = false → ∀ h ∈ s.queue, ∃ who, s.atKick who h

/-- The positions of submit-and-wait before the enqueue. -/
def Pos.beforeEnqueue : Pos → Bool
  | .fill _ _ => true
  | .s1 => true
  | .s2 => true
  | .s3 => false
  | .s4 _ => false
  | .s5 => false
  | .s5Delay _ => false
  | .s6 => false

/-- The baton pass (R18, R173 (e) and (g)): a handle is lent once, two requesters are never inside operations on one descriptor, and a
descriptor its requester has not enqueued yet is not lent. -/
def State.lentOnce (s : State) : Prop :=
  (s.cur.toList ++ s.queue).Nodup ∧
  (∀ who o, (s.requester who).op = some o → o.pos.beforeEnqueue = true → s.lent o.handle = false) ∧
  (∀ who who' o o', (s.requester who).op = some o → (s.requester who').op = some o' →
    o.handle = o'.handle → who = who')

/-- Every handle the block holds names a descriptor (R36: the legal values of `cur` and `queue`; R173 (d)). -/
def State.handlesInRange (s : State) : Prop :=
  (∀ h ∈ s.queue, h < s.nDesc) ∧ (∀ h, s.cur = some h → h < s.nDesc) ∧
  (∀ who o, (s.requester who).op = some o → o.handle < s.nDesc)

/-- The dispatch flags after `init`: in DIRECT mode `irq_en` stays 1 and `defer_sig` 0 (R145); in DEFERRED mode the line is disabled
exactly while a hand-off is unserved, and then the event is still pending (R147, R148). -/
def State.dispatchConsistent (s : State) : Prop :=
  s.initialised = true →
    match s.params.dispatchMode with
    | .direct => s.irqEn = true ∧ s.deferSig = false
    | .deferred => s.deferSig = !s.irqEn ∧ (s.deferSig = true → s.pending ≠ none)

/-- The list of requesters is in its one form: names strictly rising, idle requesters left out. -/
abbrev requestersWf (l : List (Who × Requester)) : Prop :=
  l.Pairwise (fun a b => a.1 < b.1) ∧ ∀ e ∈ l, e.2 ≠ Requester.idle

/-! ### A correct HBI (41_sequencer.md section 5) -/

/-- The codes with which a correct HBI may answer the last command: the table of 41_sequencer.md section 5, read off the CMD port's
record, the last event's code and the active descriptor. While the block is idle the HBI raises nothing (R184). No rule of the
block depends on it (R117). -/
def State.hbiAnswers (s : State) : List Byte :=
  if !s.busy then []
  else
    match s.cmds.getLast? with
    | some .start =>
      if s.cur = none ∨ s.cmds.dropLast.getLast? = some .stop then [phStartSent, phBusError]
      else if s.phase = phArbLost then [phStartSent, phRepStartSent, phBusError]
      else [phRepStartSent, phBusError]
    | some (.tx b) =>
      if s.phase = phStartSent ∨ s.phase = phRepStartSent then
        if b.getLsbD 0 then [phAddrRAck, phAddrRNak, phArbLost, phBusError]
        else [phAddrWAck, phAddrWNak, phArbLost, phBusError]
      else [phDataWAck, phDataWNak, phArbLost, phBusError]
    | some .ackOff => [phDataRxNak, phArbLost, phBusError]
    | some .ackOn => [phDataRxAck, phBusError]
    | some .stop => []
    | some .clearStart => []
    | some .configure => []
    | none => []

/-- The next input, if it is a raised event, is one a correct HBI may raise now. -/
def State.raisesInOrder (s : State) : Prop :=
  ∀ w rest, s.inputs = .raise w :: rest → Evt16.code w ∈ s.hbiAnswers

/-- What the last command of the active transaction says of its opcode when the HBI has answered in order so far. -/
def State.commandFits (s : State) (o : Opcode) : Prop :=
  match s.cmds.getLast? with
  | some (.tx b) =>
    if s.phase = phStartSent ∨ s.phase = phRepStartSent then
      (b.getLsbD 0 = true → o = .receiveByte ∨ o = .readByte ∨ o = .readWord) ∧ (b.getLsbD 0 = false → o ≠ .receiveByte)
    else o ≠ .quick ∧ o ≠ .receiveByte
  | some .start =>
    s.cmds.dropLast.getLast? = some .stop ∨ s.phase = phArbLost ∨ o = .readByte ∨ o = .readWord
  | some .ackOn => o = .readWord
  | some .ackOff | some .stop | some .clearStart | some .configure | none => True

/-- The bus has gone in order: the pending event is one a correct HBI may raise, and the last command fits the active opcode. -/
def State.busInOrder (s : State) : Prop :=
  s.activeImpliesBusy ∧ s.lentOnce ∧
  (∀ w, s.pending = some w → Evt16.code w ∈ s.hbiAnswers) ∧
  (∀ h d, s.cur = some h → s.desc? h = some d → s.commandFits d.opcode)

end Sys2Proof.Machine
end

