-- ==== Sys2Proof/Certificates/Slice0/Obligations.lean ====
section
/-! DEFINITION. The statements for the provers. Each says the whole next state (so its frame too) as the rules of spec/ give it, in
records written out here and not through the model's own operations, or a rule about every step. -/

namespace Sys2Proof.Spec

open Sys2Proof.Machine

/-! ### What the rules say a step leaves -/

/-- R100, R152: `last_phase <- phase ; phase <- code`; the event is consumed. (`startOutstanding` is the model's reading of "outstanding",
log 4; `yieldReq` speaks of this step, R151.) -/
def afterPhase (s : State) (code : Byte) : State :=
  { s with lastPhase := s.phase, phase := code, pending := none, startOutstanding := false, yieldReq := false }

/-- R115: `HW.Stop`; `desc[h].status <- st`; `done[h] <- 1`; then the head of the queue becomes active with `HW.Start`, or
`cur <- NONE` and `busy <- 0`. -/
def afterTerminal (s : State) (h : Handle) (st : Byte) : State :=
  match s.queue with
  | [] =>
    { s with cmds := s.cmds ++ [.stop], descs := s.descs.modify h (fun d => { d with status := st, done := true }),
             yieldReq := true, cur := none, busy := false }
  | next :: rest =>
    { s with cmds := s.cmds ++ [.stop, .start], descs := s.descs.modify h (fun d => { d with status := st, done := true }),
             yieldReq := true, cur := some next, queue := rest, startOutstanding := true }

/-- The step issues the commands `cs` and changes nothing else. -/
def issues (s : State) (cs : List HwCmd) : State := { s with cmds := s.cmds ++ cs }

/-- The step issues `HW.Start` last, and changes nothing else. -/
def issuesStart (s : State) : State := { s with cmds := s.cmds ++ [.start], startOutstanding := true }

/-- R114 with `rd_cnt < 2`: the byte goes to `payload[rd_cnt]` and the counter moves on. -/
def afterStore (s : State) (h : Handle) (rx : Byte) : State :=
  if s.rdCnt = 0 then { s with descs := s.descs.modify h (fun d => { d with payload0 := rx }), rdCnt := 1 }
  else { s with descs := s.descs.modify h (fun d => { d with payload1 := rx }), rdCnt := s.rdCnt + 1 }

/-- The sequencer has an active descriptor: `init` has run, `cur` is `h` and names the descriptor `d`. -/
def Active (s : State) (h : Handle) (d : Descriptor) : Prop :=
  s.initialised = true ∧ s.cur = some h ∧ s.descs[h]? = some d

/-- The preconditions of an operation of `who` on `h` (R80, R173, U13), on the state alone. -/
def MayCall (s : State) (who : Who) (h : Handle) (d : Descriptor) : Prop :=
  s.initialised = true ∧ s.descs[h]? = some d ∧ (s.requester who).op = none ∧
  (∀ e ∈ s.requesters, ∀ o, e.2.op = some o → o.handle ≠ h) ∧
  h ∉ s.queue ∧ s.cur ≠ some h ∧ (d.used = true ∨ d.done = false)

/-- Requester `who` is inside an operation on `h` at `pos`, and `h` names the descriptor `d`. -/
def InsideAt (s : State) (who : Who) (o : Op) (d : Descriptor) : Prop :=
  s.initialised = true ∧ (s.requester who).op = some o ∧ s.descs[o.handle]? = some d

/-- Requester `who` goes on at `o`; no other requester, and nothing else, changes. -/
def goesOn (s : State) (who : Who) (o : Op) : State :=
  { s with requesters := putRequester s.requesters who { op := some o, ret := (s.requester who).ret } }

/-- Requester `who` returns `status`; no other requester, and nothing else, changes. -/
def returns (s : State) (who : Who) (status : Byte) : State :=
  { s with requesters := putRequester s.requesters who { op := none, ret := some status } }

/-- What a one-shot timer of this duration has left when it starts; without time it has expired at once (D17, log 6). -/
def unitsOf : Duration → Nat
  | .untimed => 0
  | .units n => n

/-- The handle and the field writes of the seven operations, in order (R81 to R87); none for the other instructions. -/
def fillOf : Instr → Option (Handle × List FieldWrite)
  | .quick h a b => some (h, [.opcode .quick, .address a, .payload0 b])
  | .sendByte h a b => some (h, [.opcode .sendByte, .address a, .payload0 b])
  | .receiveByte h a => some (h, [.opcode .receiveByte, .address a])
  | .writeByte h a c b => some (h, [.opcode .writeByte, .address a, .command c, .payload0 b])
  | .readByte h a c => some (h, [.opcode .readByte, .address a, .command c])
  | .writeWord h a c w =>
    some (h, [.opcode .writeWord, .address a, .command c, .payload0 (w.extractLsb' 0 8), .payload1 (w.extractLsb' 8 8)])
  | .readWord h a c => some (h, [.opcode .readWord, .address a, .command c])
  | _ => none

/-- A descriptor after the fill step of an operation: the fields the operation's rule names are written, every other keeps its
value (R80 to R87). -/
def filled : Instr → Descriptor → Descriptor
  | .quick _ a b, d => { d with used := true, opcode := .quick, address := a, payload0 := b }
  | .sendByte _ a b, d => { d with used := true, opcode := .sendByte, address := a, payload0 := b }
  | .receiveByte _ a, d => { d with used := true, opcode := .receiveByte, address := a }
  | .writeByte _ a c b, d => { d with used := true, opcode := .writeByte, address := a, command := c, payload0 := b }
  | .readByte _ a c, d => { d with used := true, opcode := .readByte, address := a, command := c }
  | .writeWord _ a c w, d =>
    { d with used := true, opcode := .writeWord, address := a, command := c,
             payload0 := w.extractLsb' 0 8, payload1 := w.extractLsb' 8 8 }
  | .readWord _ a c, d => { d with used := true, opcode := .readWord, address := a, command := c }
  | _, d => d

/-- The moves of a call that no other agent's step comes between: the call itself and then `n` steps of the caller. -/
def callAlone (who : Who) (h : Handle) (w : BitVec 40) (n : Nat) : List Move :=
  .call who h w :: List.replicate n (.run who)

/-- `n` steps of the machine, stopping at the first fault or refusal. -/
def run (n : Nat) (s : State) : Result := Host.Core.run core n s

/-- The events of a list, each taken by a sequencer step, one after the other. -/
def runEvents : List Instr → State → Result
  | [], s => .next s
  | i :: rest, s =>
    match exec i s with
    | .next s' => runEvents rest s'
    | .fault e => .fault e
    | .refused e => .refused e

/-- The events ended in a state in which the commands `cs` have been issued since `s`, descriptor `h` alone has changed, as `f` says, and
the block is idle; the requesters and the configuration are as they were. -/
def endsIdle (s : State) (r : Result) (h : Handle) (cs : List HwCmd) (f : Descriptor → Descriptor) : Prop :=
  ∃ t, r = .next t ∧ t.cmds = s.cmds ++ cs ∧ t.descs = s.descs.modify h f ∧ t.busy = false ∧ t.cur = none ∧ t.queue = [] ∧
    t.requesters = s.requesters ∧ t.params = s.params ∧ t.queueCapacity = s.queueCapacity ∧ t.arbLost = false

/-- The instruction is a phase event. -/
def isEvent : Instr → Bool
  | .evtBusError _ | .evtStartSent _ | .evtRepStartSent _ | .evtAddrWAck _ | .evtAddrWNak _ | .evtDataWAck _
  | .evtDataWNak _ | .evtArbLost _ | .evtAddrRAck _ | .evtAddrRNak _ | .evtDataRxAck _ | .evtDataRxNak _
  | .evtOther _ _ => true
  | _ => false

/-- `{address, 0}`. -/
def addressW (d : Descriptor) : Byte := d.address ++ 0#1

/-- `{address, 1}`. -/
def addressR (d : Descriptor) : Byte := d.address ++ 1#1

/-- The direction bit of the transaction's first address byte: read iff the opcode is ReceiveByte. -/
def firstAddress (d : Descriptor) : Byte := if d.opcode = .receiveByte then addressR d else addressW d

/-- The row of spec/opcode_table.json that a word belongs to: its match under the mask 0xFF80000000. -/
def rowMatch : Opcode → BitVec 40
  | .quick => 0x0000000000
  | .sendByte => 0x0100000000
  | .receiveByte => 0x0200000000
  | .writeByte => 0x0300000000
  | .readByte => 0x0400000000
  | .writeWord => 0x0500000000
  | .readWord => 0x0600000000

end Sys2Proof.Spec

open Sys2Proof Sys2Proof.Machine Sys2Proof.Spec

/-! ## Encodings (30_encoding.md) -/

/-- R61, R63, R64, R65, R71, R72: decoding the encoding of a well-formed instruction gives it back, with every operand at every value
the encoding admits. -/
def Obligations.DecodeGivesBackEveryEncodedInstruction : Prop :=
  ∀ i : Instr, i.wf = true → decode (encode i) = .ok i

/-- R63, R65, R69 (b): every 16-bit word is one well-formed event, and no bit of it is lost. -/
def Obligations.EveryEventWordIsOneEvent : Prop :=
  ∀ w : BitVec 16, decode (.evt16 w) = .ok (decodeEvt16 w) ∧ (decodeEvt16 w).wf = true ∧ isEvent (decodeEvt16 w) = true ∧
    encode (decodeEvt16 w) = .evt16 w

/-- R61, R69 (a): a REQ40 word names an operation exactly if its reserved bits are 0 and its opcode field is not 7. -/
def Obligations.RequestWordNamesAnOperationIffUnreserved : Prop :=
  ∀ (h : Handle) (w : BitVec 40),
    (∃ i, decode (.req40 h w) = .ok i) ↔ (w &&& 0xF880000000#40 = 0#40 ∧ w &&& 0x0700000000#40 ≠ 0x0700000000#40)

/-- R61, R64 and the table's masks: a word that matches the row of an opcode under the mask 0xFF80000000 is that operation, its operands
the word's fields: address bits 30:24, command 23:16, payload bytes 15:8 and 7:0, data16 bits 15:0. -/
def Obligations.RequestWordFieldsAreWhereTheTableHasThem : Prop :=
  ∀ (h : Handle) (w : BitVec 40) (o : Opcode), w &&& 0xFF80000000#40 = rowMatch o →
    let a : Addr7 := (w >>> 24).setWidth 7
    let c : Byte := (w >>> 16).setWidth 8
    let p0 : Byte := w.setWidth 8
    decode (.req40 h w) = .ok
      (match o with
       | .quick => .quick h a p0
       | .sendByte => .sendByte h a p0
       | .receiveByte => .receiveByte h a
       | .writeByte => .writeByte h a c p0
       | .readByte => .readByte h a c
       | .writeWord => .writeWord h a c (w.setWidth 16)
       | .readWord => .readWord h a c)

/-- 95_test_vectors.md V-E1 to V-E10 and its EVT16 examples, word for word. -/
def Obligations.WrittenOutWordsDecodeAsTheVectorsSay : Prop :=
  decodeTableWord 40 0x0020000001 = some (.quick 0 0x20 0x01) ∧
  decodeTableWord 40 0x012100005A = some (.sendByte 0 0x21 0x5A) ∧
  decodeTableWord 40 0x0248000000 = some (.receiveByte 0 0x48) ∧
  decodeTableWord 40 0x0308CC00BB = some (.writeByte 0 0x08 0xCC 0xBB) ∧
  decodeTableWord 40 0x0440050000 = some (.readByte 0 0x40 0x05) ∧
  decodeTableWord 40 0x055010BEEF = some (.writeWord 0 0x50 0x10 0xBEEF) ∧
  decodeTableWord 40 0x0640770000 = some (.readWord 0 0x40 0x77) ∧
  decode (.req40 0 0x0700000000) = .error .reservedOpcode ∧
  decode (.req40 0 0x0388CC00BB) = .error .reservedBit31 ∧
  decode (.req40 0 0x0B08CC00BB) = .error .reservedHighBits ∧
  decodeTableWord 16 0x5034 = some (.evtDataRxAck 0x34) ∧
  decodeTableWord 16 0x0800 = some (.evtStartSent 0x00) ∧
  decodeTableWord 16 0x6012 = some (.evtOther 0x60 0x12) ∧
  decodeTableWord 16 0xF800 = some (.evtOther 0xF8 0x00)

/-- R66: the address byte is `{address, dir}`, that is `(address << 1) | dir`, and the shift loses nothing. -/
def Obligations.AddressByteIsTheShiftedAddressWithTheDirection : Prop :=
  ∀ (a : Addr7) (dir : BitVec 1),
    addrByte a dir = (a.setWidth 8 <<< 1) ||| dir.setWidth 8 ∧ (addrByte a dir).toNat = 2 * a.toNat + dir.toNat

/-- R41, R62, R67: a word is split and assembled little-endian, and RSP24 is `status`, `payload[1]`, `payload[0]`. -/
def Obligations.WordsAreLittleEndianInThePayload : Prop :=
  (∀ w : Word16, lowByte w = w.setWidth 8 ∧ highByte w = (w >>> 8).setWidth 8) ∧
  (∀ (d : Descriptor) (w : Word16), d.payload0 = lowByte w → d.payload1 = highByte w → d.word = w) ∧
  (∀ d : Descriptor, d.rsp24.toNat = 65536 * d.status.toNat + 256 * d.payload1.toNat + d.payload0.toNat)

/-- R70: each command but `HW.Configure` asserts exactly the one strobe that R70 names for it, `HW.Tx` with its byte; `HW.Configure` has no
encoding; two commands never look alike. -/
def Obligations.CommandPortTellsTheCommandsApart : Prop :=
  (∀ c : HwCmd, c.port = none ↔ c = .configure) ∧
  (∀ c c' : HwCmd, c.port = c'.port → c = c') ∧
  HwCmd.start.port = some { startSet := true, startClr := false, stopSet := false, ackSet := false, ackClr := false, tx := none } ∧
  HwCmd.clearStart.port = some { startSet := false, startClr := true, stopSet := false, ackSet := false, ackClr := false, tx := none } ∧
  HwCmd.stop.port = some { startSet := false, startClr := false, stopSet := true, ackSet := false, ackClr := false, tx := none } ∧
  HwCmd.ackOn.port = some { startSet := false, startClr := false, stopSet := false, ackSet := true, ackClr := false, tx := none } ∧
  HwCmd.ackOff.port = some { startSet := false, startClr := false, stopSet := false, ackSet := false, ackClr := true, tx := none } ∧
  (∀ b, (HwCmd.tx b).port = some { startSet := false, startClr := false, stopSet := false, ackSet := false, ackClr := false,
                                   tx := some b })

/-! ## Reset and init (70_reset_and_hazards.md) -/

/-- R95, R181 to R184: `init(c)` with `c ≥ 1` before any other `init` leaves exactly these values; it writes no descriptor and no
`done` flag. That the HBI's pending event goes is the model's reading of R184 (log 14). That the model's own bit `used` stays is its
choice (log 11). -/
def Obligations.InitSetsEveryRegisterItNames : Prop :=
  ∀ (s : State) (c : Nat), s.initialised = false → 1 ≤ c →
    exec (.init c) s = .next
      { s with cmds := s.cmds ++ [.configure], queueCapacity := c, queue := [], busy := false, cur := none,
               phase := 0xF8, lastPhase := 0xF8, wrCnt := 0, rdCnt := 0, arbLost := false, irqEn := true,
               deferSig := false, initialised := true, pending := none, startOutstanding := false }

/-- R180 to R182: after reset the block is the one `init` leaves: initialised, idle, with an empty queue, and with the HBI
configured. (Capacity, table size, timers and the descriptors' contents are the model's choices, logs 5 and 8.) -/
def Obligations.ResetIsTheStateInitLeaves : Prop :=
  let r := State.reset
  r.initialised = true ∧ r.busy = false ∧ r.queue = [] ∧ r.cur = none ∧ r.phase = 0xF8 ∧ r.lastPhase = 0xF8 ∧
  r.wrCnt = 0 ∧ r.rdCnt = 0 ∧ r.arbLost = false ∧ r.irqEn = true ∧ r.deferSig = false ∧ r.pending = none ∧
  r.cmds = [.configure] ∧ (∀ d ∈ r.descs, d.done = false) ∧
  exec (.init r.queueCapacity) { r with initialised := false, cmds := [] } = .next r

/-- R173 (a) to (e), (g), R180, R187: what is refused, and as what.
The order of the tests and the refusal `channelNotEmpty` are the model's choices, logs 2 and 11. -/
def Obligations.BrokenPreconditionsAreRefused : Prop :=
  (∀ (s : State) (c : Nat), s.initialised = true → exec (.init c) s = .refused .alreadyInitialised) ∧
  (∀ s : State, s.initialised = false → exec (.init 0) s = .refused .capacityZero) ∧
  (∀ (i : Instr) (s : State), s.initialised = false → (∀ c, i ≠ .init c) → exec i s = .refused .notInitialised) ∧
  (∀ (i : Instr) (s : State) (h : Handle) (ws : List FieldWrite), s.initialised = true → fillOf i = some (h, ws) →
    (s.nDesc ≤ h → exec i s = .refused .handleOutOfRange) ∧
    (h < s.nDesc → (s.requester s.turn).op ≠ none → exec i s = .refused .requesterInsideOperation) ∧
    (h < s.nDesc → (s.requester s.turn).op = none → (∃ who o, (s.requester who).op = some o ∧ o.handle = h) →
      exec i s = .refused .descriptorInUse) ∧
    (h < s.nDesc → (s.requester s.turn).op = none → s.inUse h = false → (h ∈ s.queue ∨ s.cur = some h) →
      exec i s = .refused .descriptorLent) ∧
    (∀ d, s.descs[h]? = some d → (s.requester s.turn).op = none → s.inUse h = false → h ∉ s.queue → s.cur ≠ some h →
      d.used = false → d.done = true → exec i s = .refused .channelNotEmpty))

/-- R36, R173 (d): a handle that names no descriptor stops the step that would use it, in `cur`, at the head of the queue and in a
requester's operation (states that no run reaches: the model stops there by name, log 13), and in an owner's access. -/
def Obligations.HandlesThatNameNoDescriptorStopTheStep : Prop :=
  (∀ (i : Instr) (s : State) (h : Handle), isEvent i = true → s.initialised = true → s.cur = some h → s.nDesc ≤ h →
    exec i s = .refused .handleOutOfRange) ∧
  (∀ (s : State) (h : Handle) (rest : List Handle) (rx : Byte), s.initialised = true → s.cur = none → s.queue = h :: rest →
    s.phase ≠ 0x38 → s.nDesc ≤ h → exec (.evtStartSent rx) s = .refused .handleOutOfRange) ∧
  (∀ (s : State) (who : Who) (o : Op), s.initialised = true → (s.requester who).op = some o → s.nDesc ≤ o.handle →
    s.runRequester who = .refused .handleOutOfRange) ∧
  (∀ (s : State) (who : Who) (h : Handle) (id : Byte), s.initialised = true → s.nDesc ≤ h →
    s.drainChannel who h = .refused .handleOutOfRange ∧ s.writeRequesterId who h id = .refused .handleOutOfRange)

/-! ## A step runs the decoded instruction -/

/-- R47, R145, R148, R152: the next move decides what runs. A call or `init` runs the instruction its word decodes to; the phase
interrupt (DIRECT) and the handler (DEFERRED) run the instruction the pending event decodes to. Around exec, the step takes the move
off the inputs, names the caller, and in DEFERRED mode clears `defer_sig` before and sets `irq_en` after.
That the moves come from a list, and that the caller's name is a field, are the model's choices, logs 1 and 2. -/
def Obligations.StepRunsTheDecodedInstruction : Prop :=
  (∀ (s : State) who h w rest i, s.inputs = .call who h w :: rest → decode (.req40 h w) = .ok i →
    step s = exec i { s with inputs := rest, turn := who }) ∧
  (∀ (s : State) who h w rest e, s.inputs = .call who h w :: rest → decode (.req40 h w) = .error e →
    step s = .refused (.reservedEncoding e)) ∧
  (∀ (s : State) c rest, s.inputs = .init c :: rest → step s = exec (.init c) { s with inputs := rest }) ∧
  (∀ (s : State) w rest, s.inputs = .interrupt :: rest → s.params.dispatchMode = .direct → s.initialised = true →
    s.irqEn = true → s.pending = some w → step s = exec (decodeEvt16 w) { s with inputs := rest }) ∧
  (∀ (s : State) w rest, s.inputs = .handler :: rest → s.params.dispatchMode = .deferred → s.initialised = true →
    s.deferSig = true → s.pending = some w →
    step s = thenDo (exec (decodeEvt16 w) { s with inputs := rest, deferSig := false }) (fun t => { t with irqEn := true })) ∧
  (∀ s : State, s.inputs = [] → step s = .next s)

/-- The host's fetch place: the very next step runs the instruction of the table word (log 16). -/
def Obligations.PlacedWordIsRunByTheVeryNextStep : Prop :=
  (∀ (s : State) (w : Nat) (i : Instr), decodeTableWord 40 w = some i →
    step (s.withFetchWord 40 w) = exec i { s with turn := s.freshWho } ∧ (s.requester s.freshWho).op = none) ∧
  (∀ (s : State) (w : Nat) (i : Instr), s.initialised = true → s.params.dispatchMode = .direct → decodeTableWord 16 w = some i →
    step (s.withFetchWord 16 w) = exec i { s with pending := some (BitVec.ofNat 16 w), irqEn := true }) ∧
  (∀ (s : State) (w : Nat) (i : Instr), s.initialised = true → s.params.dispatchMode = .deferred → decodeTableWord 16 w = some i →
    step (s.withFetchWord 16 w) =
      thenDo (exec i { s with pending := some (BitVec.ofNat 16 w), irqEn := false, deferSig := false })
        (fun t => { t with irqEn := true }))

/-! ## The seven operations and submit-and-wait (40_manager.md) -/

/-- R80 to R87, R47 (a): called within its preconditions, each operation completes its first atomic step, the write of the opcode; the
requester is then inside the operation with the rest of the fill step before it, in the rule's order.
That the call is its first atomic step, and the bit `used`, are the model's choices, logs 2 and 11. -/
def Obligations.EachOperationBeginsWithItsFillStep : Prop :=
  ∀ (i : Instr) (s : State) (h : Handle) (d : Descriptor) (o : Opcode) (next : FieldWrite) (rest : List FieldWrite),
    fillOf i = some (h, .opcode o :: next :: rest) → MayCall s s.turn h d →
    exec i s = .next (goesOn { s with descs := s.descs.modify h (fun d => { d with used := true, opcode := o }) } s.turn
      { handle := h, pos := .fill next rest, timedOut := false })

/-- R80 to R90: a call that no other agent's step comes between, with room in the queue, fills exactly the fields its rule names, writes
the sentinel, enqueues the handle at the tail, and kicks the controller if and only if the block was idle; then the caller waits.
The moves, the bit `used`, `startOutstanding` and the timer's units are the model's choices, logs 1, 2, 4, 6 and 11. -/
def Obligations.UndisturbedSubmissionFillsEnqueuesAndKicks : Prop :=
  ∀ (i : Instr) (s : State) (who : Who) (h : Handle) (d : Descriptor) (w : BitVec 40) (ws : List FieldWrite) (rest : List Move),
    encode i = .req40 h w → fillOf i = some (h, ws) → MayCall s who h d → s.queue.length ≠ s.queueCapacity →
    run (ws.length + 3) { s with inputs := callAlone who h w (ws.length + 2) ++ rest } = .next
      { s with
        inputs := rest, turn := who,
        descs := s.descs.modify h (fun d => { filled i d with status := 0x07 }),
        queue := s.queue ++ [h],
        busy := true,
        cmds := s.cmds ++ (if s.busy then [] else [.start]),
        startOutstanding := s.startOutstanding || !s.busy,
        requesters := putRequester s.requesters who
          { op := some { handle := h, timedOut := false,
                         pos := .s4 (unitsOf s.params.tWait) },
            ret := (s.requester who).ret } }

/-- R80 to R89, R164: with a full queue the same call returns `ST_OVERLOADED` after its fill step and S1, S2: no command is issued, `busy`
and the queue are as they were, nothing is waited for.
The moves and the bit `used` are the model's choices, logs 1, 2 and 11. -/
def Obligations.FullQueueReturnsOverloadedAndTouchesNoController : Prop :=
  ∀ (i : Instr) (s : State) (who : Who) (h : Handle) (d : Descriptor) (w : BitVec 40) (ws : List FieldWrite) (rest : List Move),
    encode i = .req40 h w → fillOf i = some (h, ws) → MayCall s who h d → s.queue.length = s.queueCapacity →
    run (ws.length + 2) { s with inputs := callAlone who h w (ws.length + 1) ++ rest } = .next
      { s with
        inputs := rest, turn := who,
        descs := s.descs.modify h (fun d => { filled i d with status := 0x06 }),
        requesters := putRequester s.requesters who { op := none, ret := some 0x06 } }

/-- R80: each further move of the requester writes the next field of the fill step, and the last one leads to S1. -/
def Obligations.FillStepWritesOneFieldAMove : Prop :=
  ∀ (s : State) (who : Who) (h : Handle) (next : FieldWrite) (rest : List FieldWrite) (t : Bool) (d : Descriptor),
    InsideAt s who { handle := h, pos := .fill next rest, timedOut := t } d →
    s.runRequester who = .next (goesOn
      { s with descs := s.descs.modify h (fun d =>
          match next with
          | .opcode o => { d with opcode := o }
          | .address a => { d with address := a }
          | .command c => { d with command := c }
          | .payload0 b => { d with payload0 := b }
          | .payload1 b => { d with payload1 := b }) } who
      { handle := h, timedOut := t, pos := match rest with | [] => .s1 | f :: fs => .fill f fs })

/-- R88: S1 writes the sentinel and nothing else; `done[h]` is not cleared. -/
def Obligations.SubmitStep1WritesTheSentinelOnly : Prop :=
  ∀ (s : State) (who : Who) (o : Op) (d : Descriptor), InsideAt s who o d → o.pos = .s1 →
    s.runRequester who = .next (goesOn
      { s with descs := s.descs.modify o.handle (fun d => { d with status := 0x07 }) } who { o with pos := .s2 })

/-- R22, R89: S2 appends the handle at the tail, or on a full queue writes `ST_OVERLOADED` and returns it at once. That the status is
written into the descriptor too is the spec's own inference, decision D15. -/
def Obligations.SubmitStep2EnqueuesOrReturnsOverloaded : Prop :=
  ∀ (s : State) (who : Who) (o : Op) (d : Descriptor), InsideAt s who o d → o.pos = .s2 →
    s.runRequester who = .next
      (if s.queue.length = s.queueCapacity then
        returns { s with descs := s.descs.modify o.handle (fun d => { d with status := 0x06 }) } who 0x06
       else goesOn { s with queue := s.queue ++ [o.handle] } who { o with pos := .s3 })

/-- R90: S3 issues `HW.Start` and sets `busy` if and only if `busy == 0`; it touches neither `cur`, the queue nor the descriptor.
`startOutstanding` and the timer's units are the model's choices, logs 4 and 6. -/
def Obligations.SubmitStep3KicksOnlyAnIdleController : Prop :=
  ∀ (s : State) (who : Who) (o : Op) (d : Descriptor), InsideAt s who o d → o.pos = .s3 →
    s.runRequester who = .next (goesOn
      (if s.busy then s else { issuesStart s with busy := true }) who { o with pos := .s4 (unitsOf s.params.tWait) })

/-- R91, R92, R142: S4 ends by completion if `done[h] == 1`, clearing the flag, and S5 begins in the same step: the recovery delay applies
exactly if the status held then is not success; by timeout if `done[h] == 0` and the wait timer has run out; else the requester stays
where it is. That S5 begins in the same step is the model's reading, logs 19 and 22; the timer's units are its choice, log 6. -/
def Obligations.SubmitStep4EndsByCompletionOrTimeout : Prop :=
  ∀ (s : State) (who : Who) (o : Op) (d : Descriptor) (left : Nat), InsideAt s who o d → o.pos = .s4 left →
    s.runRequester who = .next
      (if d.done then
        goesOn { s with descs := s.descs.modify o.handle (fun d => { d with done := false }) } who
          { o with timedOut := false,
                   pos := if d.status ≠ 0x00 then .s5Delay (unitsOf s.params.tRecover) else .s6 }
       else if left = 0 then goesOn s who { o with pos := .s5, timedOut := true }
       else s)

/-- R92, R93: a requester before the beginning of S5 (which only a timeout leads to, log 19) takes the recovery delay exactly after a timeout or
a status other than success; the delay ends when its timer has run out; S6 returns the status the descriptor holds then. Neither
touches the queue, `busy` or the sequencer. The first clause follows R92's test by the model's reading of when S5 begins, logs 19 and
22: with `timedOut = 0` it speaks of states that no run reaches, and so not of R97's last row. The timer's units are the model's
choice, log 6. -/
def Obligations.SubmitSteps5And6DelayAndReturnTheStatus : Prop :=
  (∀ (s : State) (who : Who) (o : Op) (d : Descriptor), InsideAt s who o d → o.pos = .s5 →
    s.runRequester who = .next
      (goesOn s who
        { o with pos := if o.timedOut = true ∨ d.status ≠ 0x00 then .s5Delay (unitsOf s.params.tRecover) else .s6 })) ∧
  (∀ (s : State) (who : Who) (o : Op) (d : Descriptor) (left : Nat), InsideAt s who o d → o.pos = .s5Delay left →
    s.runRequester who = .next (if left = 0 then goesOn s who { o with pos := .s6 } else s)) ∧
  (∀ (s : State) (who : Who) (o : Op) (d : Descriptor), InsideAt s who o d → o.pos = .s6 →
    s.runRequester who = .next (returns s who d.status))

/-- R175 and D17: a unit of time takes one from every running wait and recovery timer and changes nothing else. (That time comes in
units is the model's choice, log 6.)
That time passes before `init` too is the model's choice, log 23. -/
def Obligations.TimeRunsOnlyTheRequestersTimers : Prop :=
  ∀ (s : State) (rest : List Move), s.inputs = .tick :: rest →
    ∃ rs, step s = .next { s with inputs := rest, requesters := rs } ∧
      ∀ who, (lookupRequester rs who).ret = (s.requester who).ret ∧
        (lookupRequester rs who).op = (s.requester who).op.map (fun o =>
          { o with pos := match o.pos with
            | .s4 left => .s4 (left - 1)
            | .s5Delay left => .s5Delay (left - 1)
            | p => p })

/-- R11, R44, R187, R191, R192: outside any operation the owner writes `requester_id` while the descriptor is not lent, and drains
`done[h]`; each changes that one field alone. (These two moves are the model's form of the owner's duties, log 12.) -/
def Obligations.OwnerWritesItsNameAndDrainsItsChannel : Prop :=
  ∀ (s : State) (who : Who) (h : Handle) (id : Byte), s.initialised = true → h < s.nDesc → (s.requester who).op = none →
    s.inUse h = false →
    s.drainChannel who h = .next { s with descs := s.descs.modify h (fun d => { d with done := false }) } ∧
    s.writeRequesterId who h id =
      (if h ∈ s.queue ∨ s.cur = some h then .refused .descriptorLent
       else .next { s with descs := s.descs.modify h (fun d => { d with requesterId := id }) })

/-! ## The sequencer (41_sequencer.md) -/

/-- R101, R105, R107, R112, R113, R115: the five error-stop events complete with an active descriptor: the phase is recorded, then the
terminal sequence runs with the status of the cause.
The clauses on `startOutstanding` and `yieldReq` are the model's readings, logs 4 and 18. -/
def Obligations.ErrorEventsEndTheTransactionWithTheirStatus : Prop :=
  ∀ (s : State) (h : Handle) (d : Descriptor) (rx code : Byte), Active s h d →
    exec (.evtBusError rx) s = .next (afterTerminal (afterPhase s 0x00) h 0x04) ∧
    exec (.evtAddrWNak rx) s = .next (afterTerminal (afterPhase s 0x20) h 0x01) ∧
    exec (.evtDataWNak rx) s = .next (afterTerminal (afterPhase s 0x30) h 0x03) ∧
    exec (.evtAddrRNak rx) s = .next (afterTerminal (afterPhase s 0x48) h 0x02) ∧
    exec (.evtOther code rx) s = .next (afterTerminal (afterPhase s code) h 0x05)

/-- R102: start sent. After an arbitration loss nothing is reset and nothing dequeued; otherwise the Protocol State is reset, and at a
fresh activation the queue head becomes active. Each time the address byte of the active descriptor is sent.
The clauses on `startOutstanding` and `yieldReq` are the model's readings, logs 4 and 18. -/
def Obligations.StartSentActivatesAndSendsTheAddress : Prop :=
  (∀ (s : State) (h : Handle) (d : Descriptor) (rx : Byte), Active s h d → s.phase ≠ 0x38 →
    exec (.evtStartSent rx) s = .next
      { issues (afterPhase s 0x08) [.clearStart, .tx (firstAddress d)] with wrCnt := 0, rdCnt := 0, arbLost := false }) ∧
  (∀ (s : State) (h : Handle) (d : Descriptor) (rx : Byte), Active s h d → s.phase = 0x38 →
    exec (.evtStartSent rx) s = .next (issues (afterPhase s 0x08) [.clearStart, .tx (firstAddress d)])) ∧
  (∀ (s : State) (h : Handle) (rest : List Handle) (d : Descriptor) (rx : Byte), s.initialised = true → s.cur = none →
    s.queue = h :: rest → s.descs[h]? = some d → s.phase ≠ 0x38 →
    exec (.evtStartSent rx) s = .next
      { issues (afterPhase s 0x08) [.clearStart, .tx (firstAddress d)] with
        wrCnt := 0, rdCnt := 0, arbLost := false, cur := some h, queue := rest })

/-- R103: repeated start sent: the original direction after an arbitration loss, else the read direction; counters untouched.
The clauses on `startOutstanding` and `yieldReq` are the model's readings, logs 4 and 18. -/
def Obligations.RepeatedStartSendsTheReadAddressOrResumes : Prop :=
  ∀ (s : State) (h : Handle) (d : Descriptor) (rx : Byte), Active s h d →
    exec (.evtRepStartSent rx) s = .next
      (issues (afterPhase s 0x10) [.clearStart, .tx (if s.phase = 0x38 then firstAddress d else addressR d)])

/-- R104: address and write bit acknowledged.
The clauses on `startOutstanding` and `yieldReq` are the model's readings, logs 4 and 18. -/
def Obligations.WriteAddressAckBranchesOnTheOpcode : Prop :=
  ∀ (s : State) (h : Handle) (d : Descriptor) (rx : Byte), Active s h d →
    exec (.evtAddrWAck rx) s = .next
      (match d.opcode with
       | .quick => afterTerminal (afterPhase s 0x18) h 0x00
       | .sendByte => { issues (afterPhase s 0x18) [.tx d.payload0] with wrCnt := 1 }
       | .receiveByte => afterTerminal (afterPhase s 0x18) h 0x05
       | .writeByte => issues (afterPhase s 0x18) [.tx d.command]
       | .readByte => issues (afterPhase s 0x18) [.tx d.command]
       | .writeWord => issues (afterPhase s 0x18) [.tx d.command]
       | .readWord => issues (afterPhase s 0x18) [.tx d.command])

/-- R106: command or data byte acknowledged; `wr_cnt` tells which.
The clauses on `startOutstanding` and `yieldReq` are the model's readings, logs 4 and 18. -/
def Obligations.WriteDataAckSendsTheNextByteOrEnds : Prop :=
  ∀ (s : State) (h : Handle) (d : Descriptor) (rx : Byte), Active s h d →
    exec (.evtDataWAck rx) s = .next
      (match d.opcode with
       | .sendByte => afterTerminal (afterPhase s 0x28) h 0x00
       | .writeByte =>
         if s.wrCnt = 0 then { issues (afterPhase s 0x28) [.tx d.payload0] with wrCnt := 1 }
         else afterTerminal (afterPhase s 0x28) h 0x00
       | .writeWord =>
         if s.wrCnt = 0 then { issues (afterPhase s 0x28) [.tx d.payload0] with wrCnt := 1 }
         else if s.wrCnt = 1 then { issues (afterPhase s 0x28) [.tx d.payload1] with wrCnt := 2 }
         else afterTerminal (afterPhase s 0x28) h 0x00
       | .readByte => issuesStart (afterPhase s 0x28)
       | .readWord => issuesStart (afterPhase s 0x28)
       | .quick => afterTerminal (afterPhase s 0x28) h 0x05
       | .receiveByte => afterTerminal (afterPhase s 0x28) h 0x05)

/-- R108: arbitration lost: the start is issued again and the loss marked; the transaction stays active.
The clauses on `startOutstanding` and `yieldReq` are the model's readings, logs 4 and 18. -/
def Obligations.ArbitrationLossReissuesTheStart : Prop :=
  ∀ (s : State) (h : Handle) (d : Descriptor) (rx : Byte), Active s h d →
    exec (.evtArbLost rx) s = .next { issuesStart (afterPhase s 0x38) with arbLost := true }

/-- R109: address and read bit acknowledged: one byte expected for ReceiveByte and ReadByte, else the acknowledge is enabled.
The clauses on `startOutstanding` and `yieldReq` are the model's readings, logs 4 and 18. -/
def Obligations.ReadAddressAckSetsTheAcknowledge : Prop :=
  ∀ (s : State) (h : Handle) (d : Descriptor) (rx : Byte), Active s h d →
    exec (.evtAddrRAck rx) s = .next
      (issues (afterPhase s 0x40) [if d.opcode = .receiveByte ∨ d.opcode = .readByte then .ackOff else .ackOn])

/-- R110, R114: byte received and acknowledged: ReadWord stores it and disables the acknowledge (a third byte is the model fault); any
other opcode ends as unexpected, storing nothing.
The clauses on `startOutstanding` and `yieldReq` are the model's readings, logs 4 and 18. -/
def Obligations.ReceivedByteWithAckIsStoredForReadWordOnly : Prop :=
  ∀ (s : State) (h : Handle) (d : Descriptor) (rx : Byte), Active s h d →
    (d.opcode = .readWord → s.rdCnt < 2 →
      exec (.evtDataRxAck rx) s = .next (issues (afterStore (afterPhase s 0x50) h rx) [.ackOff])) ∧
    (d.opcode = .readWord → 2 ≤ s.rdCnt → exec (.evtDataRxAck rx) s = .fault .payloadOverrun) ∧
    (d.opcode ≠ .readWord → exec (.evtDataRxAck rx) s = .next (afterTerminal (afterPhase s 0x50) h 0x05))

/-- R111, R114: the final byte is stored, whatever the opcode, and the transaction ends with success; a third byte is the model fault.
The clauses on `startOutstanding` and `yieldReq` are the model's readings, logs 4 and 18. -/
def Obligations.ReceivedByteWithNakIsStoredAndEnds : Prop :=
  ∀ (s : State) (h : Handle) (d : Descriptor) (rx : Byte), Active s h d →
    (s.rdCnt < 2 →
      exec (.evtDataRxNak rx) s = .next (afterTerminal (afterStore (afterPhase s 0x58) h rx) h 0x00)) ∧
    (2 ≤ s.rdCnt → exec (.evtDataRxNak rx) s = .fault .payloadOverrun)

/-- R100, R114, R122, R172: exactly when an instruction ends in a model fault. Requests and `init` never do. That these two situations are
faults is the spec's own choice, decisions D12 and D13. -/
def Obligations.FaultsAreExactlyTheTwoOfTheSpec : Prop :=
  ∀ (i : Instr) (s : State),
    (exec i s = .fault .noActiveDescriptor ↔
      isEvent i = true ∧ s.initialised = true ∧ s.cur = none ∧
        ¬ ((∃ rx, i = .evtStartSent rx) ∧ s.phase ≠ 0x38 ∧ s.queue ≠ [])) ∧
    (exec i s = .fault .payloadOverrun ↔
      ∃ h d rx, Active s h d ∧ 2 ≤ s.rdCnt ∧ (i = .evtDataRxNak rx ∨ (i = .evtDataRxAck rx ∧ d.opcode = .readWord)))

/-! ## Whole transactions (42_transactions.md) -/

/-- R130, R131, R133, R135: with an empty queue, the events of an undisturbed write transaction make the controller send exactly the
address with the write bit, the command byte where there is one, and the payload bytes in order, and stop; the status is success, the
flag is set, and the block is idle again. -/
def Obligations.WriteTransactionsSendTheirBytesInOrder : Prop :=
  ∀ (s : State) (h : Handle) (d : Descriptor) (r1 r2 r3 r4 r5 : Byte), Active s h d → s.phase ≠ 0x38 → s.queue = [] →
    (d.opcode = .quick →
      endsIdle s (runEvents [.evtStartSent r1, .evtAddrWAck r2] s) h
        [.clearStart, .tx (addressW d), .stop]
        (fun d => { d with status := 0x00, done := true })) ∧
    (d.opcode = .sendByte →
      endsIdle s (runEvents [.evtStartSent r1, .evtAddrWAck r2, .evtDataWAck r3] s) h
        [.clearStart, .tx (addressW d), .tx d.payload0, .stop]
        (fun d => { d with status := 0x00, done := true })) ∧
    (d.opcode = .writeByte →
      endsIdle s (runEvents [.evtStartSent r1, .evtAddrWAck r2, .evtDataWAck r3, .evtDataWAck r4] s) h
        [.clearStart, .tx (addressW d), .tx d.command, .tx d.payload0, .stop]
        (fun d => { d with status := 0x00, done := true })) ∧
    (d.opcode = .writeWord →
      endsIdle s (runEvents [.evtStartSent r1, .evtAddrWAck r2, .evtDataWAck r3, .evtDataWAck r4, .evtDataWAck r5] s) h
        [.clearStart, .tx (addressW d), .tx d.command, .tx d.payload0, .tx d.payload1, .stop]
        (fun d => { d with status := 0x00, done := true }))

/-- R132, R134, R136: the same for the reads: the command byte is written, a repeated start turns the bus round with no stop between,
the received bytes go to `payload[0]` and `payload[1]`, the last one unacknowledged. -/
def Obligations.ReadTransactionsStoreTheirBytesInOrder : Prop :=
  ∀ (s : State) (h : Handle) (d : Descriptor) (r1 r2 r3 r4 r5 b0 b1 : Byte), Active s h d → s.phase ≠ 0x38 → s.queue = [] →
    (d.opcode = .receiveByte →
      endsIdle s (runEvents [.evtStartSent r1, .evtAddrRAck r2, .evtDataRxNak b0] s) h
        [.clearStart, .tx (addressR d), .ackOff, .stop]
        (fun d => { d with payload0 := b0, status := 0x00, done := true })) ∧
    (d.opcode = .readByte →
      endsIdle s (runEvents [.evtStartSent r1, .evtAddrWAck r2, .evtDataWAck r3, .evtRepStartSent r4, .evtAddrRAck r5,
          .evtDataRxNak b0] s) h
        [.clearStart, .tx (addressW d), .tx d.command, .start, .clearStart, .tx (addressR d), .ackOff, .stop]
        (fun d => { d with payload0 := b0, status := 0x00, done := true })) ∧
    (d.opcode = .readWord →
      endsIdle s (runEvents [.evtStartSent r1, .evtAddrWAck r2, .evtDataWAck r3, .evtRepStartSent r4, .evtAddrRAck r5,
          .evtDataRxAck b0, .evtDataRxNak b1] s) h
        [.clearStart, .tx (addressW d), .tx d.command, .start, .clearStart, .tx (addressR d), .ackOn, .ackOff, .stop]
        (fun d => { d with payload0 := b0, payload1 := b1, status := 0x00, done := true }))

/-- R102, R103, R108, R137, R195, R196: an arbitration loss and the retry that follows it, reported as a start or as a repeated start,
keep `cur`, the queue, the counters and every descriptor, and send the address in the transaction's original direction. -/
def Obligations.ArbitrationRetryResumesWithItsCounters : Prop :=
  ∀ (s : State) (h : Handle) (d : Descriptor) (r1 r2 : Byte), Active s h d →
    ∀ retry ∈ [Instr.evtStartSent r2, Instr.evtRepStartSent r2],
      ∃ t, runEvents [.evtArbLost r1, retry] s = .next t ∧
        t.cmds = s.cmds ++ [.start, .clearStart, .tx (firstAddress d)] ∧
        t.wrCnt = s.wrCnt ∧ t.rdCnt = s.rdCnt ∧ t.arbLost = true ∧ t.cur = s.cur ∧ t.queue = s.queue ∧
        t.descs = s.descs ∧ t.busy = s.busy ∧ t.lastPhase = 0x38

/-! ## The bridge (43_bridge.md) -/

/-- R34, R147, R168, R180: the HBI makes one event pending at a time, and before `init` none; in DEFERRED mode the interrupt only masks
the line and releases the handler, and the event stays pending; while the line is masked nothing is delivered.
That an event raised before `init` is dropped and a second pending one refused are the model's readings, logs 14 and 15. -/
def Obligations.InterruptStubMasksTheLineAndHandsOff : Prop :=
  (∀ (s : State) w rest, s.inputs = .raise w :: rest → s.initialised = true → s.pending = none →
    step s = .next { s with inputs := rest, pending := some w }) ∧
  (∀ (s : State) w rest, s.inputs = .raise w :: rest → s.initialised = true → s.pending ≠ none →
    step s = .refused .eventAlreadyPending) ∧
  (∀ (s : State) w rest, s.inputs = .raise w :: rest → s.initialised = false → step s = .next { s with inputs := rest }) ∧
  (∀ (s : State) w rest, s.inputs = .interrupt :: rest → s.params.dispatchMode = .deferred → s.initialised = true →
    s.irqEn = true → s.pending = some w →
    step s = .next { s with inputs := rest, irqEn := false, deferSig := true, yieldReq := true }) ∧
  (∀ (s : State) rest, s.inputs = .interrupt :: rest → (s.irqEn = false ∨ s.pending = none ∨ s.initialised = false) →
    step s = .next { s with inputs := rest })

/-- R37, R145, R147, R148, R180: a move of the interrupt, of the handler or of a requester inside no operation changes nothing while that
agent has no enabled step: before `init`; for the interrupt also with the line masked or no event pending; for the handler also with no
hand-off to serve or in DIRECT mode. (That such moves stutter is the model's choice, log 1.) -/
def Obligations.AgentsWithNoEnabledStepChangeNothing : Prop :=
  (∀ (s : State) who rest, s.inputs = .run who :: rest → (s.initialised = false ∨ (s.requester who).op = none) →
    step s = .next { s with inputs := rest }) ∧
  (∀ (s : State) rest, s.inputs = .interrupt :: rest → (s.initialised = false ∨ s.irqEn = false ∨ s.pending = none) →
    step s = .next { s with inputs := rest }) ∧
  (∀ (s : State) rest, s.inputs = .handler :: rest →
    (s.initialised = false ∨ s.deferSig = false ∨ s.params.dispatchMode = .direct) → step s = .next { s with inputs := rest })

/-- R150, for a stub step followed at once by its handler step: together they leave the state that the one interrupt step leaves in DIRECT
mode for the same event, and fault or refuse where it does. (R150 is the spec's own inference from R147 to R149. That `yieldReq` is equal
too rests on log 18, since R151 does not speak of the handler step.) -/
def Obligations.DeferredDispatchEqualsDirectDispatch : Prop :=
  ∀ (s : State) (w : BitVec 16) (rest : List Move), s.params.dispatchMode = .direct → s.dispatchConsistent →
    s.initialised = true → s.pending = some w →
    run 2 { s with params := { s.params with dispatchMode := .deferred }, inputs := .interrupt :: .handler :: rest } =
      thenDo (step { s with inputs := .interrupt :: rest })
        (fun t => { t with params := { t.params with dispatchMode := .deferred } })

/-! ## Invariants that every step keeps -/

/-- R21: `QueueLen() ≤ QUEUE_CAPACITY` always. -/
def Obligations.EveryStepKeepsTheQueueWithinItsCapacity : Prop :=
  ∀ s t : State, s.queueBounded → step s = .next t → t.queueBounded

/-- R119: the counters never leave 0, 1, 2. -/
def Obligations.EveryStepKeepsTheCountersInRange : Prop :=
  ∀ s t : State, s.countersInRange → step s = .next t → t.countersInRange

/-- R26, under R184's assumption on the HBI: an active transaction, an outstanding start and a pending event all mean `busy == 1`.
What "outstanding" means is the model's reading, log 4. -/
def Obligations.EveryStepKeepsBusyWhileATransactionIsActive : Prop :=
  ∀ s t : State, s.activeImpliesBusy → s.raisesOnlyWhileBusy → step s = .next t → t.activeImpliesBusy

/-- R116, R199 (safety side of the backlog drain): no handle is ever stranded in the queue of an idle block. -/
def Obligations.EveryStepStrandsNoQueuedHandle : Prop :=
  ∀ s t : State, s.activeImpliesBusy → s.raisesOnlyWhileBusy → s.noHandleStranded → step s = .next t → t.noHandleStranded

/-- R18, R143, R190: a handle is lent at most once, and no requester is inside an operation on another's or on a lent descriptor. -/
def Obligations.EveryStepLendsADescriptorOnce : Prop :=
  ∀ s t : State, s.lentOnce → step s = .next t → t.lentOnce

/-- R36: `cur`, the queue and every requester's operation keep naming descriptors of the table. -/
def Obligations.EveryStepKeepsHandlesInRange : Prop :=
  ∀ s t : State, s.handlesInRange → step s = .next t → t.handlesInRange

/-- R145, R147, R148: the dispatch flags stay as each mode has them. -/
def Obligations.EveryStepKeepsTheDispatchFlagsConsistent : Prop :=
  ∀ s t : State, s.dispatchConsistent → step s = .next t → t.dispatchConsistent

/-- The list of requesters keeps its one form.
The list and its form are the model's own, log 9. -/
def Obligations.EveryStepKeepsTheRequesterListCanonical : Prop :=
  ∀ s t : State, requestersWf s.requesters → step s = .next t → requestersWf t.requesters

/-- 41_sequencer.md section 5: while a correct HBI answers, the bus stays in order.
The table of that section is in part from general knowledge (K2, log 21). -/
def Obligations.EveryStepKeepsTheBusInOrder : Prop :=
  ∀ s t : State, s.busInOrder → s.raisesInOrder → step s = .next t → t.busInOrder

/-- R104, R106, R110, R113 with 41_sequencer.md section 5: while a correct HBI answers, no transaction ends with `ST_UNEXPECTED`.
The table of that section is in part from general knowledge (K2, log 21). -/
def Obligations.CorrectHbiNeverCausesAnUnexpectedStatus : Prop :=
  ∀ (s t : State) (h : Handle) (d d' : Descriptor), s.busInOrder → step s = .next t → s.descs[h]? = some d →
    t.descs[h]? = some d' → d'.status = 0x05 → d.status = 0x05

/-- Reset meets every invariant.
(The values the spec does not give are logs 5, 8 and 9.) -/
def Obligations.ResetMeetsTheInvariants : Prop :=
  State.reset.queueBounded ∧ State.reset.countersInRange ∧ State.reset.activeImpliesBusy ∧ State.reset.noHandleStranded ∧
  State.reset.lentOnce ∧ State.reset.handlesInRange ∧ State.reset.dispatchConsistent ∧ requestersWf State.reset.requesters ∧
  State.reset.busInOrder ∧ State.reset.configWf

/-! ## Rules about every step -/

/-- R20, R22, R23, R24, R95: a step leaves the queue as it is, or appends the handle of a requester at S2 at the tail, or takes the head
off and makes it active, or (`init`) empties it; no handle is taken from elsewhere and none is reordered. -/
def Obligations.QueueIsFirstInFirstOut : Prop :=
  ∀ s t : State, step s = .next t →
    t.queue = s.queue ∨
    (∃ who o, (s.requester who).op = some o ∧ o.pos = .s2 ∧ s.queue.length ≠ s.queueCapacity ∧ t.queue = s.queue ++ [o.handle]) ∨
    (∃ h, s.queue = h :: t.queue ∧ t.cur = some h) ∨
    (s.initialised = false ∧ t.initialised = true ∧ t.queue = [])

/-- R25, R203: `busy` is set only by a requester at S3, together with `HW.Start`, and cleared only by a terminal sequence that finds the
queue empty (or by `init`).
`yieldReq` is read as in log 18. -/
def Obligations.BusyIsSetByTheKickAndClearedByTheTerminalSequence : Prop :=
  ∀ s t : State, step s = .next t →
    (s.busy = false → t.busy = true →
      (∃ who o, (s.requester who).op = some o ∧ o.pos = .s3) ∧ t.cmds = s.cmds ++ [.start] ∧ t.cur = s.cur ∧ t.queue = s.queue) ∧
    (s.busy = true → t.busy = false → s.initialised = true →
      t.queue = [] ∧ t.cur = none ∧ t.cmds.getLast? = some .stop ∧ t.yieldReq = true)

/-- R141, R143, R144: `done[h]` is set only by the terminal sequence of the descriptor that was active, which then is no longer; it is
cleared only by a wait of a requester inside an operation on `h`, or by the owner's drain.
The drain as a move is the model's choice, log 12; `yieldReq` is read as in log 18. -/
def Obligations.DoneIsSetByTheSequencerAndClearedByAWait : Prop :=
  ∀ (s t : State) (h : Handle) (d d' : Descriptor), step s = .next t → s.descs[h]? = some d → t.descs[h]? = some d' →
    (d.done = false → d'.done = true →
      s.cur = some h ∧ t.yieldReq = true ∧ .stop ∈ t.cmds.drop s.cmds.length ∧
        (s.lentOnce → t.cur ≠ some h)) ∧
    (d.done = true → d'.done = false →
      (∃ who o left, (s.requester who).op = some o ∧ o.handle = h ∧ o.pos = .s4 left) ∨
      (∃ who rest, s.inputs = .drain who h :: rest))

/-- R13, R88, R89, R115: `status` is written only by S1 (the sentinel), by S2 on a full queue (overloaded), or by the terminal sequence of
the active descriptor. -/
def Obligations.StatusIsWrittenOnlyBySubmitStepsAndTheTerminalSequence : Prop :=
  ∀ (s t : State) (h : Handle) (d d' : Descriptor), step s = .next t → s.descs[h]? = some d → t.descs[h]? = some d' →
    d'.status ≠ d.status →
    (∃ who o, (s.requester who).op = some o ∧ o.handle = h ∧ o.pos = .s1 ∧ d'.status = 0x07) ∨
    (∃ who o, (s.requester who).op = some o ∧ o.handle = h ∧ o.pos = .s2 ∧ s.queue.length = s.queueCapacity ∧ d'.status = 0x06) ∨
    (s.cur = some h ∧ d'.done = true ∧ d'.status.toNat < 6)

/-- R44, R50, R54: while a descriptor is lent, nothing writes its `opcode`, `address`, `command` or `requester_id`, and its payload changes
only by the store of a received byte into the active descriptor. -/
def Obligations.LentDescriptorIsTheSequencersAlone : Prop :=
  ∀ (s t : State) (h : Handle) (d d' : Descriptor), s.lentOnce → step s = .next t → s.descs[h]? = some d →
    t.descs[h]? = some d' → s.lent h = true →
    d'.opcode = d.opcode ∧ d'.address = d.address ∧ d'.command = d.command ∧ d'.requesterId = d.requesterId ∧
    ((d'.payload0 ≠ d.payload0 ∨ d'.payload1 ≠ d.payload1) → s.cur = some h ∧ t.rdCnt = s.rdCnt + 1)

/-- R36 (closing paragraph), R2, R3, R185: no step changes the parameters or the table's size; after `init` the capacity never changes and
nothing makes the block uninitialised again. So R2's constraints on the parameters, once met, stay met. -/
def Obligations.ConfigurationIsFixedAfterInit : Prop :=
  ∀ s t : State, step s = .next t →
    t.params = s.params ∧ t.nDesc = s.nDesc ∧
    (s.initialised = true → t.initialised = true ∧ t.queueCapacity = s.queueCapacity) ∧
    (s.configWf → t.configWf)

/-- R33, R174: who issues what. Commands are only ever added, in order. The sequencer issues them in the interrupt of DIRECT mode and in the
handler of DEFERRED mode; a requester's step adds nothing, or the one `HW.Start` of the kick; `init` adds `HW.Configure` and nothing else;
a call's first step, an owner's access, the stub, time and the HBI add nothing. -/
def Obligations.CommandsComeFromTheirIssuersOnly : Prop :=
  ∀ s t : State, step s = .next t →
    ∃ cs, t.cmds = s.cmds ++ cs ∧ cs.length ≤ 2 ∧
      (HwCmd.configure ∈ cs → s.initialised = false ∧ t.initialised = true ∧ cs = [.configure]) ∧
      (∀ who rest, s.inputs = .run who :: rest → cs = [] ∨ (cs = [.start] ∧ s.busy = false ∧ t.busy = true)) ∧
      (cs ≠ [] → ∃ m rest, s.inputs = m :: rest ∧
        ((m = .interrupt ∧ s.params.dispatchMode = .direct) ∨ (m = .handler ∧ s.params.dispatchMode = .deferred) ∨
          (∃ who, m = .run who) ∨ (∃ n, m = .init n ∧ cs = [.configure])))

/-- R118, R120, R166 as a rule about every event: a phase event on an active descriptor within the payload's bounds always completes, and
it either keeps the transaction active and issues a command, or ends it with a stop.
`yieldReq` is read as in log 18. -/
def Obligations.EveryEventContinuesOrStopsTheTransaction : Prop :=
  ∀ (i : Instr) (s : State) (h : Handle) (d : Descriptor), isEvent i = true → Active s h d → s.rdCnt < 2 →
    ∃ t, exec i s = .next t ∧ t.lastPhase = s.phase ∧ t.pending = none ∧
      ((t.cur = some h ∧ t.busy = s.busy ∧ t.queue = s.queue ∧ (∃ c cs, t.cmds = s.cmds ++ c :: cs) ∧ t.yieldReq = false) ∨
       (.stop ∈ t.cmds.drop s.cmds.length ∧ t.yieldReq = true ∧ t.cur = s.queue.head? ∧ t.queue = s.queue.tail ∧
        (t.busy = true ↔ s.busy = true ∧ s.queue ≠ []) ∧
        ∃ d', t.descs[h]? = some d' ∧ d'.done = true ∧ d'.status.toNat < 6))
end

