-- ==== Sys2Proof/Tests/Slice0.lean ====
section
/-! SUPPORT. The model's own tests: the WellFormed smoke test, words written out from 30_encoding.md, single steps with the results of
95_test_vectors.md and the worked examples of the rules, and a witness for every statement that has hypotheses. -/

namespace Sys2Proof.Tests

open Sys2Proof.Machine Sys2Proof.Spec

/-! ### Helpers -/

/-- A descriptor with these fields, used before. -/
def dsc (o : Opcode) (a : Addr7) (c p0 p1 : Byte) : Descriptor :=
  { Descriptor.fresh with opcode := o, address := a, command := c, payload0 := p0, payload1 := p1, status := 0x07, used := true }

/-- Two descriptors, the first with this opcode and the operands of V-E6. -/
def descsOf (o : Opcode) : List Descriptor := [dsc o 0x50 0x10 0xEF 0xBE, dsc .sendByte 0x21 0x00 0x5A 0x00]

/-- The transaction of descriptor 0 is active and the last event was `ph`. -/
def activeAt (o : Opcode) (ph : Byte) : State :=
  { State.reset with descs := descsOf o, busy := true, cur := some 0, phase := ph }

/-- The same with these counters. -/
def counted (o : Opcode) (ph : Byte) (wr rd : BitVec 2) : State :=
  { activeAt o ph with wrCnt := wr, rdCnt := rd }

/-- Requester 1 is inside an operation on descriptor 0. -/
def insideAt (pos : Pos) : State :=
  { State.reset with descs := descsOf .quick,
                     requesters := [(1, { op := some { handle := 0, pos := pos, timedOut := false }, ret := none })] }

/-- The operation of `insideAt`. -/
def opAt (pos : Pos) : Op := { handle := 0, pos := pos, timedOut := false }

/-- Before `init`. -/
def before : State := { State.reset with initialised := false, cmds := [] }

/-- The commands a step issued. -/
def newCmds (s : State) (r : Result) : Option (List HwCmd) := (nextOf r).map (fun t => t.cmds.drop s.cmds.length)

/-- The status of descriptor 0 after a step. -/
def status0 (r : Result) : Option Byte := (nextOf r).bind (fun t => (t.descs[0]?).map (·.status))

theorem next_of_isSome {r : Result} (h : (nextOf r).isSome = true) : ∃ t, r = .next t := by
  cases r with
  | next s => exact ⟨s, rfl⟩
  | fault e => cases h
  | refused e => cases h

theorem next_of_some {r : Result} {t : State} (h : nextOf r = some t) : r = .next t := by
  cases r with
  | next s => simp only [nextOf, Option.some.injEq] at h; rw [h]
  | fault e => cases h
  | refused e => cases h

/-! ### WellFormed: an ill-formed term for each check -/

theorem test_wf_refuses_init_with_capacity_zero : (Instr.init 0).wf = false := by decide
theorem test_wf_refuses_a_named_code_as_other :
    (Instr.evtOther 0x00 0).wf = false ∧ (Instr.evtOther 0x38 0).wf = false ∧ (Instr.evtOther 0x58 0).wf = false := by decide
theorem test_wf_accepts_the_idle_code_as_other : (Instr.evtOther 0xF8 0).wf = true := by decide

/-- R2: a duration parameter is positive; the parameters of reset are. -/
theorem test_params_wf :
    State.reset.params.wf = true ∧ ({ Config.params with tWait := .units 0 } : Params).wf = false := by decide

/-! ### Decoding: words written out from 30_encoding.md and 95_test_vectors.md 2.1 (V-E1 to V-E10) -/

/-- `00000 000 0 0100000 00000000 00000000 00000001` (R61). -/
theorem test_decode_quick : decodeTableWord 40 0b0000000000100000000000000000000000000001 = some (.quick 0 0x20 0x01) := by decide
theorem test_decode_sendByte : decodeTableWord 40 0b0000000100100001000000000000000001011010 = some (.sendByte 0 0x21 0x5A) := by
  decide
theorem test_decode_receiveByte : decodeTableWord 40 0b0000001001001000000000000000000000000000 = some (.receiveByte 0 0x48) := by
  decide
theorem test_decode_writeByte :
    decodeTableWord 40 0b0000001100001000110011000000000010111011 = some (.writeByte 0 0x08 0xCC 0xBB) := by decide
theorem test_decode_readByte : decodeTableWord 40 0b0000010001000000000001010000000000000000 = some (.readByte 0 0x40 0x05) := by
  decide
theorem test_decode_writeWord :
    decodeTableWord 40 0b0000010101010000000100001011111011101111 = some (.writeWord 0 0x50 0x10 0xBEEF) := by decide
theorem test_decode_readWord : decodeTableWord 40 0b0000011001000000011101110000000000000000 = some (.readWord 0 0x40 0x77) := by
  decide
theorem test_decode_init : decodeTableWord 0 3 = some (.init 3) := by decide
theorem test_decode_evtBusError : decodeTableWord 16 0b0000000000010010 = some (.evtBusError 0x12) := by decide
theorem test_decode_evtStartSent : decodeTableWord 16 0b0000100000010010 = some (.evtStartSent 0x12) := by decide
theorem test_decode_evtRepStartSent : decodeTableWord 16 0b0001000000010010 = some (.evtRepStartSent 0x12) := by decide
theorem test_decode_evtAddrWAck : decodeTableWord 16 0b0001100000010010 = some (.evtAddrWAck 0x12) := by decide
theorem test_decode_evtAddrWNak : decodeTableWord 16 0b0010000000010010 = some (.evtAddrWNak 0x12) := by decide
theorem test_decode_evtDataWAck : decodeTableWord 16 0b0010100000010010 = some (.evtDataWAck 0x12) := by decide
theorem test_decode_evtDataWNak : decodeTableWord 16 0b0011000000010010 = some (.evtDataWNak 0x12) := by decide
theorem test_decode_evtArbLost : decodeTableWord 16 0b0011100000010010 = some (.evtArbLost 0x12) := by decide
theorem test_decode_evtAddrRAck : decodeTableWord 16 0b0100000000010010 = some (.evtAddrRAck 0x12) := by decide
theorem test_decode_evtAddrRNak : decodeTableWord 16 0b0100100000010010 = some (.evtAddrRNak 0x12) := by decide
theorem test_decode_evtDataRxAck : decodeTableWord 16 0b0101000000110100 = some (.evtDataRxAck 0x34) := by decide
theorem test_decode_evtDataRxNak : decodeTableWord 16 0b0101100000010010 = some (.evtDataRxNak 0x12) := by decide
theorem test_decode_evtOther : decodeTableWord 16 0b0110000000010010 = some (.evtOther 0x60 0x12) := by decide

/-- V-E8 to V-E10, and the four higher reserved bits: refused by name. -/
theorem test_decode_refuses_reserved :
    decodeReq40 0 0x0700000000 = .error .reservedOpcode ∧ decodeReq40 0 0x0388CC00BB = .error .reservedBit31 ∧
    decodeReq40 0 0x0B08CC00BB = .error .reservedHighBits ∧ decodeReq40 0 0x8308CC00BB = .error .reservedHighBits := by decide

/-- 95_test_vectors.md 2.1: don't-care fields are written 00. -/
theorem test_encode_words :
    encode (.quick 0 0x20 0x01) = .req40 0 0x0020000001 ∧ encode (.writeWord 0 0x50 0x10 0xBEEF) = .req40 0 0x055010BEEF ∧
    encode (.evtDataRxAck 0x34) = .evt16 0x5034 := by decide

/-- 95_test_vectors.md 2.1, address bytes; RSP24 after V-E7 is 00_12_34. -/
theorem test_operands :
    addrByte 0x08 0 = 0x10 ∧ addrByte 0x7F 1 = 0xFF ∧ lowByte 0xBEEF = 0xEF ∧ highByte 0xBEEF = 0xBE ∧
    ({ dsc .readWord 0x40 0x77 0x34 0x12 with status := 0x00 } : Descriptor).rsp24 = 0x001234 := by decide

/-! ### The operations and submit-and-wait -/

/-- V-M1: the first field write; the other fields keep their values. -/
theorem test_exec_receiveByte_first_write :
    (nextOf (exec (.receiveByte 0 0x48) { State.reset with descs := descsOf .writeWord })).map (fun t => t.descs[0]?) =
      some (some (dsc .receiveByte 0x50 0x10 0xEF 0xBE)) := by decide

/-- V-M1: the fill step of receive_byte ends with the address, before S1. -/
theorem test_run_fill_address :
    (nextOf ((insideAt (.fill (.address 0x48) [])).runRequester 1)).map (fun t => (t.descs[0]?, (t.requester 1).op)) =
      some (some (dsc .quick 0x48 0x10 0xEF 0xBE), some (opAt .s1)) := by decide

/-- R86: the low byte of data16 is written to payload[0], the high byte to payload[1], in this order. -/
theorem test_exec_writeWord_fill_order :
    (nextOf (exec (.writeWord 0 0x50 0x10 0xBEEF) State.reset)).map (fun t => (t.requester 0).op) =
      some (some (opAt (.fill (.address 0x50) [.command 0x10, .payload0 0xEF, .payload1 0xBE]))) := by decide

/-- V-M2: a queue with room, and a full one. -/
theorem test_run_s2 :
    (nextOf (({ insideAt .s2 with queue := [3] } : State).runRequester 1)).map (·.queue) = some [3, 0] ∧
    (nextOf (({ insideAt .s2 with queue := [3, 4] } : State).runRequester 1)).map (fun t => (t.queue, t.requester 1)) =
      some ([3, 4], { op := none, ret := some 0x06 }) := by decide

/-- V-M3. -/
theorem test_run_s3 :
    newCmds (insideAt .s3) ((insideAt .s3).runRequester 1) = some [.start] ∧
    newCmds { insideAt .s3 with busy := true } (({ insideAt .s3 with busy := true } : State).runRequester 1) = some [] := by
  decide

/-- V-M6. -/
theorem test_exec_init :
    (nextOf (exec (.init 4) before)).map (fun t => (t.queueCapacity, t.initialised, t.cmds)) = some (4, true, [.configure]) ∧
    refusalOf (exec (.init 0) before) = some .capacityZero ∧ refusalOf (exec (.init 4) State.reset) = some .alreadyInitialised ∧
    refusalOf (exec (.quick 0 0x20 0x01) before) = some .notInitialised := by decide

/-! ### The sequencer: rows of the table of 95_test_vectors.md 2.3 -/

/-- V-S3. -/
theorem test_faults_without_active_descriptor :
    faultOf (exec (.evtStartSent 0) State.reset) = some .noActiveDescriptor ∧
    faultOf (exec (.evtBusError 0) { State.reset with busy := true, queue := [0] }) = some .noActiveDescriptor := by decide

/-- V-S3 and the example of R102: the queue head becomes active. -/
theorem test_exec_evtStartSent_activates :
    (nextOf (exec (.evtStartSent 0) { State.reset with descs := descsOf .writeByte, busy := true, queue := [0] })).map
      (fun t => (t.cur, t.queue, t.cmds, t.lastPhase)) = some (some 0, [], [.configure, .clearStart, .tx 0xA0], 0xF8) := by decide

/-- V-S4: a start after an arbitration loss resets nothing. -/
theorem test_exec_evtStartSent_retry :
    (nextOf (exec (.evtStartSent 0) { counted .writeWord 0x38 1 0 with arbLost := true })).map
      (fun t => (t.wrCnt, t.arbLost, t.lastPhase, t.phase)) = some (1, true, 0x38, 0x08) := by decide

theorem test_exec_evtBusError : status0 (exec (.evtBusError 0) (activeAt .writeByte 0x08)) = some 0x04 := by decide
theorem test_exec_evtRepStartSent :
    newCmds (activeAt .readWord 0x28) (exec (.evtRepStartSent 0) (activeAt .readWord 0x28)) = some [.clearStart, .tx 0xA1] ∧
    newCmds (activeAt .readWord 0x38) (exec (.evtRepStartSent 0) (activeAt .readWord 0x38)) = some [.clearStart, .tx 0xA0] := by
  decide
theorem test_exec_evtAddrWAck :
    newCmds (activeAt .sendByte 0x08) (exec (.evtAddrWAck 0) (activeAt .sendByte 0x08)) = some [.tx 0xEF] ∧
    newCmds (activeAt .readByte 0x08) (exec (.evtAddrWAck 0) (activeAt .readByte 0x08)) = some [.tx 0x10] ∧
    status0 (exec (.evtAddrWAck 0) (activeAt .quick 0x08)) = some 0x00 ∧
    status0 (exec (.evtAddrWAck 0) (activeAt .receiveByte 0x08)) = some 0x05 := by decide
theorem test_exec_evtAddrWNak : status0 (exec (.evtAddrWNak 0) (activeAt .quick 0x08)) = some 0x01 := by decide

/-- The example of R106. -/
theorem test_exec_evtDataWAck_writeWord :
    newCmds State.reset (exec (.evtDataWAck 0) (counted .writeWord 0x18 0 0)) = some [.tx 0xEF] ∧
    newCmds State.reset (exec (.evtDataWAck 0) (counted .writeWord 0x28 1 0)) = some [.tx 0xBE] ∧
    newCmds State.reset (exec (.evtDataWAck 0) (counted .writeWord 0x28 2 0)) = some [.stop] := by decide
theorem test_exec_evtDataWAck_others :
    newCmds State.reset (exec (.evtDataWAck 0) (activeAt .readWord 0x18)) = some [.start] ∧
    status0 (exec (.evtDataWAck 0) (activeAt .quick 0x18)) = some 0x05 ∧
    status0 (exec (.evtDataWAck 0) (counted .writeByte 0x28 1 0)) = some 0x00 := by decide
theorem test_exec_evtDataWNak : status0 (exec (.evtDataWNak 0) (activeAt .writeWord 0x28)) = some 0x03 := by decide
theorem test_exec_evtArbLost :
    (nextOf (exec (.evtArbLost 0) (counted .writeWord 0x28 1 0))).map (fun t => (t.arbLost, t.wrCnt, t.cmds, t.cur)) =
      some (true, 1, [.configure, .start], some 0) := by decide
theorem test_exec_evtAddrRAck :
    newCmds State.reset (exec (.evtAddrRAck 0) (activeAt .readWord 0x10)) = some [.ackOn] ∧
    newCmds State.reset (exec (.evtAddrRAck 0) (activeAt .receiveByte 0x08)) = some [.ackOff] ∧
    newCmds State.reset (exec (.evtAddrRAck 0) (activeAt .writeByte 0x08)) = some [.ackOn] := by decide
theorem test_exec_evtAddrRNak : status0 (exec (.evtAddrRNak 0) (activeAt .readWord 0x10)) = some 0x02 := by decide

/-- V-S1 with the example of R110. -/
theorem test_exec_evtDataRxAck :
    (nextOf (exec (.evtDataRxAck 0x34) (activeAt .readWord 0x40))).map (fun t => (t.descs[0]?, t.rdCnt)) =
      some (some (dsc .readWord 0x50 0x10 0x34 0xBE), 1) ∧
    status0 (exec (.evtDataRxAck 0x34) (activeAt .readByte 0x40)) = some 0x05 := by decide

/-- V-S1 with the example of R111. -/
theorem test_exec_evtDataRxNak :
    (nextOf (exec (.evtDataRxNak 0x12) (counted .readWord 0x50 0 1))).map (fun t => (t.descs[0]?, t.rdCnt, t.busy)) =
      some (some { dsc .readWord 0x50 0x10 0xEF 0x12 with status := 0x00, done := true }, 2, false) ∧
    faultOf (exec (.evtDataRxNak 0x12) (counted .readWord 0x50 0 2)) = some .payloadOverrun := by decide

/-- V-S7: the offending code stays in `phase`. -/
theorem test_exec_evtOther :
    (nextOf (exec (.evtOther 0x60 0) (activeAt .readByte 0x08))).map (fun t => (t.phase, t.descs[0]?.map (·.status))) =
      some (0x60, some 0x05) := by decide

/-- V-S2: the terminal sequence chains to the queue head. -/
theorem test_terminal_chains :
    (nextOf (exec (.evtDataWNak 0) { activeAt .writeWord 0x28 with queue := [1] })).map
      (fun t => (t.cmds, t.cur, t.queue, t.busy)) = some ([.configure, .stop, .start], some 1, [], true) := by decide

/-! ### The bridge -/

/-- Requester 1 waits on descriptor 0, whose flag is set, with this status. -/
def completed (status : Byte) : State :=
  { insideAt (.s4 0) with descs := [{ dsc .quick 0 0 0 0 with done := true, status := status }] }

/-- V-B2 with V-M4 and P6: the wait ends at once when the flag is set, with no delay after success, and with the delay after an error or
with the sentinel still there (a stale notification). -/
theorem test_run_s4_completion :
    (nextOf ((completed 0x00).runRequester 1)).map (fun t => (t.descs[0]?.map (·.done), (t.requester 1).op)) =
      some (some false, some (opAt .s6)) ∧
    (nextOf ((completed 0x03).runRequester 1)).map (fun t => (t.requester 1).op) = some (some (opAt (.s5Delay 0))) ∧
    (nextOf ((completed 0x07).runRequester 1)).map (fun t => (t.requester 1).op) = some (some (opAt (.s5Delay 0))) := by decide

/-- V-B2: without time the wait may time out while the flag is 0; V-M4: then the delay applies whatever the status is. -/
theorem test_run_s4_timeout :
    (nextOf ((insideAt (.s4 0)).runRequester 1)).map (fun t => (t.requester 1).op) =
      some (some { handle := 0, pos := .s5, timedOut := true }) ∧
    (∀ status ∈ [(0x00 : Byte), 0x07],
      (((insideAt .s5).stepS5 1 { handle := 0, pos := .s5, timedOut := true }
        { dsc .quick 0 0 0 0 with status := status }).requester 1).op =
          some { handle := 0, pos := .s5Delay 0, timedOut := true }) := by decide

/-- V-B3: stub and handler of DEFERRED mode, after a kick. -/
def deferredKicked : State :=
  { State.reset with params := { Config.params with dispatchMode := .deferred }, descs := [dsc .writeByte 0x08 0xCC 0xBB 0],
                     busy := true, queue := [0], pending := some 0x0800, inputs := [.interrupt, .handler] }

theorem test_stub_and_handler :
    (nextOf (step deferredKicked)).map (fun t => (t.irqEn, t.deferSig, t.yieldReq, t.pending)) =
      some (false, true, true, some 0x0800) ∧
    ((nextOf (step deferredKicked)).bind (fun t => nextOf (step t))).map
      (fun t => (t.irqEn, t.deferSig, t.cur, t.cmds)) =
        some (true, false, some 0, [.configure, .clearStart, .tx 0x10]) := by decide

/-- The host's fetch place: the very next step from reset runs the placed word. -/
theorem test_withFetchWord_request :
    (nextOf (step (State.reset.withFetchWord 40 0x0308CC00BB))).map (fun t => t.descs[0]?.map (·.opcode)) =
      some (some .writeByte) := by decide

/-! ### Witnesses: for every statement with hypotheses, a state and operands that meet them -/

/-- Both of the checks of `wf` at their boundary. -/
theorem witness_DecodeGivesBackEveryEncodedInstruction :
    (Instr.init 1).wf = true ∧ (Instr.evtOther 0x01 0xFF).wf = true ∧ (Instr.readWord 3 0x7F 0xFF).wf = true := by decide

/-- Every row, with every operand bit set. -/
theorem witness_RequestWordFieldsAreWhereTheTableHasThem :
    0x007FFFFFFF &&& 0xFF80000000#40 = rowMatch .quick ∧ 0x017FFFFFFF &&& 0xFF80000000#40 = rowMatch .sendByte ∧
    0x027FFFFFFF &&& 0xFF80000000#40 = rowMatch .receiveByte ∧ 0x037FFFFFFF &&& 0xFF80000000#40 = rowMatch .writeByte ∧
    0x047FFFFFFF &&& 0xFF80000000#40 = rowMatch .readByte ∧ 0x057FFFFFFF &&& 0xFF80000000#40 = rowMatch .writeWord ∧
    0x067FFFFFFF &&& 0xFF80000000#40 = rowMatch .readWord := by decide

theorem witness_WordsAreLittleEndianInThePayload :
    (dsc .writeWord 0 0 0xEF 0xBE).payload0 = lowByte 0xBEEF ∧ (dsc .writeWord 0 0 0xEF 0xBE).payload1 = highByte 0xBEEF := by
  decide

theorem witness_InitSetsEveryRegisterItNames : before.initialised = false ∧ 1 ≤ 1 := by decide

/-- One state for each clause of the refused operations: out of range at the boundary, inside an operation, in use, queued, active, and
the channel not empty. -/
theorem witness_BrokenPreconditionsAreRefused :
    State.reset.initialised = true ∧ before.initialised = false ∧ (∀ c, Instr.quick 0 0 0 ≠ .init c) ∧
    fillOf (.quick 4 0 0) = some (4, [.opcode .quick, .address 0, .payload0 0]) ∧ State.reset.nDesc = 4 ∧
    (let s := ({ insideAt .s1 with turn := 1 } : State)
     s.initialised = true ∧ 1 < s.nDesc ∧ (s.requester s.turn).op ≠ none) ∧
    (let s := insideAt .s1
     0 < s.nDesc ∧ (s.requester s.turn).op = none ∧ (s.requester 1).op = some (opAt .s1) ∧ (opAt .s1).handle = 0) ∧
    (let s := ({ State.reset with queue := [3] } : State)
     3 < s.nDesc ∧ (s.requester s.turn).op = none ∧ s.inUse 3 = false ∧ 3 ∈ s.queue) ∧
    (let s := ({ State.reset with cur := some 0 } : State)
     0 < s.nDesc ∧ (s.requester s.turn).op = none ∧ s.inUse 0 = false ∧ s.cur = some 0) ∧
    (let d := ({ Descriptor.fresh with done := true } : Descriptor)
     let s := ({ State.reset with descs := [d] } : State)
     s.descs[0]? = some d ∧ (s.requester s.turn).op = none ∧ s.inUse 0 = false ∧ 0 ∉ s.queue ∧ s.cur ≠ some 0 ∧
       d.used = false ∧ d.done = true) := by
  refine ⟨by decide, by decide, by intro c; simp, by decide, by decide, by decide, by decide, by decide, by decide, by decide⟩

theorem witness_HandlesThatNameNoDescriptorStopTheStep :
    (let s := ({ State.reset with cur := some 4 } : State)
     isEvent (.evtAddrWAck 0) = true ∧ s.initialised = true ∧ s.cur = some 4 ∧ s.nDesc ≤ 4) ∧
    (let s := ({ State.reset with queue := [4] } : State)
     s.initialised = true ∧ s.cur = none ∧ s.queue = [4] ∧ s.phase ≠ 0x38 ∧ s.nDesc ≤ 4) ∧
    (let s := ({ insideAt .s1 with descs := [] } : State)
     s.initialised = true ∧ (s.requester 1).op = some (opAt .s1) ∧ s.nDesc ≤ (opAt .s1).handle) ∧
    (State.reset.initialised = true ∧ State.reset.nDesc ≤ 4) := by decide

theorem witness_StepRunsTheDecodedInstruction :
    decode (.req40 0 0x0308CC00BB) = .ok (.writeByte 0 0x08 0xCC 0xBB) ∧ decode (.req40 0 0x0700000000) = .error .reservedOpcode ∧
    (let s := ({ State.reset with inputs := [.call 1 0 0x0308CC00BB] } : State)
     s.inputs = .call 1 0 0x0308CC00BB :: []) ∧
    (let s := ({ activeAt .quick 0x08 with pending := some 0x1800, inputs := [.interrupt] } : State)
     s.inputs = .interrupt :: [] ∧ s.params.dispatchMode = .direct ∧ s.initialised = true ∧ s.irqEn = true ∧
       s.pending = some 0x1800) ∧
    (let s := ({ deferredKicked with irqEn := false, deferSig := true, inputs := [.handler] } : State)
     s.inputs = .handler :: [] ∧ s.params.dispatchMode = .deferred ∧ s.initialised = true ∧ s.deferSig = true ∧
       s.pending = some 0x0800) ∧
    State.reset.inputs = [] := by decide

theorem witness_PlacedWordIsRunByTheVeryNextStep :
    decodeTableWord 40 0x0308CC00BB = some (.writeByte 0 0x08 0xCC 0xBB) ∧
    (State.reset.initialised = true ∧ State.reset.params.dispatchMode = .direct ∧
      decodeTableWord 16 0x0800 = some (.evtStartSent 0)) ∧
    (deferredKicked.initialised = true ∧ deferredKicked.params.dispatchMode = .deferred) := by decide

/-- A call is allowed: for the first operation at reset, and with another requester inside an operation on another descriptor. -/
theorem witness_EachOperationBeginsWithItsFillStep :
    fillOf (.readWord 1 0x40 0x77) = some (1, .opcode .readWord :: .address 0x40 :: [.command 0x77]) ∧
    MayCall State.reset State.reset.turn 1 Descriptor.fresh ∧
    MayCall (insideAt (.s4 0)) (insideAt (.s4 0)).turn 1 (dsc .sendByte 0x21 0x00 0x5A 0x00) := by
  refine ⟨by decide, ?_, ?_⟩
  · unfold MayCall
    exact ⟨by decide, by decide, by decide, by intro e he; simp [State.reset] at he, by decide, by decide, by decide⟩
  · unfold MayCall
    refine ⟨by decide, by decide, by decide, ?_, by decide, by decide, by decide⟩
    intro e he o ho
    simp only [insideAt, List.mem_singleton] at he
    subst he
    simp only [Option.some.injEq] at ho
    subst ho
    decide

theorem mayCall_reset (who : Who) : MayCall State.reset who 1 Descriptor.fresh := by
  unfold MayCall
  exact ⟨by decide, by decide, rfl, by intro e he; simp [State.reset] at he, by decide, by decide, by decide⟩

theorem witness_UndisturbedSubmissionFillsEnqueuesAndKicks :
    encode (.writeByte 1 0x08 0xCC 0xBB) = .req40 1 0x0308CC00BB ∧
    fillOf (.writeByte 1 0x08 0xCC 0xBB) = some (1, [.opcode .writeByte, .address 0x08, .command 0xCC, .payload0 0xBB]) ∧
    MayCall State.reset 7 1 Descriptor.fresh ∧ State.reset.queue.length ≠ State.reset.queueCapacity :=
  ⟨by decide, by decide, mayCall_reset 7, by decide⟩

/-- A full queue: two other handles wait behind nothing. -/
theorem witness_FullQueueReturnsOverloadedAndTouchesNoController :
    encode (.quick 1 0x20 0x01) = .req40 1 0x0020000001 ∧
    fillOf (.quick 1 0x20 0x01) = some (1, [.opcode .quick, .address 0x20, .payload0 0x01]) ∧
    MayCall { State.reset with busy := true, queue := [2, 3] } 7 1 Descriptor.fresh ∧
    ({ State.reset with busy := true, queue := [2, 3] } : State).queue.length = State.reset.queueCapacity := by
  refine ⟨by decide, by decide, ?_, by decide⟩
  unfold MayCall
  exact ⟨by decide, by decide, rfl, by intro e he; simp [State.reset] at he, by decide, by decide, by decide⟩

theorem inside_witness (pos : Pos) : InsideAt (insideAt pos) 1 (opAt pos) (dsc .quick 0x50 0x10 0xEF 0xBE) :=
  ⟨rfl, rfl, rfl⟩

/-- For every position of an operation there is a requester inside it: the hypotheses of the statements about the fill step and S1 to S6. -/
theorem witness_FillStepWritesOneFieldAMove :
    InsideAt (insideAt (.fill (.address 0x48) [.command 0x77])) 1
      { handle := 0, pos := .fill (.address 0x48) [.command 0x77], timedOut := false } (dsc .quick 0x50 0x10 0xEF 0xBE) :=
  inside_witness _
theorem witness_SubmitStep1WritesTheSentinelOnly :
    InsideAt (insideAt .s1) 1 (opAt .s1) (dsc .quick 0x50 0x10 0xEF 0xBE) ∧ (opAt .s1).pos = .s1 := ⟨inside_witness _, rfl⟩
theorem witness_SubmitStep2EnqueuesOrReturnsOverloaded :
    InsideAt (insideAt .s2) 1 (opAt .s2) (dsc .quick 0x50 0x10 0xEF 0xBE) ∧ (opAt .s2).pos = .s2 := ⟨inside_witness _, rfl⟩
theorem witness_SubmitStep3KicksOnlyAnIdleController :
    InsideAt (insideAt .s3) 1 (opAt .s3) (dsc .quick 0x50 0x10 0xEF 0xBE) ∧ (opAt .s3).pos = .s3 := ⟨inside_witness _, rfl⟩
theorem witness_SubmitStep4EndsByCompletionOrTimeout :
    InsideAt (completed 0x00) 1 (opAt (.s4 0)) { dsc .quick 0 0 0 0 with done := true, status := 0x00 } ∧
    InsideAt (completed 0x07) 1 (opAt (.s4 0)) { dsc .quick 0 0 0 0 with done := true, status := 0x07 } ∧
    InsideAt (insideAt (.s4 0)) 1 (opAt (.s4 0)) (dsc .quick 0x50 0x10 0xEF 0xBE) ∧ (opAt (.s4 0)).pos = .s4 0 ∧
    InsideAt (insideAt (.s4 1)) 1 (opAt (.s4 1)) (dsc .quick 0x50 0x10 0xEF 0xBE) ∧ (opAt (.s4 1)).pos = .s4 1 :=
  ⟨⟨rfl, rfl, rfl⟩, ⟨rfl, rfl, rfl⟩, inside_witness _, rfl, inside_witness _, rfl⟩
theorem witness_SubmitSteps5And6DelayAndReturnTheStatus :
    InsideAt (insideAt .s5) 1 (opAt .s5) (dsc .quick 0x50 0x10 0xEF 0xBE) ∧
    InsideAt (insideAt (.s5Delay 0)) 1 (opAt (.s5Delay 0)) (dsc .quick 0x50 0x10 0xEF 0xBE) ∧
    InsideAt (insideAt (.s5Delay 1)) 1 (opAt (.s5Delay 1)) (dsc .quick 0x50 0x10 0xEF 0xBE) ∧
    InsideAt (insideAt .s6) 1 (opAt .s6) (dsc .quick 0x50 0x10 0xEF 0xBE) :=
  ⟨inside_witness _, inside_witness _, inside_witness _, inside_witness _⟩

theorem witness_TimeRunsOnlyTheRequestersTimers :
    ({ insideAt (.s4 1) with inputs := [.tick] } : State).inputs = .tick :: [] := rfl

theorem witness_OwnerWritesItsNameAndDrainsItsChannel :
    State.reset.initialised = true ∧ 3 < State.reset.nDesc ∧ (State.reset.requester 1).op = none ∧
    State.reset.inUse 3 = false := by decide

theorem active_witness (o : Opcode) (ph : Byte) : Active (activeAt o ph) 0 (dsc o 0x50 0x10 0xEF 0xBE) := ⟨rfl, rfl, rfl⟩

/-- An active descriptor of every opcode, with any last event: the hypotheses of the statements about the events. -/
theorem witness_ErrorEventsEndTheTransactionWithTheirStatus :
    Active (activeAt .quick 0x08) 0 (dsc .quick 0x50 0x10 0xEF 0xBE) := active_witness _ _
theorem witness_StartSentActivatesAndSendsTheAddress :
    (Active (activeAt .receiveByte 0x28) 0 (dsc .receiveByte 0x50 0x10 0xEF 0xBE) ∧ (activeAt .receiveByte 0x28).phase ≠ 0x38) ∧
    (Active (activeAt .writeWord 0x38) 0 (dsc .writeWord 0x50 0x10 0xEF 0xBE) ∧ (activeAt .writeWord 0x38).phase = 0x38) ∧
    (let s := ({ State.reset with descs := descsOf .quick, busy := true, queue := [0, 1] } : State)
     s.initialised = true ∧ s.cur = none ∧ s.queue = 0 :: [1] ∧ s.descs[0]? = some (dsc .quick 0x50 0x10 0xEF 0xBE) ∧
       s.phase ≠ 0x38) :=
  ⟨⟨active_witness _ _, by decide⟩, ⟨active_witness _ _, by decide⟩, by decide⟩
theorem witness_RepeatedStartSendsTheReadAddressOrResumes :
    Active (activeAt .readByte 0x28) 0 (dsc .readByte 0x50 0x10 0xEF 0xBE) ∧
    Active (activeAt .readByte 0x38) 0 (dsc .readByte 0x50 0x10 0xEF 0xBE) := ⟨active_witness _ _, active_witness _ _⟩
theorem witness_WriteAddressAckBranchesOnTheOpcode (o : Opcode) :
    Active (activeAt o 0x08) 0 (dsc o 0x50 0x10 0xEF 0xBE) := active_witness _ _
theorem witness_WriteDataAckSendsTheNextByteOrEnds (o : Opcode) (wr : BitVec 2) :
    Active (counted o 0x28 wr 0) 0 (dsc o 0x50 0x10 0xEF 0xBE) := ⟨rfl, rfl, rfl⟩
theorem witness_ArbitrationLossReissuesTheStart :
    Active (activeAt .writeWord 0x28) 0 (dsc .writeWord 0x50 0x10 0xEF 0xBE) := active_witness _ _
theorem witness_ReadAddressAckSetsTheAcknowledge (o : Opcode) :
    Active (activeAt o 0x10) 0 (dsc o 0x50 0x10 0xEF 0xBE) := active_witness _ _

/-- Below, at and above the payload's two bytes. -/
theorem witness_ReceivedByteWithAckIsStoredForReadWordOnly :
    (Active (counted .readWord 0x40 0 1) 0 (dsc .readWord 0x50 0x10 0xEF 0xBE) ∧ (counted .readWord 0x40 0 1).rdCnt < 2) ∧
    (Active (counted .readWord 0x40 0 2) 0 (dsc .readWord 0x50 0x10 0xEF 0xBE) ∧ 2 ≤ (counted .readWord 0x40 0 2).rdCnt) ∧
    (Active (activeAt .readByte 0x40) 0 (dsc .readByte 0x50 0x10 0xEF 0xBE) ∧
      (dsc .readByte 0x50 0x10 0xEF 0xBE).opcode ≠ .readWord) :=
  ⟨⟨⟨rfl, rfl, rfl⟩, by decide⟩, ⟨⟨rfl, rfl, rfl⟩, by decide⟩, ⟨active_witness _ _, by decide⟩⟩
theorem witness_ReceivedByteWithNakIsStoredAndEnds :
    (Active (counted .readWord 0x50 0 1) 0 (dsc .readWord 0x50 0x10 0xEF 0xBE) ∧ (counted .readWord 0x50 0 1).rdCnt < 2) ∧
    (Active (counted .readWord 0x50 0 2) 0 (dsc .readWord 0x50 0x10 0xEF 0xBE) ∧ 2 ≤ (counted .readWord 0x50 0 2).rdCnt) :=
  ⟨⟨⟨rfl, rfl, rfl⟩, by decide⟩, ⟨⟨rfl, rfl, rfl⟩, by decide⟩⟩

theorem witness_WriteTransactionsSendTheirBytesInOrder :
    ∀ o ∈ [Opcode.quick, .sendByte, .writeByte, .writeWord],
      Active (activeAt o 0xF8) 0 (dsc o 0x50 0x10 0xEF 0xBE) ∧ (activeAt o 0xF8).phase ≠ 0x38 ∧ (activeAt o 0xF8).queue = [] ∧
        (dsc o 0x50 0x10 0xEF 0xBE).opcode = o := by
  intro o _
  exact ⟨active_witness _ _, by simp [activeAt], rfl, rfl⟩
theorem witness_ReadTransactionsStoreTheirBytesInOrder :
    ∀ o ∈ [Opcode.receiveByte, .readByte, .readWord],
      Active (activeAt o 0xF8) 0 (dsc o 0x50 0x10 0xEF 0xBE) ∧ (activeAt o 0xF8).phase ≠ 0x38 ∧ (activeAt o 0xF8).queue = [] ∧
        (dsc o 0x50 0x10 0xEF 0xBE).opcode = o := by
  intro o _
  exact ⟨active_witness _ _, by simp [activeAt], rfl, rfl⟩
theorem witness_ArbitrationRetryResumesWithItsCounters :
    Active (counted .writeWord 0x28 1 0) 0 (dsc .writeWord 0x50 0x10 0xEF 0xBE) := ⟨rfl, rfl, rfl⟩

theorem witness_InterruptStubMasksTheLineAndHandsOff :
    (let s := ({ State.reset with inputs := [.raise 0x0800] } : State)
     s.inputs = .raise 0x0800 :: [] ∧ s.initialised = true ∧ s.pending = none) ∧
    (let s := ({ State.reset with inputs := [.raise 0x0800], pending := some 0x1800 } : State)
     s.inputs = .raise 0x0800 :: [] ∧ s.initialised = true ∧ s.pending ≠ none) ∧
    (let s := ({ before with inputs := [.raise 0x0800] } : State)
     s.inputs = .raise 0x0800 :: [] ∧ s.initialised = false) ∧
    (deferredKicked.inputs = .interrupt :: [.handler] ∧ deferredKicked.params.dispatchMode = .deferred ∧
      deferredKicked.initialised = true ∧ deferredKicked.irqEn = true ∧ deferredKicked.pending = some 0x0800) ∧
    (let s := ({ deferredKicked with irqEn := false, deferSig := true } : State)
     s.inputs = .interrupt :: [.handler] ∧ s.irqEn = false) := by decide

theorem witness_AgentsWithNoEnabledStepChangeNothing :
    (let s := ({ State.reset with inputs := [.run 1] } : State)
     s.inputs = .run 1 :: [] ∧ (s.requester 1).op = none) ∧
    (let s := ({ before with inputs := [.interrupt], pending := some 0x0800 } : State)
     s.inputs = .interrupt :: [] ∧ s.initialised = false) ∧
    (let s := ({ State.reset with inputs := [.interrupt] } : State)
     s.inputs = .interrupt :: [] ∧ s.pending = none) ∧
    (let s := ({ deferredKicked with inputs := [.handler] } : State)
     s.inputs = .handler :: [] ∧ s.deferSig = false) := by decide

/-! ### A state in which every invariant has something to say -/

/-- Descriptor 0 (Quick) is active and its address has just been acknowledged; its requester 2 waits; requester 1 has enqueued
descriptor 1 and is at the kick; the next move takes the interrupt. -/
def midway : State :=
  { State.reset with
    descs := [dsc .quick 0x20 0 0x01 0, dsc .sendByte 0x21 0x00 0x5A 0x00], busy := true, cur := some 0, queue := [1],
    phase := 0x08, cmds := [.configure, .start, .clearStart, .tx 0x40], pending := some 0x1800, inputs := [.interrupt],
    requesters := [(1, { op := some { handle := 1, pos := .s3, timedOut := false }, ret := none }),
                   (2, { op := some { handle := 0, pos := .s4 0, timedOut := false }, ret := none })] }

/-- The block is idle, and requester 1 has enqueued descriptor 0 and kicks next. -/
def kicking : State := { insideAt .s3 with queue := [0], inputs := [.run 1] }

theorem midway_steps : ∃ t, step midway = .next t := next_of_isSome (by decide)
theorem kicking_steps : ∃ t, step kicking = .next t := next_of_isSome (by decide)

/-- What the two requesters of `midway` do. -/
theorem midway_op {who : Who} {o : Op} (h : (midway.requester who).op = some o) :
    (who = 1 ∧ o = { handle := 1, pos := .s3, timedOut := false }) ∨
    (who = 2 ∧ o = { handle := 0, pos := .s4 0, timedOut := false }) := by
  simp only [midway, State.requester, lookupRequester] at h
  split at h
  · rename_i e
    simp only [Option.some.injEq] at h
    exact .inl ⟨e.symm, h.symm⟩
  · split at h
    · rename_i e
      simp only [Option.some.injEq] at h
      exact .inr ⟨e.symm, h.symm⟩
    · simp [Requester.idle] at h

theorem midway_activeImpliesBusy : midway.activeImpliesBusy := ⟨fun _ => rfl, fun _ => rfl, fun _ => rfl⟩

theorem midway_raisesOnlyWhileBusy : midway.raisesOnlyWhileBusy := fun _ _ _ => rfl

theorem midway_lentOnce : midway.lentOnce := by
  refine ⟨by decide, ?_, ?_⟩
  · intro who o h hb
    rcases midway_op h with ⟨rfl, rfl⟩ | ⟨rfl, rfl⟩ <;> simp [Pos.beforeEnqueue] at hb
  · intro who who' o o' h h' e
    rcases midway_op h with ⟨rfl, rfl⟩ | ⟨rfl, rfl⟩ <;> rcases midway_op h' with ⟨rfl, rfl⟩ | ⟨rfl, rfl⟩ <;> simp at e ⊢

theorem midway_busInOrder : midway.busInOrder := by
  refine ⟨midway_activeImpliesBusy, midway_lentOnce, ?_, ?_⟩
  · intro w hw
    simp only [midway, Option.some.injEq] at hw
    subst hw
    decide
  · intro h d hc hd
    simp only [midway, Option.some.injEq] at hc
    subst hc
    simp only [midway, State.desc?, List.getElem?_cons_zero, Option.some.injEq] at hd
    subst hd
    exact ⟨fun h => absurd h (by decide), fun _ => by decide⟩

theorem midway_raisesInOrder : midway.raisesInOrder := by
  intro w rest h
  simp [midway] at h

theorem witness_EveryStepKeepsTheQueueWithinItsCapacity :
    midway.queueBounded ∧ ∃ t, step midway = .next t := ⟨by unfold State.queueBounded; decide, midway_steps⟩
theorem witness_EveryStepKeepsTheCountersInRange :
    midway.countersInRange ∧ ∃ t, step midway = .next t := ⟨by unfold State.countersInRange; decide, midway_steps⟩
theorem witness_EveryStepKeepsBusyWhileATransactionIsActive :
    midway.activeImpliesBusy ∧ midway.raisesOnlyWhileBusy ∧ ∃ t, step midway = .next t :=
  ⟨midway_activeImpliesBusy, midway_raisesOnlyWhileBusy, midway_steps⟩

/-- An event raised while a start is served. -/
theorem witness_raisesOnlyWhileBusy_of_a_raise :
    ({ State.reset with busy := true, inputs := [.raise 0x0800] } : State).raisesOnlyWhileBusy := fun _ _ _ => rfl

/-- An idle block with a queued handle whose requester is at the kick. -/
theorem witness_EveryStepStrandsNoQueuedHandle :
    kicking.activeImpliesBusy ∧ kicking.raisesOnlyWhileBusy ∧ kicking.noHandleStranded ∧ kicking.busy = false ∧
      kicking.queue ≠ [] ∧ ∃ t, step kicking = .next t := by
  refine ⟨⟨?_, ?_, ?_⟩, ?_, ?_, rfl, by decide, kicking_steps⟩
  · intro h; exact absurd rfl h
  · intro h; cases h
  · intro h; exact absurd rfl h
  · intro w rest h
    simp [kicking] at h
  · intro _ h hq
    simp only [kicking, List.mem_singleton] at hq
    subst hq
    exact ⟨1, opAt .s3, rfl, rfl, rfl⟩
theorem witness_EveryStepLendsADescriptorOnce : midway.lentOnce ∧ ∃ t, step midway = .next t := ⟨midway_lentOnce, midway_steps⟩
theorem witness_EveryStepKeepsHandlesInRange : midway.handlesInRange ∧ ∃ t, step midway = .next t := by
  refine ⟨⟨by decide, ?_, ?_⟩, midway_steps⟩
  · intro h hc
    simp only [midway, Option.some.injEq] at hc
    subst hc
    decide
  · intro who o h
    rcases midway_op h with ⟨rfl, rfl⟩ | ⟨rfl, rfl⟩ <;> decide

/-- In each mode. -/
theorem witness_EveryStepKeepsTheDispatchFlagsConsistent :
    (midway.dispatchConsistent ∧ ∃ t, step midway = .next t) ∧
    (deferredKicked.dispatchConsistent ∧ ∃ t, step deferredKicked = .next t) := by
  refine ⟨⟨fun _ => ⟨rfl, rfl⟩, midway_steps⟩, ⟨fun _ => ⟨rfl, ?_⟩, next_of_isSome (by decide)⟩⟩
  intro h
  cases h
theorem witness_EveryStepKeepsTheRequesterListCanonical :
    requestersWf midway.requesters ∧ ∃ t, step midway = .next t := ⟨by decide, midway_steps⟩
theorem witness_EveryStepKeepsTheBusInOrder :
    midway.busInOrder ∧ midway.raisesInOrder ∧ ∃ t, step midway = .next t :=
  ⟨midway_busInOrder, midway_raisesInOrder, midway_steps⟩

/-- An event a correct HBI may raise after a kick. -/
theorem witness_raisesInOrder_of_a_raise :
    ({ State.reset with busy := true, cmds := [.configure, .start], inputs := [.raise 0x0800] } : State).raisesInOrder := by
  intro w rest h
  simp only [List.cons.injEq, Move.raise.injEq] at h
  obtain ⟨rfl, _⟩ := h
  decide

/-- The active descriptor does not hold ST_UNEXPECTED before, and holds success after. -/
theorem witness_CorrectHbiNeverCausesAnUnexpectedStatus :
    midway.busInOrder ∧ (∃ t d d', step midway = .next t ∧ midway.descs[0]? = some d ∧ t.descs[0]? = some d') := by
  obtain ⟨t, ht⟩ := midway_steps
  have hl : (nextOf (step midway)).map (fun t => t.descs[0]?.isSome) = some true := by decide
  rw [ht] at hl
  simp only [nextOf, Option.map_some, Option.some.injEq] at hl
  obtain ⟨d', hd'⟩ := Option.isSome_iff_exists.mp hl
  exact ⟨midway_busInOrder, t, _, d', ht, rfl, hd'⟩

/-- Each way the queue changes: a requester at S2 appends, the terminal sequence takes the head, `init` empties. -/
theorem witness_QueueIsFirstInFirstOut :
    (nextOf (step { insideAt .s2 with queue := [1], inputs := [.run 1] })).map (·.queue) = some [1, 0] ∧
    (nextOf (step midway)).map (fun t => (t.queue, t.cur)) = some ([], some 1) ∧
    (nextOf (step { before with queue := [1], inputs := [.init 1] })).map (·.queue) = some [] := by decide

/-- Both directions of `busy`. -/
theorem witness_BusyIsSetByTheKickAndClearedByTheTerminalSequence :
    (kicking.busy = false ∧ (nextOf (step kicking)).map (·.busy) = some true) ∧
    (let s := ({ midway with queue := [] } : State)
     s.busy = true ∧ s.initialised = true ∧ (nextOf (step s)).map (·.busy) = some false) := by decide

/-- Set by the terminal sequence; cleared by the wait and by the owner's drain. -/
theorem witness_DoneIsSetByTheSequencerAndClearedByAWait :
    (midway.descs[0]?.map (·.done) = some false ∧ (nextOf (step midway)).map (fun t => t.descs[0]?.map (·.done)) = some (some true)) ∧
    (let s := ({ insideAt (.s4 0) with descs := [{ dsc .quick 0 0 0 0 with done := true }], inputs := [.run 1] } : State)
     s.descs[0]?.map (·.done) = some true ∧ (nextOf (step s)).map (fun t => t.descs[0]?.map (·.done)) = some (some false)) ∧
    (let s := ({ State.reset with descs := [{ dsc .quick 0 0 0 0 with done := true }], inputs := [.drain 1 0] } : State)
     s.descs[0]?.map (·.done) = some true ∧ (nextOf (step s)).map (fun t => t.descs[0]?.map (·.done)) = some (some false)) := by
  decide

/-- Each writer of `status`. -/
theorem witness_StatusIsWrittenOnlyBySubmitStepsAndTheTerminalSequence :
    (nextOf (step { insideAt .s1 with descs := [Descriptor.fresh], inputs := [.run 1] })).map (fun t => t.descs[0]?.map (·.status)) =
      some (some 0x07) ∧
    (nextOf (step { insideAt .s2 with queueCapacity := 1, queue := [1], inputs := [.run 1] })).map
      (fun t => t.descs[0]?.map (·.status)) = some (some 0x06) ∧
    (nextOf (step midway)).map (fun t => t.descs[0]?.map (·.status)) = some (some 0x00) := by decide

/-- The active descriptor is lent, and a received byte is stored into it. -/
theorem witness_LentDescriptorIsTheSequencersAlone :
    midway.lentOnce ∧ midway.lent 0 = true ∧ midway.lent 1 = true ∧
    (let s := ({ activeAt .readWord 0x40 with pending := some 0x5034, inputs := [.interrupt] } : State)
     s.lent 0 = true ∧ (nextOf (step s)).map (fun t => (t.descs[0]?.map (·.payload0), t.rdCnt)) = some (some 0x34, 1)) :=
  ⟨midway_lentOnce, by decide, by decide, by decide⟩

/-- R2's constraints at their boundary: one descriptor, one slot, one unit of time; and before `init`, whatever the capacity is. -/
theorem witness_ConfigurationIsFixedAfterInit :
    (∃ t, step midway = .next t) ∧ midway.initialised = true ∧ midway.configWf ∧
    ({ State.reset with descs := [Descriptor.fresh], queueCapacity := 1,
                        params := { dispatchMode := .deferred, tWait := .units 1, tRecover := .units 1 } } : State).configWf ∧
    ({ before with queueCapacity := 0 } : State).configWf := by
  refine ⟨midway_steps, rfl, ?_, ?_, ?_⟩ <;> unfold State.configWf <;> decide

/-- R2: no descriptor, no slot and no time are each refused by `configWf`. -/
theorem test_configWf_refuses :
    ¬ ({ State.reset with descs := [] } : State).configWf ∧ ¬ ({ State.reset with queueCapacity := 0 } : State).configWf ∧
    ¬ ({ State.reset with params := { Config.params with tRecover := .units 0 } } : State).configWf := by
  refine ⟨?_, ?_, ?_⟩ <;> unfold State.configWf <;> decide

theorem witness_CommandsComeFromTheirIssuersOnly :
    (nextOf (step kicking)).map (·.cmds) = some [.configure, .start] ∧
    (nextOf (step midway)).map (fun t => t.cmds.drop 4) = some [.stop, .start] ∧
    (nextOf (step { before with inputs := [.init 1] })).map (·.cmds) = some [.configure] := by decide
theorem witness_EveryEventContinuesOrStopsTheTransaction :
    isEvent (.evtDataRxNak 0x12) = true ∧ Active (counted .readWord 0x50 0 1) 0 (dsc .readWord 0x50 0x10 0xEF 0xBE) ∧
    (counted .readWord 0x50 0 1).rdCnt < 2 := ⟨by decide, ⟨rfl, rfl, rfl⟩, by decide⟩

/-- An event pending in DIRECT mode, with the mode's flags. -/
theorem witness_DeferredDispatchEqualsDirectDispatch :
    midway.params.dispatchMode = .direct ∧ midway.dispatchConsistent ∧ midway.initialised = true ∧
    midway.pending = some 0x1800 := ⟨by decide, fun _ => ⟨rfl, rfl⟩, by decide, by decide⟩

end Sys2Proof.Tests
end

