-- ==== Sys2Proof/Proofs/Configuration.lean ====
section
/-! SUPPORT. The configuration of the block (R2, R3, R36) as one value: every update but `init` keeps it. Settles O58. -/

namespace Sys2Proof.Machine

/-- What `init` and the implementer fix: the parameters, `N_DESC`, `initialised` and `QUEUE_CAPACITY` (R2, R3, R36). -/
structure Configuration where
  params : Params
  nDesc : Nat
  initialised : Bool
  queueCapacity : Nat

def State.config (s : State) : Configuration :=
  { params := s.params, nDesc := s.nDesc, initialised := s.initialised, queueCapacity := s.queueCapacity }

theorem State.config_eq_iff {s t : State} :
    t.config = s.config ↔
      t.params = s.params ∧ t.nDesc = s.nDesc ∧ t.initialised = s.initialised ∧ t.queueCapacity = s.queueCapacity := by
  simp [State.config]

/-! ### The updates of the state -/

@[simp] theorem State.config_emit (s : State) (c : HwCmd) : (s.emit c).config = s.config := rfl

@[simp] theorem State.config_modDesc (s : State) (h : Handle) (f : Descriptor → Descriptor) :
    (s.modDesc h f).config = s.config := by
  simp [State.config, State.nDesc_modDesc]

@[simp] theorem State.config_setOp (s : State) (who : Who) (o : Op) : (s.setOp who o).config = s.config := rfl

@[simp] theorem State.config_returnFrom (s : State) (who : Who) (status : Byte) :
    (s.returnFrom who status).config = s.config := rfl

@[simp] theorem State.config_consume (s : State) (h : Handle) : (s.consume h).config = s.config :=
  State.config_modDesc s h _

@[simp] theorem State.config_recordPhase (s : State) (code : Byte) : (s.recordPhase code).config = s.config := rfl

@[simp] theorem State.config_kick (s : State) : s.kick.config = s.config := by
  unfold State.kick
  split <;> rfl

@[simp] theorem State.config_stubStep (s : State) : s.stubStep.config = s.config := by
  obtain h | ⟨-, -, -, -, h⟩ := s.stubStep_cases <;> rw [h]
  rfl

/-- The terminal sequence (R115) sets a status and moves the queue; it leaves the configuration. -/
@[simp] theorem State.config_terminal (s : State) (h : Handle) (st : Byte) : (s.terminal h st).config = s.config := by
  cases hq : s.queue with
  | nil => simp [State.terminal_idle h st hq, State.config_eq_iff, State.nDesc]
  | cons next rest => simp [State.terminal_chain h st hq, State.config_eq_iff, State.nDesc]

/-! ### Events and requesters' steps -/

theorem EventEffect.config_eq {s t : State} (e : EventEffect s t) : t.config = s.config := by
  cases e with
  | goesOn => rfl
  | activates => rfl
  | stores => simp [State.config_eq_iff, State.nDesc]
  | ends => simp
  | storesAndEnds =>
    rw [State.config_terminal]
    simp [State.config_eq_iff, State.nDesc]

theorem exec_event_config {w : BitVec 16} {s t : State} (e : exec (decodeEvt16 w) s = .next t) : t.config = s.config :=
  (exec_event_effect (decodeEvt16_event w) e).2.config_eq

@[simp] theorem State.config_stepS2 (s : State) (who : Who) (o : Op) : (s.stepS2 who o).config = s.config := by
  unfold State.stepS2
  by_cases hfull : s.queue.length = s.queueCapacity
  · simp [State.enqueue_full hfull]
  · simp only [State.enqueue_room hfull]
    rfl

@[simp] theorem State.config_stepS4 (s : State) (who : Who) (o : Op) (d : Descriptor) (left : Nat) :
    (s.stepS4 who o d left).config = s.config := by
  unfold State.stepS4
  split
  · simp [State.beginS5_eq]
  · split <;> rfl

theorem runRequester_config {s t : State} {who : Who} (e : s.runRequester who = .next t) : t.config = s.config := by
  obtain rfl | ⟨o, d, -, -, -, hstep⟩ := runRequester_next e
  · rfl
  · cases hp : o.pos <;> simp only [hp] at hstep <;> subst hstep
    case fill => simp [State.stepFill]
    case s1 => simp [State.stepS1]
    case s2 => simp
    case s3 => simp [State.stepS3]
    case s4 => simp
    case s5 => simp [State.stepS5, State.beginS5_eq]
    case s5Delay =>
      unfold State.stepS5Delay
      split <;> rfl
    case s6 => simp [State.stepS6]

/-! ### Steps -/

/-- What a step can do to the configuration: nothing, or it is the one `init` (R95), which sets `initialised` and the capacity. -/
inductive ConfigEffect (s t : State) : Prop
  | kept (h : t.config = s.config)
  | init (c : Nat) (hi : s.initialised = false) (hc : 1 ≤ c)
      (h : t.config = { s.config with initialised := true, queueCapacity := c })

theorem takeMove_configEffect {m : Move} {s t : State} (e : takeMove m s = .next t) : ConfigEffect s t := by
  have hmove := takeMove_next e
  cases m with
  | init c =>
    obtain ⟨hi, hc, rfl⟩ := execInit_next hmove
    exact .init c hi hc rfl
  | call who h w =>
    obtain ⟨o, rest, -, -, -, -, -, rfl⟩ := hmove
    exact .kept (by rw [State.config_setOp, State.config_modDesc]; rfl)
  | run who => exact .kept (runRequester_config hmove)
  | raise w => obtain ⟨-, rfl⟩ | ⟨-, -, rfl⟩ := hmove <;> exact .kept rfl
  | interrupt =>
    obtain ⟨w, -, -, -, hexec⟩ | rfl := hmove
    · exact .kept (exec_event_config hexec)
    · exact .kept s.config_stubStep
  | handler =>
    obtain ⟨w, t', -, -, -, hexec, rfl⟩ | rfl := hmove
    · have hevent := exec_event_config hexec
      exact .kept hevent
    · exact .kept rfl
  | tick =>
    have htick : t = s.tick := hmove
    rw [htick]
    exact .kept rfl
  | writeId who h id =>
    obtain ⟨-, -, rfl⟩ := hmove
    exact .kept (s.config_modDesc h _)
  | drain who h =>
    obtain ⟨-, rfl⟩ := hmove
    exact .kept (s.config_modDesc h _)

theorem step_configEffect {s t : State} (e : step s = .next t) : ConfigEffect s t := by
  obtain ⟨-, rfl⟩ | ⟨m, rest, -, e⟩ := step_next e
  · exact .kept rfl
  · cases takeMove_configEffect e with
    | kept h => exact .kept h
    | init c hi hc h => exact .init c hi hc h

/-- Settles O58: every step keeps the configuration, but for the one `init`, which runs only before `init` has run (R95, R173 (b)) and
sets a capacity of at least 1 (R173 (c)). -/
theorem configurationIsFixedAfterInit : Obligations.ConfigurationIsFixedAfterInit := by
  unfold Obligations.ConfigurationIsFixedAfterInit
  intro s t e
  cases step_configEffect e with
  | kept h =>
    obtain ⟨hparams, hdesc, hinit, hcap⟩ := State.config_eq_iff.mp h
    refine ⟨hparams, hdesc, fun hi => ⟨hinit.trans hi, hcap⟩, fun hwf => ?_⟩
    simpa only [State.configWf, hparams, hdesc, hinit, hcap] using hwf
  | init c hi hc h =>
    obtain ⟨hparams, hdesc, -, hcap⟩ :
        t.params = s.params ∧ t.nDesc = s.nDesc ∧ t.initialised = true ∧ t.queueCapacity = c := by
      simpa [State.config] using h
    refine ⟨hparams, hdesc, fun hi' => by simp [hi] at hi', fun ⟨hn, hp, _⟩ => ⟨?_, ?_, fun _ => ?_⟩⟩
    · rwa [hdesc]
    · rwa [hparams]
    · rwa [hcap]

end Sys2Proof.Machine
end

