-- ==== Sys2Proof/Proofs/RequesterStep.lean ====
section
/-! SUPPORT. What a requester's step of submit-and-wait (R88 to R93) can do, said once: it changes its own descriptor and moves on, it
enqueues, or it kicks. -/

namespace Sys2Proof.Machine

/-- What a requester's step does to its own operation: it leaves it, or goes on with the same handle, never back to a position before
the enqueue. -/
def Requester.continues (r : Requester) (o : Op) : Prop :=
  ∀ o', r.op = some o' → o'.handle = o.handle ∧ (o'.pos.beforeEnqueue = true → o.pos.beforeEnqueue = true)

theorem Requester.continues_of_pos {o o' : Op} {ret : Option Byte} (hh : o'.handle = o.handle)
    (hp : o'.pos.beforeEnqueue = true → o.pos.beforeEnqueue = true) : Requester.continues { op := some o', ret := ret } o := by
  rintro _ ⟨⟩
  exact ⟨hh, hp⟩

theorem Requester.continues_of_left (o : Op) (ret : Option Byte) : Requester.continues { op := none, ret := ret } o := by
  rintro _ ⟨⟩

/-- What a requester's step outside the terminal sequence may write in its descriptor's `status`: nothing, the sentinel at S1 (R88), or
`ST_OVERLOADED` at S2 with the queue full (R89). -/
def State.writesStatus (s : State) (o : Op) (f : Descriptor → Descriptor) : Prop :=
  (∀ d, (f d).status = d.status) ∨
  (o.pos = .s1 ∧ ∀ d, (f d).status = stIncomplete) ∨
  (o.pos = .s2 ∧ s.queue.length = s.queueCapacity ∧ ∀ d, (f d).status = stOverloaded)

theorem FieldWrite.apply_status (w : FieldWrite) (d : Descriptor) : (w.apply d).status = d.status := by
  cases w <;> rfl

/-- What a requester's step that completes leaves. -/
inductive RunEffect (s : State) (who : Who) : State → Prop
  /-- it waits, or there is no operation to go on with -/
  | waits : RunEffect s who s
  /-- it goes on, or returns, after a change of its own descriptor -/
  | advances (o : Op) (f : Descriptor → Descriptor) (r : Requester) (ho : (s.requester who).op = some o)
      (hf : s.writesStatus o f) (hr : r.continues o) : RunEffect s who ((s.modDesc o.handle f).setRequester who r)
  /-- S2 with room in the queue -/
  | enqueues (o : Op) (ho : (s.requester who).op = some o) (hp : o.pos = .s2) (hroom : s.queue.length ≠ s.queueCapacity) :
      RunEffect s who (({ s with queue := s.queue ++ [o.handle] } : State).setOp who { o with pos := .s3 })
  /-- S3 of an idle block -/
  | kicks (o : Op) (left : Nat) (ho : (s.requester who).op = some o) (hp : o.pos = .s3) (hb : s.busy = false) :
      RunEffect s who (({ s.emit .start with busy := true } : State).setOp who { o with pos := .s4 left })

theorem State.modDesc_id (s : State) (h : Handle) : s.modDesc h id = s := by
  simp [State.modDesc]

/-- A step that moves the requester alone. -/
theorem RunEffect.of_setOp {s : State} {who : Who} {o o' : Op} (ho : (s.requester who).op = some o)
    (hh : o'.handle = o.handle) (hp : o'.pos.beforeEnqueue = true → o.pos.beforeEnqueue = true) :
    RunEffect s who (s.setOp who o') := by
  have moved := RunEffect.advances o id { s.requester who with op := some o' } ho (.inl fun _ => rfl)
    (Requester.continues_of_pos hh hp)
  rwa [s.modDesc_id] at moved

/-- A step that changes the requester's descriptor and moves the requester. -/
theorem RunEffect.of_modDesc_setOp {s : State} {who : Who} {o o' : Op} {f : Descriptor → Descriptor}
    (ho : (s.requester who).op = some o) (hf : s.writesStatus o f) (hh : o'.handle = o.handle)
    (hp : o'.pos.beforeEnqueue = true → o.pos.beforeEnqueue = true) :
    RunEffect s who ((s.modDesc o.handle f).setOp who o') :=
  .advances o f _ ho hf (Requester.continues_of_pos hh hp)

theorem State.beginS5_moves (s : State) (who : Who) (o : Op) (status : Byte) :
    ∃ pos : Pos, pos.beforeEnqueue = false ∧ s.beginS5 who o status = s.setOp who { o with pos := pos } := by
  unfold State.beginS5
  split <;> exact ⟨_, rfl, rfl⟩

theorem State.stepS2_effect {s : State} {who : Who} {o : Op} (ho : (s.requester who).op = some o) (hp : o.pos = .s2) :
    RunEffect s who (s.stepS2 who o) := by
  unfold State.stepS2
  by_cases hfull : s.queue.length = s.queueCapacity
  · rw [State.enqueue_full hfull]
    exact .advances o _ _ ho (.inr (.inr ⟨hp, hfull, fun _ => rfl⟩)) (Requester.continues_of_left o _)
  · rw [State.enqueue_room hfull]
    exact .enqueues o ho hp hfull

theorem State.stepS3_effect {s : State} {who : Who} {o : Op} (ho : (s.requester who).op = some o) (hp : o.pos = .s3) :
    RunEffect s who (s.stepS3 who o) := by
  unfold State.stepS3 State.kick
  split
  · exact .of_setOp ho rfl (by simp [Pos.beforeEnqueue])
  · rename_i hb
    exact .kicks o _ ho hp (by simpa using hb)

theorem State.stepS4_effect {s : State} {who : Who} {o : Op} (d : Descriptor) (left : Nat)
    (ho : (s.requester who).op = some o) : RunEffect s who (s.stepS4 who o d left) := by
  unfold State.stepS4
  split
  · obtain ⟨pos, hpos, hmoves⟩ := (s.consume o.handle).beginS5_moves who { o with timedOut := false } d.status
    rw [hmoves]
    exact .of_modDesc_setOp ho (.inl fun _ => rfl) rfl (by simp [hpos])
  · split
    · exact .of_setOp ho rfl (by simp [Pos.beforeEnqueue])
    · exact .waits

theorem runRequester_effect {s t : State} {who : Who} (e : s.runRequester who = .next t) : RunEffect s who t := by
  obtain rfl | ⟨o, d, -, ho, -, hstep⟩ := runRequester_next e
  · exact .waits
  · cases hp : o.pos <;> simp only [hp] at hstep <;> subst hstep
    case fill next rest =>
      exact .of_modDesc_setOp ho (.inl next.apply_status) rfl (by simp [hp, Pos.beforeEnqueue])
    case s1 => exact .of_modDesc_setOp ho (.inr (.inl ⟨hp, fun _ => rfl⟩)) rfl (by simp [hp, Pos.beforeEnqueue])
    case s2 => exact State.stepS2_effect ho hp
    case s3 => exact State.stepS3_effect ho hp
    case s4 left => exact State.stepS4_effect d left ho
    case s5 =>
      obtain ⟨pos, hpos, hmoves⟩ := s.beginS5_moves who o d.status
      rw [State.stepS5, hmoves]
      exact .of_setOp ho rfl (by simp [hpos])
    case s5Delay left =>
      unfold State.stepS5Delay
      split
      · exact .of_setOp ho rfl (by simp [Pos.beforeEnqueue])
      · exact .waits
    case s6 =>
      have returned := RunEffect.advances o id { op := none, ret := some d.status } ho (.inl fun _ => rfl)
        (Requester.continues_of_left o _)
      rwa [s.modDesc_id] at returned

end Sys2Proof.Machine
end

