-- ==== Sys2Proof/Proofs/Control.lean ====
section
/-! SUPPORT. The registers that decide who has the bus and the descriptors (the queue, `busy`, `cur`, the event and command ports) as one
value, and what a step can do to them, said once. -/

namespace Sys2Proof.Machine

/-! ### The registers -/

/-- The queue with its capacity, `busy`, `cur`, and the event and command ports (R20, R25, R27, R33, R34). -/
structure Control where
  initialised : Bool
  queueCapacity : Nat
  queue : List Handle
  busy : Bool
  cur : Option Handle
  pending : Option (BitVec 16)
  startOutstanding : Bool
  cmds : List HwCmd

def State.control (s : State) : Control :=
  { initialised := s.initialised, queueCapacity := s.queueCapacity, queue := s.queue, busy := s.busy, cur := s.cur,
    pending := s.pending, startOutstanding := s.startOutstanding, cmds := s.cmds }

@[simp] theorem State.control_initialised (s : State) : s.control.initialised = s.initialised := rfl
@[simp] theorem State.control_queueCapacity (s : State) : s.control.queueCapacity = s.queueCapacity := rfl
@[simp] theorem State.control_queue (s : State) : s.control.queue = s.queue := rfl
@[simp] theorem State.control_busy (s : State) : s.control.busy = s.busy := rfl
@[simp] theorem State.control_cur (s : State) : s.control.cur = s.cur := rfl
@[simp] theorem State.control_pending (s : State) : s.control.pending = s.pending := rfl
@[simp] theorem State.control_startOutstanding (s : State) : s.control.startOutstanding = s.startOutstanding := rfl
@[simp] theorem State.control_cmds (s : State) : s.control.cmds = s.cmds := rfl

@[simp] theorem State.control_stubStep (s : State) : s.stubStep.control = s.control := by
  obtain h | ⟨-, -, -, -, h⟩ := s.stubStep_cases <;> rw [h]
  rfl

/-! ### A sequencer step -/

/-- What a sequencer step does to the control registers, from `c` to `c'`; `y` is the `yield_req` it leaves. -/
inductive EventControl (c c' : Control) (y : Bool) : Prop
  /-- the active transaction goes on and commands are issued -/
  | goesOn (h : Handle) (cs : List HwCmd) (hc : c.cur = some h) (hcs : cs ≠ []) (hlen : cs.length ≤ 2)
      (hconf : HwCmd.configure ∉ cs)
      (hcontrol : c' = { c with pending := none, startOutstanding := cs.any HwCmd.isStart, cmds := c.cmds ++ cs })
  /-- the head of the queue becomes active (R102) -/
  | activates (h : Handle) (rest : List Handle) (b : Byte) (hc : c.cur = none) (hq : c.queue = h :: rest)
      (hcontrol : c' = { c with pending := none, startOutstanding := false, cur := some h, queue := rest,
                                cmds := c.cmds ++ [.clearStart, .tx b] })
  /-- the transaction ends and the block goes idle (R115) -/
  | endsIdle (h : Handle) (hc : c.cur = some h) (hq : c.queue = []) (hy : y = true)
      (hcontrol : c' = { c with pending := none, startOutstanding := false, cur := none, busy := false,
                                cmds := c.cmds ++ [.stop] })
  /-- the transaction ends and the head of the queue becomes active (R115) -/
  | endsChained (h next : Handle) (rest : List Handle) (hc : c.cur = some h) (hq : c.queue = next :: rest)
      (hcontrol : c' = { c with pending := none, startOutstanding := true, cur := some next, queue := rest,
                                cmds := c.cmds ++ [.stop, .start] })

theorem State.control_terminal_idle {s : State} (h : Handle) (st : Byte) (hq : s.queue = []) :
    (s.terminal h st).control = { s.control with cur := none, busy := false, cmds := s.control.cmds ++ [.stop] } := by
  rw [State.terminal_idle h st hq]
  rfl

theorem State.control_terminal_chain {s : State} (h : Handle) (st : Byte) {next : Handle} {rest : List Handle}
    (hq : s.queue = next :: rest) :
    (s.terminal h st).control =
      { s.control with cur := some next, queue := rest, startOutstanding := true,
                       cmds := s.control.cmds ++ [.stop, .start] } := by
  rw [State.terminal_chain h st hq]
  rfl

@[simp] theorem State.terminal_yieldReq (s : State) (h : Handle) (st : Byte) : (s.terminal h st).yieldReq = true := by
  cases hq : s.queue with
  | nil => rw [State.terminal_idle h st hq]
  | cons next rest => rw [State.terminal_chain h st hq]

/-- The terminal sequence after the phase is recorded: `s1` is the state it finds. -/
theorem State.terminal_eventControl {s s1 : State} {h : Handle} (st : Byte) (hc : s.cur = some h)
    (h1 : s1.control = { s.control with pending := none, startOutstanding := false }) :
    EventControl s.control (s1.terminal h st).control (s1.terminal h st).yieldReq := by
  have hqueue : s.queue = s1.queue := (congrArg Control.queue h1).symm
  cases hq : s1.queue with
  | nil => exact .endsIdle h hc (hqueue.trans hq) (by simp) (by rw [State.control_terminal_idle h st hq, h1])
  | cons next rest =>
    exact .endsChained h next rest hc (hqueue.trans hq) (by rw [State.control_terminal_chain h st hq, h1])

theorem EventEffect.eventControl {s t : State} (e : EventEffect s t) : EventControl s.control t.control t.yieldReq := by
  cases e with
  | goesOn code h d cs wr rd arb hc hd hcs hlen hstop => exact .goesOn h cs hc hcs hlen hstop.2 rfl
  | activates h rest d hc hq => exact .activates h rest _ hc hq rfl
  | stores h d b hc => exact .goesOn h [.ackOff] hc (by simp) (by simp) (by simp) rfl
  | ends code h d st hc => exact State.terminal_eventControl st hc rfl
  | storesAndEnds h d b hc => exact State.terminal_eventControl stSuccess hc rfl

theorem exec_event_control {w : BitVec 16} {s t : State} (e : exec (decodeEvt16 w) s = .next t) :
    EventControl s.control t.control t.yieldReq :=
  (exec_event_effect (decodeEvt16_event w) e).2.eventControl

/-! ### A step -/

/-- The move that runs the sequencer in each mode (R145, R148). -/
def DispatchMode.sequencerMove : DispatchMode → Move
  | .direct => .interrupt
  | .deferred => .handler

/-- What a move can do to the control registers. -/
inductive ControlEffect (m : Move) (s t : State) : Prop
  | kept (hcontrol : t.control = s.control)
  /-- the HBI makes an event pending (R34) -/
  | raised (w : BitVec 16) (hm : m = .raise w) (hcontrol : t.control = { s.control with pending := some w })
  /-- S2 with room in the queue (R89) -/
  | enqueued (who : Who) (o : Op) (hm : m = .run who) (ho : (s.requester who).op = some o) (hp : o.pos = .s2)
      (hroom : s.queue.length ≠ s.queueCapacity) (hcontrol : t.control = { s.control with queue := s.queue ++ [o.handle] })
  /-- S3 of an idle block (R90) -/
  | kicked (who : Who) (o : Op) (hm : m = .run who) (ho : (s.requester who).op = some o) (hp : o.pos = .s3)
      (hb : s.busy = false)
      (hcontrol : t.control = { s.control with busy := true, startOutstanding := true, cmds := s.cmds ++ [.start] })
  /-- R95 -/
  | init (c : Nat) (hm : m = .init c) (hi : s.initialised = false)
      (hcontrol : t.control =
        { initialised := true, queueCapacity := c, queue := [], busy := false, cur := none, pending := none,
          startOutstanding := false, cmds := s.cmds ++ [.configure] })
  /-- the sequencer step on the pending event (R100) -/
  | event (hm : m = DispatchMode.sequencerMove s.params.dispatchMode) (hpend : s.pending ≠ none)
      (he : EventControl s.control t.control t.yieldReq)

theorem RunEffect.controlEffect {s t : State} {who : Who} (e : RunEffect s who t) : ControlEffect (.run who) s t := by
  cases e with
  | waits => exact .kept rfl
  | advances => exact .kept rfl
  | enqueues o ho hp hroom => exact .enqueued who o rfl ho hp hroom rfl
  | kicks o left ho hp hb => exact .kicked who o rfl ho hp hb (by simp [State.control, State.setOp])

theorem takeMove_control {m : Move} {s t : State} (e : takeMove m s = .next t) : ControlEffect m s t := by
  have hmove := takeMove_next e
  cases m with
  | call who h w =>
    obtain ⟨o, rest, -, -, -, -, -, rfl⟩ := hmove
    exact .kept rfl
  | init c =>
    obtain ⟨hi, -, rfl⟩ := execInit_next hmove
    exact .init c rfl hi rfl
  | run who => exact (runRequester_effect hmove).controlEffect
  | raise w =>
    obtain ⟨-, rfl⟩ | ⟨-, -, rfl⟩ := hmove
    · exact .kept rfl
    · exact .raised w rfl rfl
  | interrupt =>
    obtain ⟨w, hmode, -, hpend, hexec⟩ | rfl := hmove
    · exact .event (by rw [hmode]; rfl) (by simp [hpend]) (exec_event_control hexec)
    · exact .kept s.control_stubStep
  | handler =>
    obtain ⟨w, t', hmode, -, hpend, hexec, rfl⟩ | rfl := hmove
    · have hevent := exec_event_control hexec
      exact .event (by rw [hmode]; rfl) (by simp [hpend]) hevent
    · exact .kept rfl
  | tick =>
    have htick : t = s.tick := hmove
    rw [htick]
    exact .kept rfl
  | writeId who h id =>
    obtain ⟨-, -, rfl⟩ := hmove
    exact .kept rfl
  | drain who h =>
    obtain ⟨-, rfl⟩ := hmove
    exact .kept rfl

end Sys2Proof.Machine
end

