-- ==== Sys2Proof/Proofs/ControlRules.lean ====
section
/-! SUPPORT. The rules about the queue, `busy` and the commands, read off what a move can do to the control registers. Settles O42, O44,
O53, O54 and O59. -/

namespace Sys2Proof.Machine

/-! ### The queue (R20 to R24) -/

theorem EventControl.queue_length_le {c c' : Control} {y : Bool} (e : EventControl c c' y) :
    c'.queue.length ≤ c.queue.length := by
  cases e with
  | goesOn h cs hc hcs hlen hconf hcontrol => simp [hcontrol]
  | activates h rest b hc hq hcontrol => simp [hcontrol, hq]
  | endsIdle h hc hq hy hcontrol => simp [hcontrol]
  | endsChained h next rest hc hq hcontrol => simp [hcontrol, hq]

theorem EventControl.queueCapacity_eq {c c' : Control} {y : Bool} (e : EventControl c c' y) :
    c'.queueCapacity = c.queueCapacity := by
  cases e <;> simp only [*]

/-- The enqueue finds room, `init` empties the queue, and no other step makes it longer. -/
theorem ControlEffect.queueBounded {m : Move} {s t : State} (e : ControlEffect m s t) (hb : s.queueBounded) :
    t.queueBounded := by
  change t.control.queue.length ≤ t.control.queueCapacity
  cases e with
  | kept h | raised _ _ h | kicked _ _ _ _ _ _ h =>
    rw [h]
    exact hb
  | enqueued who o hm ho hp hroom h =>
    have hless : s.queue.length < s.queueCapacity := Nat.lt_of_le_of_ne hb hroom
    simpa [h] using hless
  | init c hm hi h => simp [h]
  | event hm hpend he =>
    calc t.control.queue.length
      _ ≤ s.queue.length := he.queue_length_le
      _ ≤ s.queueCapacity := hb
      _ = t.control.queueCapacity := he.queueCapacity_eq.symm

/-- Settles O42, from the effects on the control registers: only S2 appends, and it has found room (R22). -/
theorem everyStepKeepsTheQueueWithinItsCapacity : Obligations.EveryStepKeepsTheQueueWithinItsCapacity := by
  unfold Obligations.EveryStepKeepsTheQueueWithinItsCapacity
  intro s t hb e
  obtain ⟨-, rfl⟩ | ⟨m, rest, -, e⟩ := step_next e
  · exact hb
  · exact (takeMove_control e).queueBounded hb

/-- What a move may do to the queue (R20 to R24, R95), as the statement of O53 has it. -/
theorem ControlEffect.queue_fifo {m : Move} {s t : State} (e : ControlEffect m s t) :
    t.queue = s.queue ∨
    (∃ who o, (s.requester who).op = some o ∧ o.pos = .s2 ∧ s.queue.length ≠ s.queueCapacity ∧
      t.queue = s.queue ++ [o.handle]) ∨
    (∃ h, s.queue = h :: t.queue ∧ t.cur = some h) ∨
    (s.initialised = false ∧ t.initialised = true ∧ t.queue = []) := by
  cases e with
  | kept h | raised _ _ h | kicked _ _ _ _ _ _ h => exact .inl (congrArg Control.queue h)
  | enqueued who o hm ho hp hroom h => exact .inr (.inl ⟨who, o, ho, hp, hroom, congrArg Control.queue h⟩)
  | init c hm hi h =>
    exact .inr (.inr (.inr ⟨hi, congrArg Control.initialised h, congrArg Control.queue h⟩))
  | event hm hpend he =>
    cases he with
    | goesOn h cs hc hcs hlen hconf hcontrol => exact .inl (congrArg Control.queue hcontrol)
    | endsIdle h hc hq hy hcontrol => exact .inl (congrArg Control.queue hcontrol)
    | activates h rest b hc hq hcontrol =>
      have hrest : t.queue = rest := congrArg Control.queue hcontrol
      exact .inr (.inr (.inl ⟨h, hrest ▸ hq, congrArg Control.cur hcontrol⟩))
    | endsChained h next rest hc hq hcontrol =>
      have hrest : t.queue = rest := congrArg Control.queue hcontrol
      exact .inr (.inr (.inl ⟨next, hrest ▸ hq, congrArg Control.cur hcontrol⟩))

/-- Settles O53, from the effects on the control registers: S2, a fresh activation, the terminal sequence and `init` are the only ones that
touch the queue. -/
theorem queueIsFirstInFirstOut : Obligations.QueueIsFirstInFirstOut := by
  unfold Obligations.QueueIsFirstInFirstOut
  intro s t e
  obtain ⟨-, rfl⟩ | ⟨m, rest, -, e⟩ := step_next e
  · exact .inl rfl
  · exact (takeMove_control e).queue_fifo

/-! ### The Busy Flag (R25, R26) -/

/-- R26 on the control registers. -/
def Control.activeImpliesBusy (c : Control) : Prop :=
  (c.cur ≠ none → c.busy = true) ∧ (c.startOutstanding = true → c.busy = true) ∧ (c.pending ≠ none → c.busy = true)

theorem State.activeImpliesBusy_iff (s : State) : s.activeImpliesBusy ↔ s.control.activeImpliesBusy := Iff.rfl

theorem Control.activeImpliesBusy_of_busy {c : Control} (h : c.busy = true) : c.activeImpliesBusy :=
  ⟨fun _ => h, fun _ => h, fun _ => h⟩

/-- The sequencer runs only while the block is busy, and leaves it busy unless the transaction was the last. -/
theorem EventControl.activeImpliesBusy {c c' : Control} {y : Bool} (e : EventControl c c' y) (hb : c.busy = true) :
    c'.activeImpliesBusy := by
  cases e with
  | goesOn _ _ _ _ _ _ hcontrol | activates _ _ _ _ _ hcontrol | endsChained _ _ _ _ _ hcontrol =>
    exact Control.activeImpliesBusy_of_busy (by rw [hcontrol, hb])
  | endsIdle h hc hq hy hcontrol => simp [hcontrol, Control.activeImpliesBusy]

theorem ControlEffect.activeImpliesBusy {m : Move} {s t : State} (e : ControlEffect m s t) (hs : s.activeImpliesBusy)
    (hraise : ∀ w, m = .raise w → s.busy = true) : t.activeImpliesBusy := by
  rw [State.activeImpliesBusy_iff]
  cases e with
  | kept h | enqueued _ _ _ _ _ _ h =>
    rw [h]
    exact hs
  | raised w hm h =>
    rw [h]
    exact Control.activeImpliesBusy_of_busy (hraise w hm)
  | kicked _ _ _ _ _ _ h => exact Control.activeImpliesBusy_of_busy (by rw [h])
  | init c hm hi h => simp [h, Control.activeImpliesBusy]
  | event hm hpend he =>
    obtain ⟨-, -, hpending⟩ := hs
    exact he.activeImpliesBusy (hpending hpend)

/-- Settles O44: what R26 speaks of begins with the kick, with a raise while busy (R184), or in a sequencer step, which needs a pending
event. -/
theorem everyStepKeepsBusyWhileATransactionIsActive : Obligations.EveryStepKeepsBusyWhileATransactionIsActive := by
  unfold Obligations.EveryStepKeepsBusyWhileATransactionIsActive
  intro s t hs hraise e
  obtain ⟨-, rfl⟩ | ⟨m, rest, hin, e⟩ := step_next e
  · exact hs
  · exact (takeMove_control e).activeImpliesBusy hs fun w hm => hraise w rest (hm ▸ hin)

/-- A sequencer step leaves `busy`, or clears it in a terminal sequence that finds the queue empty (R115). -/
theorem EventControl.busy_cases {c c' : Control} {y : Bool} (e : EventControl c c' y) :
    c'.busy = c.busy ∨
    (c'.busy = false ∧ c'.queue = [] ∧ c'.cur = none ∧ c'.cmds.getLast? = some .stop ∧ y = true) := by
  cases e with
  | goesOn _ _ _ _ _ _ hcontrol | activates _ _ _ _ _ hcontrol | endsChained _ _ _ _ _ hcontrol =>
    exact .inl (by rw [hcontrol])
  | endsIdle h hc hq hy hcontrol => exact .inr (by simp [hcontrol, hq, hy])

/-- R25: `busy` goes to 1 only by the kick. -/
theorem ControlEffect.busy_set {m : Move} {s t : State} (e : ControlEffect m s t) (hs : s.busy = false)
    (ht : t.busy = true) :
    (∃ who o, (s.requester who).op = some o ∧ o.pos = .s3) ∧ t.cmds = s.cmds ++ [.start] ∧ t.cur = s.cur ∧
      t.queue = s.queue := by
  cases e with
  | kicked who o hm ho hp hb h =>
    exact ⟨⟨who, o, ho, hp⟩, congrArg Control.cmds h, congrArg Control.cur h, congrArg Control.queue h⟩
  | kept h | raised _ _ h | enqueued _ _ _ _ _ _ h =>
    have hkept : t.busy = s.busy := congrArg Control.busy h
    simp [hkept, hs] at ht
  | init c hm hi h =>
    have hidle : t.busy = false := congrArg Control.busy h
    simp [hidle] at ht
  | event hm hpend he =>
    have hidle : t.busy = false := he.busy_cases.elim (·.trans hs) (·.1)
    simp [hidle] at ht

/-- R25, R203: after `init`, `busy` goes to 0 only by a terminal sequence that finds the queue empty. -/
theorem ControlEffect.busy_cleared {m : Move} {s t : State} (e : ControlEffect m s t) (hs : s.busy = true)
    (ht : t.busy = false) (hi : s.initialised = true) :
    t.queue = [] ∧ t.cur = none ∧ t.cmds.getLast? = some .stop ∧ t.yieldReq = true := by
  cases e with
  | kept h | raised _ _ h | enqueued _ _ _ _ _ _ h =>
    have hkept : t.busy = s.busy := congrArg Control.busy h
    simp [hkept, hs] at ht
  | kicked who o hm ho hp hb h => simp [hs] at hb
  | init c hm hi' h => simp [hi] at hi'
  | event hm hpend he =>
    obtain hkept | ⟨-, hends⟩ := he.busy_cases
    · have hbusy : t.busy = true := hkept.trans hs
      simp [hbusy] at ht
    · exact hends

/-- Settles O54: of the effects on the control registers only the kick sets `busy`, and only the terminal sequence clears it after `init`. -/
theorem busyIsSetByTheKickAndClearedByTheTerminalSequence :
    Obligations.BusyIsSetByTheKickAndClearedByTheTerminalSequence := by
  unfold Obligations.BusyIsSetByTheKickAndClearedByTheTerminalSequence
  intro s t e
  obtain ⟨-, rfl⟩ | ⟨m, rest, -, e⟩ := step_next e
  · exact ⟨fun hs ht => by simp [hs] at ht, fun hs ht => by simp [hs] at ht⟩
  · exact ⟨(takeMove_control e).busy_set, (takeMove_control e).busy_cleared⟩

/-! ### Commands (R33, R174) -/

/-- A sequencer step adds one or two commands, never `HW.Configure`. -/
theorem EventControl.cmds_added {c c' : Control} {y : Bool} (e : EventControl c c' y) :
    ∃ cs, c'.cmds = c.cmds ++ cs ∧ cs.length ≤ 2 ∧ HwCmd.configure ∉ cs := by
  cases e with
  | goesOn h cs hc hcs hlen hconf hcontrol => exact ⟨cs, by rw [hcontrol], hlen, hconf⟩
  | activates h rest b hc hq hcontrol => exact ⟨[.clearStart, .tx b], by rw [hcontrol], by simp, by simp⟩
  | endsIdle h hc hq hy hcontrol => exact ⟨[.stop], by rw [hcontrol], by simp, by simp⟩
  | endsChained h next rest hc hq hcontrol => exact ⟨[.stop, .start], by rw [hcontrol], by simp, by simp⟩

/-- The commands `cs` that a move adds, and who may have issued them (R33, R174). -/
def IssuedBy (m : Move) (s t : State) (cs : List HwCmd) : Prop :=
  (HwCmd.configure ∈ cs → s.initialised = false ∧ t.initialised = true ∧ cs = [.configure]) ∧
  (∀ who, m = .run who → cs = [] ∨ (cs = [.start] ∧ s.busy = false ∧ t.busy = true)) ∧
  (cs ≠ [] →
    (m = .interrupt ∧ s.params.dispatchMode = .direct) ∨ (m = .handler ∧ s.params.dispatchMode = .deferred) ∨
      (∃ who, m = .run who) ∨ (∃ n, m = .init n ∧ cs = [.configure]))

theorem IssuedBy.nil (m : Move) (s t : State) : IssuedBy m s t [] := by
  simp [IssuedBy]

/-- Commands of a sequencer step. -/
theorem IssuedBy.sequencer {m : Move} {s t : State} {cs : List HwCmd}
    (hm : m = DispatchMode.sequencerMove s.params.dispatchMode) (hconf : HwCmd.configure ∉ cs) : IssuedBy m s t cs := by
  cases hmode : s.params.dispatchMode <;>
    simp [IssuedBy, hm, hmode, hconf, DispatchMode.sequencerMove]

theorem ControlEffect.cmds_added {m : Move} {s t : State} (e : ControlEffect m s t) :
    ∃ cs, t.cmds = s.cmds ++ cs ∧ cs.length ≤ 2 ∧ IssuedBy m s t cs := by
  cases e with
  | kept h | raised _ _ h | enqueued _ _ _ _ _ _ h =>
    have hkept : t.cmds = s.cmds := congrArg Control.cmds h
    exact ⟨[], by simp [hkept], by simp, IssuedBy.nil m s t⟩
  | kicked who o hm ho hp hb h =>
    have hbusy : t.busy = true := congrArg Control.busy h
    exact ⟨[.start], congrArg Control.cmds h, by simp, by simp [IssuedBy, hm, hb, hbusy]⟩
  | init c hm hi h =>
    have hinit : t.initialised = true := congrArg Control.initialised h
    exact ⟨[.configure], congrArg Control.cmds h, by simp, by simp [IssuedBy, hm, hi, hinit]⟩
  | event hm hpend he =>
    obtain ⟨cs, hcmds, hlen, hconf⟩ := he.cmds_added
    exact ⟨cs, hcmds, hlen, .sequencer hm hconf⟩

/-- Settles O59: the effects on the control registers that add commands are the kick, `init` and the sequencer step of the mode. -/
theorem commandsComeFromTheirIssuersOnly : Obligations.CommandsComeFromTheirIssuersOnly := by
  unfold Obligations.CommandsComeFromTheirIssuersOnly
  intro s t e
  obtain ⟨hin, rfl⟩ | ⟨m, rest, hin, e⟩ := step_next e
  · exact ⟨[], by simp⟩
  · obtain ⟨cs, hcmds, hlen, hconf, hrun, hissuer⟩ := (takeMove_control e).cmds_added
    refine ⟨cs, hcmds, hlen, hconf, fun who rest' hrun' => ?_, fun hcs => ⟨m, rest, hin, hissuer hcs⟩⟩
    have hhead : m :: rest = .run who :: rest' := hin.symm.trans hrun'
    exact hrun who (List.cons.inj hhead).1

end Sys2Proof.Machine
end

