-- ==== Sys2Proof/Proofs/LentOnce.lean ====
section
/-! SUPPORT. The baton pass (R18, R143): who may touch a descriptor, kept by every step. Settles O46. -/

namespace Sys2Proof.Machine

/-! ### The lent handles (R18) -/

/-- The handles that are lent: the active one and the queued ones. -/
def Control.lentHandles (c : Control) : List Handle := c.cur.toList ++ c.queue

theorem State.lent_iff (s : State) (h : Handle) : s.lent h = true ↔ h ∈ s.control.lentHandles := by
  simp [State.lent, State.queued, State.active, Control.lentHandles, or_comm]

theorem State.lent_eq_false_iff (s : State) (h : Handle) : s.lent h = false ↔ h ∉ s.control.lentHandles := by
  rw [← State.lent_iff, Bool.not_eq_true]

/-- The sequencer lends no handle anew: it takes the head of the queue, or lets the active handle go. -/
theorem EventControl.lentHandles_sublist {c c' : Control} {y : Bool} (e : EventControl c c' y) :
    c'.lentHandles.Sublist c.lentHandles := by
  cases e with
  | goesOn h cs hc hcs hlen hconf hcontrol => rw [hcontrol]; exact List.Sublist.refl _
  | activates h rest b hc hq hcontrol => simp [hcontrol, Control.lentHandles, hc, hq]
  | endsIdle h hc hq hy hcontrol => simp [hcontrol, Control.lentHandles, hq]
  | endsChained h next rest hc hq hcontrol => simp [hcontrol, Control.lentHandles, hc, hq]

/-! ### The requesters' operations (R37) -/

/-- Every operation in `t` is one of `s` that has gone on: nobody has entered an operation. -/
def State.opsContinue (s t : State) : Prop :=
  ∀ who o', (t.requester who).op = some o' →
    ∃ o, (s.requester who).op = some o ∧ o'.handle = o.handle ∧
      (o'.pos.beforeEnqueue = true → o.pos.beforeEnqueue = true)

theorem State.opsContinue_of_eq {s t : State} (h : t.requesters = s.requesters) : s.opsContinue t := by
  intro who o ho
  rw [State.requester_eq, h] at ho
  exact ⟨o, ho, rfl, id⟩

theorem State.requester_setRequester_same (s : State) (who : Who) (r : Requester) :
    (s.setRequester who r).requester who = r := by
  simp

theorem State.requester_setRequester_other (s : State) {who other : Who} (r : Requester) (h : other ≠ who) :
    (s.setRequester who r).requester other = s.requester other :=
  lookup_put_other s.requesters r h

theorem State.opsContinue_setRequester {s : State} {who : Who} {o : Op} {r : Requester}
    (ho : (s.requester who).op = some o) (hr : r.continues o) : s.opsContinue (s.setRequester who r) := by
  intro other o' ho'
  by_cases hother : other = who
  · subst hother
    rw [State.requester_setRequester_same] at ho'
    exact ⟨o, ho, hr o' ho'⟩
  · rw [State.requester_setRequester_other s r hother] at ho'
    exact ⟨o', ho', rfl, id⟩

@[simp] theorem Pos.beforeEnqueue_tick (p : Pos) : p.tick.beforeEnqueue = p.beforeEnqueue := by
  cases p <;> rfl

theorem State.opsContinue_tick (s : State) : s.opsContinue s.tick := by
  intro who o' ho'
  have htick : (s.requester who).op.map (fun o => { o with pos := o.pos.tick }) = some o' := by
    rwa [State.requester_eq, State.tick, lookup_map_tick] at ho'
  obtain ⟨o, ho, rfl⟩ := Option.map_eq_some_iff.mp htick
  exact ⟨o, ho, rfl, by simp⟩

/-! ### What keeps the baton pass -/

/-- A descriptor its requester has not enqueued yet is not lent. -/
def State.freeBeforeEnqueue (s : State) : Prop :=
  ∀ who o, (s.requester who).op = some o → o.pos.beforeEnqueue = true → s.lent o.handle = false

/-- Two requesters are never inside operations on one descriptor. -/
def State.oneRequesterEach (s : State) : Prop :=
  ∀ who who' o o', (s.requester who).op = some o → (s.requester who').op = some o' → o.handle = o'.handle → who = who'

theorem State.lentOnce_iff (s : State) :
    s.lentOnce ↔ s.control.lentHandles.Nodup ∧ s.freeBeforeEnqueue ∧ s.oneRequesterEach := Iff.rfl

theorem State.oneRequesterEach_of_continue {s t : State} (hs : s.oneRequesterEach) (hops : s.opsContinue t) :
    t.oneRequesterEach := by
  intro who who' o1' o2' h1' h2' heq
  obtain ⟨o1, h1, hhandle1, -⟩ := hops who o1' h1'
  obtain ⟨o2, h2, hhandle2, -⟩ := hops who' o2' h2'
  exact hs who who' o1 o2 h1 h2 (hhandle1.symm.trans (heq.trans hhandle2))

/-- Lending nothing anew and entering no operation keeps it. -/
theorem State.lentOnce_of_continue {s t : State} (hs : s.lentOnce)
    (hl : t.control.lentHandles.Sublist s.control.lentHandles) (hops : s.opsContinue t) : t.lentOnce := by
  obtain ⟨hnodup, hbefore, hone⟩ := s.lentOnce_iff.mp hs
  refine t.lentOnce_iff.mpr ⟨hl.nodup hnodup, fun who o' ho' hp => ?_, State.oneRequesterEach_of_continue hone hops⟩
  obtain ⟨o, ho, hhandle, hpos⟩ := hops who o' ho'
  have hfree := (s.lent_eq_false_iff _).mp (hbefore who o ho (hpos hp))
  rw [State.lent_eq_false_iff, hhandle]
  exact fun hmem => hfree (hl.subset hmem)

/-- A requester's handle is not lent before S2, and no other requester is inside an operation on it: so S2 may lend it. -/
theorem State.lentOnce_enqueue {s : State} {who : Who} {o : Op} (hs : s.lentOnce) (ho : (s.requester who).op = some o)
    (hp : o.pos = .s2) :
    State.lentOnce (({ s with queue := s.queue ++ [o.handle] } : State).setOp who { o with pos := .s3 }) := by
  obtain ⟨hnodup, hbefore, hone⟩ := s.lentOnce_iff.mp hs
  have hlent : Control.lentHandles { s.control with queue := s.queue ++ [o.handle] } =
      s.control.lentHandles ++ [o.handle] := (List.append_assoc _ _ _).symm
  have hfree : o.handle ∉ s.control.lentHandles :=
    (s.lent_eq_false_iff _).mp (hbefore who o ho (by rw [hp]; rfl))
  refine (State.lentOnce_iff _).mpr ⟨?_, fun other o' ho' hp' => ?_, ?_⟩
  · change (Control.lentHandles { s.control with queue := s.queue ++ [o.handle] }).Nodup
    rw [hlent, ← List.concat_eq_append]
    exact List.Nodup.concat hfree hnodup
  · by_cases hother : other = who
    · subst hother
      rw [State.setOp, State.requester_setRequester_same] at ho'
      obtain rfl := Option.some.inj ho'
      cases hp'
    · have hsame : (s.requester other).op = some o' := by
        rwa [State.setOp, State.requester_setRequester_other _ _ hother] at ho'
      rw [State.lent_eq_false_iff]
      change o'.handle ∉ Control.lentHandles { s.control with queue := s.queue ++ [o.handle] }
      rw [hlent, List.mem_append, List.mem_singleton, not_or]
      exact ⟨(s.lent_eq_false_iff _).mp (hbefore other o' hsame hp'), fun heq => hother (hone other who o' o hsame ho heq)⟩
  · exact State.oneRequesterEach_of_continue hone
      (State.opsContinue_setRequester ho (Requester.continues_of_pos rfl (by simp [Pos.beforeEnqueue])))

/-- A call on a descriptor that is neither lent nor in use (R80) keeps it. -/
theorem State.lentOnce_call {s : State} {who : Who} {o : Op} (hs : s.lentOnce) (huse : s.inUse o.handle = false)
    (hlent : s.lent o.handle = false) : (s.setOp who o).lentOnce := by
  obtain ⟨hnodup, hbefore, hone⟩ := s.lentOnce_iff.mp hs
  have hops : ∀ other o', ((s.setOp who o).requester other).op = some o' →
      (other = who ∧ o' = o) ∨ ((s.requester other).op = some o' ∧ o'.handle ≠ o.handle) := by
    intro other o' ho'
    by_cases hother : other = who
    · subst hother
      rw [State.setOp, State.requester_setRequester_same] at ho'
      exact .inl ⟨rfl, (Option.some.inj ho').symm⟩
    · rw [State.setOp, State.requester_setRequester_other _ _ hother] at ho'
      exact .inr ⟨ho', fun heq => by simp [← heq, State.inUse_of_op ho'] at huse⟩
  refine (State.lentOnce_iff _).mpr ⟨hnodup, fun other o' ho' hp => ?_, fun w1 w2 o1 o2 h1 h2 heq => ?_⟩
  · obtain ⟨-, rfl⟩ | ⟨hsame, -⟩ := hops other o' ho'
    · exact hlent
    · exact hbefore other o' hsame hp
  · obtain ⟨rfl, rfl⟩ | ⟨hsame1, hne1⟩ := hops w1 o1 h1 <;> obtain ⟨rfl, rfl⟩ | ⟨hsame2, hne2⟩ := hops w2 o2 h2
    · rfl
    · exact absurd heq.symm hne2
    · exact absurd heq hne1
    · exact hone w1 w2 o1 o2 hsame1 hsame2 heq

/-! ### Steps -/

@[simp] theorem State.terminal_requesters (s : State) (h : Handle) (st : Byte) :
    (s.terminal h st).requesters = s.requesters := by
  cases hq : s.queue with
  | nil => rw [State.terminal_idle h st hq]
  | cons next rest => rw [State.terminal_chain h st hq]

theorem EventEffect.requesters_eq {s t : State} (e : EventEffect s t) : t.requesters = s.requesters := by
  cases e with
  | goesOn | activates | stores => rfl
  | ends | storesAndEnds => exact State.terminal_requesters _ _ _

theorem EventEffect.lentOnce {s t : State} (e : EventEffect s t) (hs : s.lentOnce) : t.lentOnce :=
  State.lentOnce_of_continue hs e.eventControl.lentHandles_sublist (State.opsContinue_of_eq e.requesters_eq)

theorem exec_event_lentOnce {w : BitVec 16} {s t : State} (e : exec (decodeEvt16 w) s = .next t) (hs : s.lentOnce) :
    t.lentOnce :=
  (exec_event_effect (decodeEvt16_event w) e).2.lentOnce hs

theorem RunEffect.lentOnce {s t : State} {who : Who} (e : RunEffect s who t) (hs : s.lentOnce) : t.lentOnce := by
  cases e with
  | waits => exact hs
  | advances o f r ho hf hr =>
    exact State.lentOnce_of_continue hs (.refl _) (State.opsContinue_setRequester ho hr)
  | enqueues o ho hp hroom => exact State.lentOnce_enqueue hs ho hp
  | kicks o left ho hp hb =>
    have hgoes : Requester.continues { s.requester who with op := some { o with pos := .s4 left } } o :=
      Requester.continues_of_pos rfl (by simp [Pos.beforeEnqueue])
    exact State.lentOnce_of_continue hs (.refl _) (State.opsContinue_setRequester ho hgoes)

@[simp] theorem State.stubStep_requesters (s : State) : s.stubStep.requesters = s.requesters := by
  obtain h | ⟨-, -, -, -, h⟩ := s.stubStep_cases <;> rw [h]

theorem takeMove_lentOnce {m : Move} {s t : State} (e : takeMove m s = .next t) (hs : s.lentOnce) : t.lentOnce := by
  have hmove := takeMove_next e
  cases m with
  | call who h w =>
    obtain ⟨o, rest, -, -, -, huse, hlent, rfl⟩ := hmove
    exact State.lentOnce_call (s := State.modDesc { s with turn := who } h _) hs huse hlent
  | init c =>
    obtain ⟨-, -, rfl⟩ := execInit_next hmove
    exact State.lentOnce_of_continue hs (List.nil_sublist _) (State.opsContinue_of_eq rfl)
  | run who => exact (runRequester_effect hmove).lentOnce hs
  | raise w => obtain ⟨-, rfl⟩ | ⟨-, -, rfl⟩ := hmove <;> exact hs
  | interrupt =>
    obtain ⟨w, -, -, -, hexec⟩ | rfl := hmove
    · exact exec_event_lentOnce hexec hs
    · exact State.lentOnce_of_continue hs (by simp) (State.opsContinue_of_eq (by simp))
  | handler =>
    obtain ⟨w, t', -, -, -, hexec, rfl⟩ | rfl := hmove
    · have hevent := exec_event_lentOnce hexec hs
      exact hevent
    · exact hs
  | tick =>
    have htick : t = s.tick := hmove
    rw [htick]
    exact State.lentOnce_of_continue hs (.refl _) s.opsContinue_tick
  | writeId who h id =>
    obtain ⟨-, -, rfl⟩ := hmove
    exact hs
  | drain who h =>
    obtain ⟨-, rfl⟩ := hmove
    exact hs

/-- Settles O46: a step lends a handle anew only at S2 and opens an operation only by a call, and each has met its condition
(`lentOnce_enqueue`, `lentOnce_call`); any other step continues (`lentOnce_of_continue`). -/
theorem everyStepLendsADescriptorOnce : Obligations.EveryStepLendsADescriptorOnce := by
  unfold Obligations.EveryStepLendsADescriptorOnce
  intro s t hs e
  obtain ⟨-, rfl⟩ | ⟨m, rest, -, e⟩ := step_next e
  · exact hs
  · exact takeMove_lentOnce e hs

end Sys2Proof.Machine
end

