-- ==== Sys2Proof/Proofs/Status.lean ====
section
/-! SUPPORT. Who writes a descriptor's `status` (R13): what a step can do to the descriptor table, in the terms of that one field.
Settles O56. -/

namespace Sys2Proof.Machine

/-! ### The descriptor table -/

/-- A change of descriptor `h` changes no other. -/
theorem modify_changed {l : List Descriptor} {h k : Handle} {f : Descriptor → Descriptor} {d d' : Descriptor}
    (hd : l[k]? = some d) (hd' : (l.modify h f)[k]? = some d') : d' = d ∨ (h = k ∧ d' = f d) := by
  rw [modify_getElem?, hd] at hd'
  split at hd'
  · rename_i hk
    exact .inr ⟨hk.symm, (Option.some.inj hd').symm⟩
  · exact .inl (Option.some.inj hd').symm

@[simp] theorem State.terminal_descs (s : State) (h : Handle) (st : Byte) :
    (s.terminal h st).descs = s.descs.modify h (fun d => { d with status := st, done := true }) := by
  cases hq : s.queue with
  | nil => rw [State.terminal_idle h st hq]
  | cons next rest => rw [State.terminal_chain h st hq]

/-- What a step can do to the descriptor table, as far as `status` goes. -/
inductive StatusEffect (s t : State) : Prop
  /-- no status is written -/
  | kept (h : Handle) (f : Descriptor → Descriptor) (hf : ∀ d, (f d).status = d.status)
      (hdescs : t.descs = s.descs.modify h f)
  /-- a requester's step on its own descriptor (R88, R89) -/
  | submits (who : Who) (o : Op) (f : Descriptor → Descriptor) (ho : (s.requester who).op = some o)
      (hf : s.writesStatus o f) (hdescs : t.descs = s.descs.modify o.handle f)
  /-- the terminal sequence of the active descriptor (R115) -/
  | ends (h : Handle) (st : Byte) (f : Descriptor → Descriptor) (hc : s.cur = some h) (hst : st.toNat < 6)
      (hf : ∀ d, (f d).status = st ∧ (f d).done = true) (hdescs : t.descs = s.descs.modify h f)

theorem StatusEffect.of_descs_eq {s t : State} (h : t.descs = s.descs) : StatusEffect s t :=
  .kept 0 id (fun _ => rfl) (by rw [h, List.modify_id])

theorem Descriptor.storePayload_status (d : Descriptor) (rdCnt : BitVec 2) (b : Byte) :
    (d.storePayload rdCnt b).status = d.status := by
  unfold Descriptor.storePayload
  split <;> rfl

theorem EventEffect.statusEffect {s t : State} (e : EventEffect s t) : StatusEffect s t := by
  cases e with
  | goesOn | activates => exact .of_descs_eq rfl
  | stores h d b => exact .kept h _ (fun d => d.storePayload_status s.rdCnt b) rfl
  | ends code h d st hc hd hst => exact .ends h st _ hc hst (fun _ => ⟨rfl, rfl⟩) (by rw [State.terminal_descs]; rfl)
  | storesAndEnds h d b hc =>
    exact .ends h stSuccess _ hc (by decide) (fun _ => ⟨rfl, rfl⟩) (by rw [State.terminal_descs, modify_modify])

theorem exec_event_status {w : BitVec 16} {s t : State} (e : exec (decodeEvt16 w) s = .next t) : StatusEffect s t :=
  (exec_event_effect (decodeEvt16_event w) e).2.statusEffect

theorem RunEffect.statusEffect {s t : State} {who : Who} (e : RunEffect s who t) : StatusEffect s t := by
  cases e with
  | waits | enqueues | kicks => exact .of_descs_eq rfl
  | advances o f r ho hf hr => exact .submits who o f ho hf rfl

@[simp] theorem State.stubStep_descs (s : State) : s.stubStep.descs = s.descs := by
  obtain h | ⟨-, -, -, -, h⟩ := s.stubStep_cases <;> rw [h]

theorem takeMove_status {m : Move} {s t : State} (e : takeMove m s = .next t) : StatusEffect s t := by
  have hmove := takeMove_next e
  cases m with
  | call who h w =>
    obtain ⟨o, rest, -, -, -, -, -, rfl⟩ := hmove
    exact .kept h (fun d => { d with used := true, opcode := o }) (fun _ => rfl) rfl
  | init c =>
    obtain ⟨-, -, rfl⟩ := execInit_next hmove
    exact .of_descs_eq rfl
  | run who => exact (runRequester_effect hmove).statusEffect
  | raise w => obtain ⟨-, rfl⟩ | ⟨-, -, rfl⟩ := hmove <;> exact .of_descs_eq rfl
  | interrupt =>
    obtain ⟨w, -, -, -, hexec⟩ | rfl := hmove
    · exact exec_event_status hexec
    · exact .of_descs_eq (by simp)
  | handler =>
    obtain ⟨w, t', -, -, -, hexec, rfl⟩ | rfl := hmove
    · cases exec_event_status hexec with
      | kept h f hf hdescs => exact .kept h f hf hdescs
      | submits who o f ho hf hdescs => exact .submits who o f ho hf hdescs
      | ends h st f hc hst hf hdescs => exact .ends h st f hc hst hf hdescs
    · exact .of_descs_eq rfl
  | tick =>
    have htick : t = s.tick := hmove
    rw [htick]
    exact .of_descs_eq rfl
  | writeId who h id =>
    obtain ⟨-, -, rfl⟩ := hmove
    exact .kept h (fun d => { d with requesterId := id }) (fun _ => rfl) rfl
  | drain who h =>
    obtain ⟨-, rfl⟩ := hmove
    exact .kept h (fun d => { d with done := false }) (fun _ => rfl) rfl

/-- The writers of `status` (R13, R88, R89, R115), as the statement of O56 has them. -/
theorem StatusEffect.writers {s t : State} (e : StatusEffect s t) {h : Handle} {d d' : Descriptor}
    (hd : s.descs[h]? = some d) (hd' : t.descs[h]? = some d') (hne : d'.status ≠ d.status) :
    (∃ who o, (s.requester who).op = some o ∧ o.handle = h ∧ o.pos = .s1 ∧ d'.status = 0x07) ∨
    (∃ who o, (s.requester who).op = some o ∧ o.handle = h ∧ o.pos = .s2 ∧ s.queue.length = s.queueCapacity ∧
      d'.status = 0x06) ∨
    (s.cur = some h ∧ d'.done = true ∧ d'.status.toNat < 6) := by
  cases e with
  | kept k f hf hdescs =>
    rw [hdescs] at hd'
    obtain rfl | ⟨-, rfl⟩ := modify_changed hd hd'
    · exact absurd rfl hne
    · exact absurd (hf d) hne
  | submits who o f ho hf hdescs =>
    rw [hdescs] at hd'
    obtain rfl | ⟨hk, rfl⟩ := modify_changed hd hd'
    · exact absurd rfl hne
    · obtain hkept | ⟨hp, hstatus⟩ | ⟨hp, hfull, hstatus⟩ := hf
      · exact absurd (hkept d) hne
      · exact .inl ⟨who, o, ho, hk, hp, hstatus d⟩
      · exact .inr (.inl ⟨who, o, ho, hk, hp, hfull, hstatus d⟩)
  | ends k st f hc hst hf hdescs =>
    rw [hdescs] at hd'
    obtain rfl | ⟨rfl, rfl⟩ := modify_changed hd hd'
    · exact absurd rfl hne
    · obtain ⟨hstatus, hdone⟩ := hf d
      exact .inr (.inr ⟨hc, hdone, hstatus ▸ hst⟩)

/-- Settles O56, from the three ways a step can change the descriptor table. -/
theorem statusIsWrittenOnlyBySubmitStepsAndTheTerminalSequence :
    Obligations.StatusIsWrittenOnlyBySubmitStepsAndTheTerminalSequence := by
  unfold Obligations.StatusIsWrittenOnlyBySubmitStepsAndTheTerminalSequence
  intro s t h d d' e hd hd' hne
  obtain ⟨-, rfl⟩ | ⟨m, rest, -, e⟩ := step_next e
  · exact absurd (congrArg Descriptor.status (Option.some.inj (hd'.symm.trans hd))) hne
  · exact (takeMove_status e).writers hd hd' hne

end Sys2Proof.Machine
end

