-- ==== Sys2Proof/Proofs/PortsAndOwner.lean ====
section
/-! SUPPORT. The CMD port read back (R70), the handles that name no descriptor (R36, R173 (d)), and the owner's two accesses (R11, R187).
Settles O8, O12 and O25. -/

namespace Sys2Proof.Machine

open Sys2Proof.Spec

/-! ### The CMD port (R70) -/

/-- The command that a value of the CMD port presents: its strobe tells it, and no value is `HW.Configure`. -/
def HwCmd.ofPort : Option CmdPort → HwCmd
  | none => .configure
  | some p =>
    match p.tx with
    | some b => .tx b
    | none =>
      if p.startSet then .start else if p.startClr then .clearStart else if p.stopSet then .stop
      else if p.ackSet then .ackOn else .ackOff

theorem HwCmd.ofPort_port (c : HwCmd) : HwCmd.ofPort c.port = c := by
  cases c <;> rfl

theorem HwCmd.port_injective : Function.Injective HwCmd.port :=
  Function.LeftInverse.injective HwCmd.ofPort_port

theorem HwCmd.port_eq_none_iff (c : HwCmd) : c.port = none ↔ c = .configure :=
  ⟨fun h => HwCmd.port_injective (h.trans rfl), fun h => by rw [h]; rfl⟩

/-- Settles O8: the port value can be read back, so it tells the commands apart. -/
theorem commandPortTellsTheCommandsApart : Obligations.CommandPortTellsTheCommandsApart := by
  unfold Obligations.CommandPortTellsTheCommandsApart
  exact ⟨HwCmd.port_eq_none_iff, fun _ _ h => HwCmd.port_injective h, rfl, rfl, rfl, rfl, rfl, fun _ => rfl⟩

/-! ### Handles that name no descriptor (R36, R173 (d)) -/

theorem State.desc?_outOfRange {s : State} {h : Handle} (hn : s.nDesc ≤ h) : s.descs[h]? = none :=
  List.getElem?_eq_none hn

theorem State.withActive_outOfRange {s : State} {h : Handle} (hc : s.cur = some h) (hn : s.nDesc ≤ h)
    (rule : Handle → Descriptor → Result) : s.withActive rule = .refused .handleOutOfRange := by
  simp [State.withActive, hc, State.desc?_outOfRange hn]

/-- Every event but a start sent is such a step (R100). -/
theorem State.seqStep_outOfRange {s : State} {h : Handle} (hi : s.initialised = true) (hc : s.cur = some h)
    (hn : s.nDesc ≤ h) (code : Byte) (rule : State → Handle → Descriptor → Result) :
    (s.seqStep code fun s1 => s1.withActive (rule s1)) = .refused .handleOutOfRange := by
  rw [State.seqStep_initialised hi]
  exact State.withActive_outOfRange (s := s.recordPhase code) hc hn _

theorem State.errorStop_outOfRange {s : State} {h : Handle} (hi : s.initialised = true) (hc : s.cur = some h)
    (hn : s.nDesc ≤ h) (code st : Byte) : s.errorStop code st = .refused .handleOutOfRange :=
  State.seqStep_outOfRange hi hc hn code _

theorem State.startAddress_outOfRange {s : State} {h : Handle} (hc : s.cur = some h) (hn : s.nDesc ≤ h) :
    s.startAddress = .refused .handleOutOfRange :=
  State.withActive_outOfRange hc hn _

theorem State.freshStart_active {s : State} {h : Handle} (hc : s.cur = some h) :
    s.freshStart = .next s.resetCounters := by
  simp [State.freshStart, hc]

theorem State.freshStart_head {s : State} {h : Handle} {rest : List Handle} (hc : s.cur = none)
    (hq : s.queue = h :: rest) : s.freshStart = .next { s.resetCounters with queue := rest, cur := some h } := by
  simp [State.freshStart, hc, State.dequeue, hq]

/-- A retry, and a start sent within a transaction, go on with the active handle (R102). -/
theorem execEvtStartSent_outOfRange {s : State} {h : Handle} (hi : s.initialised = true) (hc : s.cur = some h)
    (hn : s.nDesc ≤ h) (rx : Byte) : execEvtStartSent rx s = .refused .handleOutOfRange := by
  have hfresh := State.freshStart_active (s := (s.recordPhase phStartSent).emit .clearStart) hc
  rw [execEvtStartSent, State.seqStep_initialised hi]
  simp only [hfresh]
  split <;> exact State.startAddress_outOfRange hc hn

/-- A fresh activation takes the head of the queue (R102). -/
theorem execEvtStartSent_head_outOfRange {s : State} {h : Handle} {rest : List Handle} (hi : s.initialised = true)
    (hc : s.cur = none) (hq : s.queue = h :: rest) (hp : s.phase ≠ phArbLost) (hn : s.nDesc ≤ h) (rx : Byte) :
    execEvtStartSent rx s = .refused .handleOutOfRange := by
  have hfresh := State.freshStart_head (s := (s.recordPhase phStartSent).emit .clearStart) hc hq
  rw [execEvtStartSent, State.seqStep_initialised hi, State.recordPhase_lastPhase, if_neg hp]
  simp only [hfresh]
  exact State.startAddress_outOfRange rfl hn

theorem exec_event_outOfRange {i : Instr} {s : State} {h : Handle} (hev : isEvent i = true) (hi : s.initialised = true)
    (hc : s.cur = some h) (hn : s.nDesc ≤ h) : exec i s = .refused .handleOutOfRange := by
  cases i with
  | quick | sendByte | receiveByte | writeByte | readByte | writeWord | readWord | init => cases hev
  | evtBusError | evtAddrWNak | evtDataWNak | evtAddrRNak | evtOther => exact State.errorStop_outOfRange hi hc hn _ _
  | evtStartSent rx => exact execEvtStartSent_outOfRange hi hc hn rx
  | evtRepStartSent | evtAddrWAck | evtDataWAck | evtArbLost | evtAddrRAck | evtDataRxAck | evtDataRxNak =>
    simp only [exec]
    exact State.seqStep_outOfRange hi hc hn _ _

theorem State.runRequester_outOfRange {s : State} {who : Who} {o : Op} (hi : s.initialised = true)
    (ho : (s.requester who).op = some o) (hn : s.nDesc ≤ o.handle) :
    s.runRequester who = .refused .handleOutOfRange := by
  rw [State.requester_eq] at ho
  simp [State.runRequester, hi, ho, State.desc?_outOfRange hn]

theorem State.ownerRefusal_outOfRange {s : State} {h : Handle} (who : Who) (hi : s.initialised = true)
    (hn : s.nDesc ≤ h) : s.ownerRefusal who h = some .handleOutOfRange := by
  simp [State.ownerRefusal, hi, State.desc?_outOfRange hn]

/-- Settles O12: each of these steps looks the handle up in the descriptor table first. -/
theorem handlesThatNameNoDescriptorStopTheStep : Obligations.HandlesThatNameNoDescriptorStopTheStep := by
  unfold Obligations.HandlesThatNameNoDescriptorStopTheStep
  refine ⟨fun i s h => exec_event_outOfRange,
    fun s h rest rx hi hc hq hp hn => execEvtStartSent_head_outOfRange hi hc hq hp hn rx,
    fun s who o => State.runRequester_outOfRange, fun s who h id hi hn => ?_⟩
  have hrefused := State.ownerRefusal_outOfRange who hi hn
  exact ⟨by rw [State.drainChannel, hrefused], by rw [State.writeRequesterId, hrefused]⟩

/-! ### The owner's accesses (R11, R187) -/

theorem State.ownerRefusal_none {s : State} {who : Who} {h : Handle} (hi : s.initialised = true) (hn : h < s.nDesc)
    (hop : (s.requester who).op = none) (huse : s.inUse h = false) : s.ownerRefusal who h = none := by
  have hlen : h < s.descs.length := hn
  rw [State.requester_eq] at hop
  simp [State.ownerRefusal, hi, hlen, hop, huse]

/-- Settles O25: nothing refuses the owner here but, for `writeId`, the lent descriptor (R44). -/
theorem ownerWritesItsNameAndDrainsItsChannel : Obligations.OwnerWritesItsNameAndDrainsItsChannel := by
  unfold Obligations.OwnerWritesItsNameAndDrainsItsChannel
  intro s who h id hi hn hop huse
  have hallowed := State.ownerRefusal_none hi hn hop huse
  have hlent : s.lent h = true ↔ h ∈ s.queue ∨ s.cur = some h := by
    simp [State.lent, State.queued, State.active]
  refine ⟨by rw [State.drainChannel, hallowed]; rfl, ?_⟩
  simp only [State.writeRequesterId, hallowed, hlent, State.modDesc]

end Sys2Proof.Machine
end

