-- ==== Sys2Proof/Proofs/RequestFields.lean ====
section
/-! SUPPORT. Who writes a descriptor's request fields and payload (R44, R54): what a step can do to the descriptor table, in the terms of
those fields. Settles O57. -/

namespace Sys2Proof.Machine

/-- The request fields, which the sequencer only reads (R11, R14 to R16, R44). -/
structure RequestFields where
  opcode : Opcode
  address : Addr7
  command : Byte
  requesterId : Byte

def Descriptor.requestFields (d : Descriptor) : RequestFields :=
  { opcode := d.opcode, address := d.address, command := d.command, requesterId := d.requesterId }

theorem Descriptor.requestFields_eq_iff {d d' : Descriptor} :
    d'.requestFields = d.requestFields ↔
      d'.opcode = d.opcode ∧ d'.address = d.address ∧ d'.command = d.command ∧ d'.requesterId = d.requesterId := by
  simp [Descriptor.requestFields]

/-- `payload[0..1]` (R17). -/
def Descriptor.payload (d : Descriptor) : Byte × Byte := (d.payload0, d.payload1)

theorem Descriptor.payload_eq_iff {d d' : Descriptor} :
    d'.payload = d.payload ↔ d'.payload0 = d.payload0 ∧ d'.payload1 = d.payload1 := by
  simp [Descriptor.payload]

theorem Descriptor.storePayload_requestFields (d : Descriptor) (rdCnt : BitVec 2) (b : Byte) :
    (d.storePayload rdCnt b).requestFields = d.requestFields := by
  unfold Descriptor.storePayload
  split <;> rfl

@[simp] theorem State.terminal_rdCnt (s : State) (h : Handle) (st : Byte) : (s.terminal h st).rdCnt = s.rdCnt := by
  cases hq : s.queue with
  | nil => rw [State.terminal_idle h st hq]
  | cons next rest => rw [State.terminal_chain h st hq]

/-- What a step can do to the descriptor table, as far as the request fields and the payload go (the table of R44). -/
inductive RequestEffect (s t : State) : Prop
  /-- none of them is written -/
  | kept (h : Handle) (f : Descriptor → Descriptor) (hdescs : t.descs = s.descs.modify h f)
      (hf : ∀ d, (f d).requestFields = d.requestFields ∧ (f d).payload = d.payload)
  /-- the owner or the fill step writes a descriptor that is not lent (R11, R80) -/
  | fills (h : Handle) (f : Descriptor → Descriptor) (hdescs : t.descs = s.descs.modify h f) (hlent : s.lent h = false)
  /-- the sequencer stores a received byte in the active descriptor (R114) -/
  | stores (h : Handle) (f : Descriptor → Descriptor) (hdescs : t.descs = s.descs.modify h f) (hc : s.cur = some h)
      (hrd : t.rdCnt = s.rdCnt + 1) (hf : ∀ d, (f d).requestFields = d.requestFields)

theorem RequestEffect.of_descs_eq {s t : State} (h : t.descs = s.descs) : RequestEffect s t :=
  .kept 0 id (by rw [h, List.modify_id]) fun _ => ⟨rfl, rfl⟩

/-! ### Events and requesters' steps -/

theorem EventEffect.requestEffect {s t : State} (e : EventEffect s t) : RequestEffect s t := by
  cases e with
  | goesOn | activates => exact .of_descs_eq rfl
  | stores h d b hc => exact .stores h _ rfl hc rfl fun d => d.storePayload_requestFields s.rdCnt b
  | ends code h d st => exact .kept h _ (State.terminal_descs _ h st) fun _ => ⟨rfl, rfl⟩
  | storesAndEnds h d b hc =>
    exact .stores h (fun d => { d.storePayload s.rdCnt b with status := stSuccess, done := true })
      (by rw [State.terminal_descs, modify_modify]) hc (State.terminal_rdCnt _ h stSuccess)
      fun d => d.storePayload_requestFields s.rdCnt b

theorem exec_event_request {w : BitVec 16} {s t : State} (e : exec (decodeEvt16 w) s = .next t) : RequestEffect s t :=
  (exec_event_effect (decodeEvt16_event w) e).2.requestEffect

theorem State.stepS2_request (s : State) (who : Who) (o : Op) : RequestEffect s (s.stepS2 who o) := by
  unfold State.stepS2
  by_cases hfull : s.queue.length = s.queueCapacity
  · rw [State.enqueue_full hfull]
    exact .kept o.handle _ rfl fun _ => ⟨rfl, rfl⟩
  · rw [State.enqueue_room hfull]
    exact .of_descs_eq rfl

@[simp] theorem State.kick_descs (s : State) : s.kick.descs = s.descs := by
  unfold State.kick
  split <;> rfl

@[simp] theorem State.beginS5_descs (s : State) (who : Who) (o : Op) (status : Byte) :
    (s.beginS5 who o status).descs = s.descs := by
  rw [State.beginS5_eq]
  rfl

theorem State.stepS4_request (s : State) (who : Who) (o : Op) (d : Descriptor) (left : Nat) :
    RequestEffect s (s.stepS4 who o d left) := by
  unfold State.stepS4
  split
  · exact .kept o.handle _ (State.beginS5_descs _ _ _ _) fun _ => ⟨rfl, rfl⟩
  · split <;> exact .of_descs_eq rfl

/-- Only the fill step writes them, and it comes before the enqueue (R80). -/
theorem runRequester_request {s t : State} {who : Who} (e : s.runRequester who = .next t) (hfree : s.freeBeforeEnqueue) :
    RequestEffect s t := by
  obtain rfl | ⟨o, d, -, ho, -, hstep⟩ := runRequester_next e
  · exact .of_descs_eq rfl
  · cases hp : o.pos <;> simp only [hp] at hstep <;> subst hstep
    case fill next rest => exact .fills o.handle _ rfl (hfree who o ho (by rw [hp]; rfl))
    case s1 => exact .kept o.handle _ rfl fun _ => ⟨rfl, rfl⟩
    case s2 => exact s.stepS2_request who o
    case s3 => exact .of_descs_eq s.kick_descs
    case s4 left => exact s.stepS4_request who o d left
    case s5 => exact .of_descs_eq (s.beginS5_descs who o d.status)
    case s5Delay left =>
      unfold State.stepS5Delay
      split <;> exact .of_descs_eq rfl
    case s6 => exact .of_descs_eq rfl

/-! ### Steps -/

theorem takeMove_request {m : Move} {s t : State} (e : takeMove m s = .next t) (hfree : s.freeBeforeEnqueue) :
    RequestEffect s t := by
  have hmove := takeMove_next e
  cases m with
  | call who h w =>
    obtain ⟨o, rest, -, -, -, -, hlent, rfl⟩ := hmove
    exact .fills h _ rfl hlent
  | init c =>
    obtain ⟨-, -, rfl⟩ := execInit_next hmove
    exact .of_descs_eq rfl
  | run who => exact runRequester_request hmove hfree
  | raise w => obtain ⟨-, rfl⟩ | ⟨-, -, rfl⟩ := hmove <;> exact .of_descs_eq rfl
  | interrupt =>
    obtain ⟨w, -, -, -, hexec⟩ | rfl := hmove
    · exact exec_event_request hexec
    · exact .of_descs_eq s.stubStep_descs
  | handler =>
    obtain ⟨w, t', -, -, -, hexec, rfl⟩ | rfl := hmove
    · cases exec_event_request hexec with
      | kept h f hdescs hf => exact .kept h f hdescs hf
      | fills h f hdescs hlent => exact .fills h f hdescs hlent
      | stores h f hdescs hc hrd hf => exact .stores h f hdescs hc hrd hf
    · exact .of_descs_eq rfl
  | tick =>
    have htick : t = s.tick := hmove
    rw [htick]
    exact .of_descs_eq rfl
  | writeId who h id =>
    obtain ⟨-, hlent, rfl⟩ := hmove
    exact .fills h _ rfl hlent
  | drain who h =>
    obtain ⟨-, rfl⟩ := hmove
    exact .kept h _ rfl fun _ => ⟨rfl, rfl⟩

/-- What the effect leaves of a lent descriptor: its request fields, and its payload but for the sequencer's store. -/
theorem RequestEffect.of_lent {s t : State} (e : RequestEffect s t) {h : Handle} {d d' : Descriptor}
    (hd : s.descs[h]? = some d) (hd' : t.descs[h]? = some d') (hlent : s.lent h = true) :
    d'.requestFields = d.requestFields ∧ (d'.payload = d.payload ∨ (s.cur = some h ∧ t.rdCnt = s.rdCnt + 1)) := by
  cases e with
  | kept k f hdescs hf =>
    rw [hdescs] at hd'
    obtain rfl | ⟨-, rfl⟩ := modify_changed hd hd'
    · exact ⟨rfl, .inl rfl⟩
    · exact (hf d).imp_right .inl
  | fills k f hdescs hfree =>
    rw [hdescs] at hd'
    obtain rfl | ⟨rfl, -⟩ := modify_changed hd hd'
    · exact ⟨rfl, .inl rfl⟩
    · simp [hfree] at hlent
  | stores k f hdescs hc hrd hf =>
    rw [hdescs] at hd'
    obtain rfl | ⟨rfl, rfl⟩ := modify_changed hd hd'
    · exact ⟨rfl, .inl rfl⟩
    · exact ⟨hf d, .inr ⟨hc, hrd⟩⟩

/-- R44: a step leaves the request fields of a lent descriptor, and its payload but for the sequencer's store. -/
theorem step_of_lent {s t : State} (e : step s = .next t) (hfree : s.freeBeforeEnqueue) {h : Handle} {d d' : Descriptor}
    (hd : s.descs[h]? = some d) (hd' : t.descs[h]? = some d') (hlent : s.lent h = true) :
    d'.requestFields = d.requestFields ∧ (d'.payload = d.payload ∨ (s.cur = some h ∧ t.rdCnt = s.rdCnt + 1)) := by
  obtain ⟨-, rfl⟩ | ⟨m, rest, -, e⟩ := step_next e
  · exact (RequestEffect.of_descs_eq rfl).of_lent hd hd' hlent
  · exact (takeMove_request e hfree).of_lent hd hd' hlent

/-- Settles O57: of the three effects on the request fields and the payload, the fill step's and the owner's meet no lent descriptor
(`lentOnce`), and the sequencer's store writes the payload of the active one alone. -/
theorem lentDescriptorIsTheSequencersAlone : Obligations.LentDescriptorIsTheSequencersAlone := by
  unfold Obligations.LentDescriptorIsTheSequencersAlone
  intro s t h d d' hs e hd hd' hlent
  obtain ⟨-, hfree, -⟩ := s.lentOnce_iff.mp hs
  obtain ⟨hrequest, hpayload⟩ := step_of_lent e hfree hd hd' hlent
  obtain ⟨hopcode, haddress, hcommand, hid⟩ := Descriptor.requestFields_eq_iff.mp hrequest
  refine ⟨hopcode, haddress, hcommand, hid, fun hchanged => hpayload.resolve_left fun hkept => ?_⟩
  obtain ⟨hkept0, hkept1⟩ := Descriptor.payload_eq_iff.mp hkept
  exact hchanged.elim (absurd hkept0) (absurd hkept1)

end Sys2Proof.Machine
end

