-- ==== Sys2Proof/Proofs/PayloadWords.lean ====
section
/-! SUPPORT. Words in the payload and the response word (R41, R62, R67): the split, its inverse, and RSP24 as a number. Settles O7. -/

namespace Sys2Proof.Machine

theorem lowByte_eq_setWidth (w : Word16) : lowByte w = w.setWidth 8 :=
  (BitVec.setWidth_eq_extractLsb' (by decide)).symm

theorem highByte_eq_shift (w : Word16) : highByte w = (w >>> 8).setWidth 8 :=
  BitVec.setWidth_ushiftRight_eq_extractLsb.symm

theorem highByte_append_lowByte (w : Word16) : highByte w ++ lowByte w = w :=
  BitVec.extractLsb'_append_extractLsb' (w := 8) (len := 8)

theorem Descriptor.word_eq_of_bytes {d : Descriptor} {w : Word16} (hlow : d.payload0 = lowByte w)
    (hhigh : d.payload1 = highByte w) : d.word = w := by
  rw [Descriptor.word, hlow, hhigh, highByte_append_lowByte]

/-- A byte string read as a number: its last byte is the lowest digit to base 256. -/
theorem toNat_append_byte {n : Nat} (x : BitVec n) (b : Byte) : (x ++ b).toNat = 256 * x.toNat + b.toNat := by
  rw [BitVec.toNat_append, ← Nat.shiftLeft_add_eq_or_of_lt b.isLt, Nat.shiftLeft_eq, Nat.mul_comm]

theorem Descriptor.rsp24_toNat (d : Descriptor) :
    d.rsp24.toNat = 65536 * d.status.toNat + 256 * d.payload1.toNat + d.payload0.toNat := by
  rw [Descriptor.rsp24, toNat_append_byte, toNat_append_byte]
  omega

/-- Settles O7, from the bytes as slices of the word and the response word as a string of three bytes. -/
theorem wordsAreLittleEndianInThePayload : Obligations.WordsAreLittleEndianInThePayload := by
  unfold Obligations.WordsAreLittleEndianInThePayload
  exact ⟨fun w => ⟨lowByte_eq_setWidth w, highByte_eq_shift w⟩, fun _ _ => Descriptor.word_eq_of_bytes,
    Descriptor.rsp24_toNat⟩

end Sys2Proof.Machine
end

