-- ==== Sys2Proof/Proofs/RequestWords.lean ====
section
/-! SUPPORT. REQ40 words (R61, R69 (a)): the fields of a written word, what the masks of the opcode table say about the fields, and when
the decoder answers. Settles O3 and O4. -/

namespace Sys2Proof

open Sys2Proof.Spec

/-! ### Opcodes (R64) -/

@[simp] theorem Opcode.ofBits_bits (o : Opcode) : Opcode.ofBits o.bits = some o := by
  cases o <;> rfl

theorem Opcode.ofBits_eq_none_iff : ∀ b : BitVec 3, Opcode.ofBits b = none ↔ b = 7 := by decide

/-! ### The fields of a written word -/

section
variable (o : Opcode) (a : Addr7) (c : Byte) (dd : Word16)

@[simp] theorem Req40.data16_req40 : Req40.data16 (req40 o a c dd) = dd :=
  BitVec.extractLsb'_append_eq_right

@[simp] theorem Req40.payload0_req40 (b : Byte) : Req40.payload0 (req40 o a c (inPayload0 b)) = b :=
  (BitVec.extractLsb'_append_eq_of_add_le (by decide)).trans BitVec.extractLsb'_append_eq_right

@[simp] theorem Req40.command_req40 : Req40.command (req40 o a c dd) = c :=
  (BitVec.extractLsb'_append_eq_of_le (by decide)).trans BitVec.extractLsb'_append_eq_right

/-- A slice from bit 24 up is a slice of the word without `command` and `data16`. -/
theorem extractLsb'_req40 {start len : Nat} (hs : 24 ≤ start) :
    (req40 o a c dd).extractLsb' start len = (0#5 ++ o.bits ++ 0#1 ++ a).extractLsb' (start - 16 - 8) len :=
  (BitVec.extractLsb'_append_eq_of_le (by omega)).trans (BitVec.extractLsb'_append_eq_of_le (by omega))

@[simp] theorem Req40.address_req40 : Req40.address (req40 o a c dd) = a :=
  (extractLsb'_req40 o a c dd (by decide)).trans BitVec.extractLsb'_append_eq_right

/-- Above the address stand the reserved bits and the opcode alone. -/
theorem extractLsb'_req40_high {start len : Nat} (hs : 31 ≤ start) :
    (req40 o a c dd).extractLsb' start len = (0#5 ++ o.bits ++ 0#1).extractLsb' (start - 16 - 8 - 7) len :=
  (extractLsb'_req40 o a c dd (by omega)).trans (BitVec.extractLsb'_append_eq_of_le (by omega))

@[simp] theorem Req40.reserved31_req40 : Req40.reserved31 (req40 o a c dd) = 0 :=
  (extractLsb'_req40_high o a c dd (by decide)).trans BitVec.extractLsb'_append_eq_right

@[simp] theorem Req40.opcode_req40 : Req40.opcode (req40 o a c dd) = o.bits := by
  refine (extractLsb'_req40_high o a c dd (by decide)).trans ?_
  cases o <;> rfl

@[simp] theorem Req40.reservedHigh_req40 : Req40.reservedHigh (req40 o a c dd) = 0 := by
  refine (extractLsb'_req40_high o a c dd (by decide)).trans ?_
  cases o <;> rfl

end

/-! ### When the decoder answers (R69 (a)) -/

theorem decodeReq40_eq_requestOf {w : BitVec 40} {o : Opcode} (hhigh : Req40.reservedHigh w = 0)
    (h31 : Req40.reserved31 w = 0) (hop : Req40.opcode w = o.bits) (h : Handle) :
    decodeReq40 h w = .ok (requestOf h w o) := by
  simp [decodeReq40, hhigh, h31, hop]

theorem decodeReq40_ok_iff (h : Handle) (w : BitVec 40) :
    (∃ i, decodeReq40 h w = .ok i) ↔
      (Req40.reservedHigh w = 0 ∧ Req40.reserved31 w = 0) ∧ Req40.opcode w ≠ 7 := by
  unfold decodeReq40
  split_ifs with hhigh h31
  · exact iff_of_false (by simp) fun ⟨⟨hhigh0, _⟩, _⟩ => hhigh hhigh0
  · exact iff_of_false (by simp) fun ⟨⟨_, h310⟩, _⟩ => h31 h310
  · have hne := Opcode.ofBits_eq_none_iff (Req40.opcode w)
    cases hop : Opcode.ofBits (Req40.opcode w) with
    | none => exact iff_of_false (by simp) fun ⟨_, hop7⟩ => hop7 (hne.mp hop)
    | some o =>
      exact iff_of_true ⟨_, rfl⟩ ⟨⟨not_not.mp hhigh, not_not.mp h31⟩, fun hop7 => by simp [hne.mpr hop7] at hop⟩

/-! ### Masks -/

/-- A field that a mask covers is, in a masked word, what it is in the word. -/
theorem extractLsb'_eq_of_masked {m start len : Nat} {w mask v : BitVec m} (hw : w &&& mask = v)
    (hmask : mask.extractLsb' start len = BitVec.allOnes len) :
    w.extractLsb' start len = v.extractLsb' start len := by
  rw [← hw, BitVec.extractLsb'_and, hmask, BitVec.and_allOnes]

/-- The mask of the field of `len` bits from bit `start` up. -/
def fieldMask (start len : Nat) : BitVec 40 := (BitVec.allOnes len).setWidth 40 <<< start

/-- Under its mask a field alone is left, in its place. -/
theorem and_fieldMask (w : BitVec 40) (start len : Nat) :
    w &&& fieldMask start len = (w.extractLsb' start len).setWidth 40 <<< start := by
  apply BitVec.eq_of_getLsbD_eq
  intro i hi
  simp only [fieldMask, BitVec.getLsbD_and, BitVec.getLsbD_shiftLeft, BitVec.getLsbD_setWidth, BitVec.getLsbD_allOnes,
    BitVec.getLsbD_extractLsb', hi, decide_true, Bool.true_and]
  by_cases hs : i < start
  · simp [hs]
  · have hplace : start + (i - start) = i := by omega
    simp [hs, hplace, show i - start < 40 by omega, Bool.and_comm]

/-- 0x0700000000 is the mask of bits 34:32. -/
theorem and_opcodeMask_eq_iff (w : BitVec 40) :
    w &&& 0x0700000000#40 = 0x0700000000#40 ↔ Req40.opcode w = 7 := by
  have hplace : ∀ b : BitVec 3, b.setWidth 40 <<< 32 = 0x0700000000#40 ↔ b = 7 := by decide
  rw [← hplace, Req40.opcode, ← and_fieldMask]
  rfl

/-- 0xF880000000 is the mask of bits 39:35 with that of bit 31. -/
theorem and_reservedMask_eq_zero_iff (w : BitVec 40) :
    w &&& 0xF880000000#40 = 0#40 ↔ Req40.reservedHigh w = 0 ∧ Req40.reserved31 w = 0 := by
  have hmask : 0xF880000000#40 = fieldMask 35 5 ||| fieldMask 31 1 := rfl
  have hhigh : ∀ b : BitVec 5, b.setWidth 40 <<< 35 = 0#40 ↔ b = 0 := by decide
  have h31 : ∀ b : BitVec 1, b.setWidth 40 <<< 31 = 0#40 ↔ b = 0 := by decide
  rw [hmask, BitVec.and_or_distrib_left, BitVec.or_eq_zero_iff, and_fieldMask, and_fieldMask, hhigh, h31]
  rfl

/-- Settles O3: the masks say of the reserved bits and of the opcode field what the decoder tests. -/
theorem requestWordNamesAnOperationIffUnreserved : Obligations.RequestWordNamesAnOperationIffUnreserved := by
  unfold Obligations.RequestWordNamesAnOperationIffUnreserved
  intro h w
  rw [and_reservedMask_eq_zero_iff, Ne, and_opcodeMask_eq_iff]
  exact decodeReq40_ok_iff h w

/-! ### The rows of the opcode table (R61, R64) -/

/-- A word in an opcode's row has the reserved bits 0 and that opcode in its opcode field. -/
theorem decodeReq40_of_row {w : BitVec 40} {o : Opcode} (hrow : w &&& 0xFF80000000#40 = rowMatch o) (h : Handle) :
    decodeReq40 h w = .ok (requestOf h w o) := by
  have hhigh : Req40.reservedHigh w = 0 := (extractLsb'_eq_of_masked hrow rfl).trans (by cases o <;> rfl)
  have h31 : Req40.reserved31 w = 0 := (extractLsb'_eq_of_masked hrow rfl).trans (by cases o <;> rfl)
  have hop : Req40.opcode w = o.bits := (extractLsb'_eq_of_masked hrow rfl).trans (by cases o <;> rfl)
  exact decodeReq40_eq_requestOf hhigh h31 hop h

theorem Req40.address_eq_shift (w : BitVec 40) : Req40.address w = (w >>> 24).setWidth 7 :=
  BitVec.setWidth_ushiftRight_eq_extractLsb.symm

theorem Req40.command_eq_shift (w : BitVec 40) : Req40.command w = (w >>> 16).setWidth 8 :=
  BitVec.setWidth_ushiftRight_eq_extractLsb.symm

theorem Req40.payload0_eq_setWidth (w : BitVec 40) : Req40.payload0 w = w.setWidth 8 :=
  (BitVec.setWidth_eq_extractLsb' (by decide)).symm

theorem Req40.data16_eq_setWidth (w : BitVec 40) : Req40.data16 w = w.setWidth 16 :=
  (BitVec.setWidth_eq_extractLsb' (by decide)).symm

/-- Settles O4: the row decides the opcode, and the fields of the word are its shifts, cut to their widths. -/
theorem requestWordFieldsAreWhereTheTableHasThem : Obligations.RequestWordFieldsAreWhereTheTableHasThem := by
  unfold Obligations.RequestWordFieldsAreWhereTheTableHasThem
  intro h w o hrow
  simp only [← Req40.address_eq_shift w, ← Req40.command_eq_shift w, ← Req40.payload0_eq_setWidth w,
    ← Req40.data16_eq_setWidth w]
  refine (decodeReq40_of_row hrow h).trans ?_
  cases o <;> rfl

end Sys2Proof
end

