-- ==== Sys2Proof/Proofs/EventWords.lean ====
section
/-! SUPPORT. EVT16 words (R63, R65, R69 (b)): the two bytes of a word, and the event of a class with its code. Settles O2. -/

namespace Sys2Proof

open Sys2Proof.Spec

@[simp] theorem Evt16.code_evt16 (code rx : Byte) : Evt16.code (evt16 code rx) = code :=
  BitVec.extractLsb'_append_eq_left

@[simp] theorem Evt16.rx_evt16 (code rx : Byte) : Evt16.rx (evt16 code rx) = rx :=
  BitVec.extractLsb'_append_eq_right

theorem evt16_code_rx (w : BitVec 16) : evt16 (Evt16.code w) (Evt16.rx w) = w :=
  BitVec.extractLsb'_append_extractLsb' (w := 8) (len := 8)

/-- The event of a class, with the received code (which the class OTHER alone keeps) and byte; the counterpart of `requestOf`. -/
def eventOf (code rx : Byte) : PhaseClass → Instr
  | .busError => .evtBusError rx
  | .startSent => .evtStartSent rx
  | .repStartSent => .evtRepStartSent rx
  | .addrWAck => .evtAddrWAck rx
  | .addrWNak => .evtAddrWNak rx
  | .dataWAck => .evtDataWAck rx
  | .dataWNak => .evtDataWNak rx
  | .arbLost => .evtArbLost rx
  | .addrRAck => .evtAddrRAck rx
  | .addrRNak => .evtAddrRNak rx
  | .dataRxAck => .evtDataRxAck rx
  | .dataRxNak => .evtDataRxNak rx
  | .other => .evtOther code rx

theorem decodeEvt16_eq_eventOf (w : BitVec 16) :
    decodeEvt16 w = eventOf (Evt16.code w) (Evt16.rx w) (classify (Evt16.code w)) := by
  unfold decodeEvt16
  cases classify (Evt16.code w) <;> rfl

/-- The code that a class names (R65); the class OTHER names none, and leaves the code as it was received. -/
def PhaseClass.codeOr (received : Byte) : PhaseClass → Byte
  | .busError => phBusError
  | .startSent => phStartSent
  | .repStartSent => phRepStartSent
  | .addrWAck => phAddrWAck
  | .addrWNak => phAddrWNak
  | .dataWAck => phDataWAck
  | .dataWNak => phDataWNak
  | .arbLost => phArbLost
  | .addrRAck => phAddrRAck
  | .addrRNak => phAddrRNak
  | .dataRxAck => phDataRxAck
  | .dataRxNak => phDataRxNak
  | .other => received

/-- One test of `classify`: it compares the code with the one that the class it answers names. -/
theorem codeOr_ite {code named : Byte} {k rest : PhaseClass} (hk : k.codeOr code = named)
    (hrest : rest.codeOr code = code) : (if code = named then k else rest).codeOr code = code := by
  split
  next heq => exact hk.trans heq.symm
  next => exact hrest

theorem codeOr_classify (code : Byte) : (classify code).codeOr code = code := by
  unfold classify
  iterate 12 refine codeOr_ite rfl ?_
  rfl

theorem encode_eventOf (code rx : Byte) (k : PhaseClass) :
    encode (eventOf code rx k) = .evt16 (evt16 (k.codeOr code) rx) := by
  cases k <;> rfl

theorem encode_decodeEvt16 (w : BitVec 16) : encode (decodeEvt16 w) = .evt16 w := by
  rw [decodeEvt16_eq_eventOf, encode_eventOf, codeOr_classify, evt16_code_rx]

theorem isEvent_eventOf (code rx : Byte) (k : PhaseClass) : isEvent (eventOf code rx k) = true := by
  cases k <;> rfl

/-- Only the class OTHER has a check, and it is that the code is of this class. -/
theorem eventOf_classify_wf (code rx : Byte) : (eventOf code rx (classify code)).wf = true := by
  cases hk : classify code with
  | other => simp [eventOf, Instr.wf, hk]
  | _ => rfl

/-- Settles O2, from the word as its code and its byte, and the event as the one of the code's class. -/
theorem everyEventWordIsOneEvent : Obligations.EveryEventWordIsOneEvent := by
  unfold Obligations.EveryEventWordIsOneEvent
  intro w
  refine ⟨rfl, ?_, ?_, encode_decodeEvt16 w⟩
  · rw [decodeEvt16_eq_eventOf]
    exact eventOf_classify_wf _ _
  · rw [decodeEvt16_eq_eventOf]
    exact isEvent_eventOf _ _ _

end Sys2Proof
end

