-- ==== Sys2Proof/Proofs/Encoding.lean ====
section
/-! SUPPORT. Decoding after encoding (R61 to R65), the written-out words of 95_test_vectors.md, and the address byte (R66). Settles O1, O5
and O6. -/

namespace Sys2Proof

open Sys2Proof.Machine

/-! ### Decoding gives back what was encoded -/

theorem decode_req40 (h : Handle) (o : Opcode) (a : Addr7) (c : Byte) (dd : Word16) :
    decode (.req40 h (req40 o a c dd)) = .ok (requestOf h (req40 o a c dd) o) :=
  decodeReq40_eq_requestOf (Req40.reservedHigh_req40 o a c dd) (Req40.reserved31_req40 o a c dd)
    (Req40.opcode_req40 o a c dd) h

theorem decode_evt16 (code rx : Byte) : decode (.evt16 (evt16 code rx)) = .ok (eventOf code rx (classify code)) := by
  rw [decode, decodeEvt16_eq_eventOf, Evt16.code_evt16, Evt16.rx_evt16]

theorem decode_encode {i : Instr} (hwf : i.wf = true) : decode (encode i) = .ok i := by
  cases i with
  | quick | sendByte | receiveByte | writeByte | readByte | writeWord | readWord =>
    simp [encode, decode_req40, requestOf]
  | init => rfl
  | evtBusError | evtStartSent | evtRepStartSent | evtAddrWAck | evtAddrWNak | evtDataWAck | evtDataWNak | evtArbLost
  | evtAddrRAck | evtAddrRNak | evtDataRxAck | evtDataRxNak => exact decode_evt16 _ _
  | evtOther code rx =>
    have hother : classify code = .other := by simpa [Instr.wf] using hwf
    rw [encode, decode_evt16, hother, eventOf]

/-- Settles O1: the fields of a written request word are its operands, and the class of a written event word is the one of its code. -/
theorem decodeGivesBackEveryEncodedInstruction : Obligations.DecodeGivesBackEveryEncodedInstruction := by
  unfold Obligations.DecodeGivesBackEveryEncodedInstruction
  exact fun _ => decode_encode

/-! ### The written-out words -/

theorem decodeTableWord_of_encode {nbits w : Nat} {i : Instr} (hwf : i.wf = true)
    (hw : tableStimulus nbits w = some (encode i)) : decodeTableWord nbits w = some i := by
  simp [decodeTableWord, hw, decode_encode hwf]

/-- Settles O5: each accepted word is the encoding of its call or event. -/
theorem writtenOutWordsDecodeAsTheVectorsSay : Obligations.WrittenOutWordsDecodeAsTheVectorsSay := by
  unfold Obligations.WrittenOutWordsDecodeAsTheVectorsSay
  refine ⟨?_, ?_, ?_, ?_, ?_, ?_, ?_, rfl, rfl, rfl, ?_, ?_, ?_, ?_⟩ <;> exact decodeTableWord_of_encode rfl rfl

/-! ### The address byte (R66) -/

theorem addrByte_eq_shift_or (a : Addr7) (dir : BitVec 1) : addrByte a dir = (a.setWidth 8 <<< 1) ||| dir.setWidth 8 :=
  (BitVec.setWidth_eq _).symm.trans BitVec.setWidth_append_eq_shiftLeft_setWidth_or

theorem addrByte_toNat (a : Addr7) (dir : BitVec 1) : (addrByte a dir).toNat = 2 * a.toNat + dir.toNat := by
  rw [addrByte, BitVec.toNat_append, ← Nat.shiftLeft_add_eq_or_of_lt dir.isLt, Nat.shiftLeft_eq, Nat.mul_comm]

/-- Settles O6: the byte is a string of address and direction, and its last bit its lowest binary digit. -/
theorem addressByteIsTheShiftedAddressWithTheDirection :
    Obligations.AddressByteIsTheShiftedAddressWithTheDirection := by
  unfold Obligations.AddressByteIsTheShiftedAddressWithTheDirection
  exact fun a dir => ⟨addrByte_eq_shift_or a dir, addrByte_toNat a dir⟩

end Sys2Proof
end

