-- ==== Sys2Proof/Proofs/DecodedStep.lean ====
section
/-! SUPPORT. What the moves that bring a word run (R69, R145, R148). Settles O13. -/

namespace Sys2Proof.Machine

theorem runStimulus_of_ok {st : Stimulus} {i : Instr} (h : decode st = .ok i) (s : State) :
    runStimulus st s = exec i s := by
  simp [runStimulus, h]

theorem runStimulus_of_error {st : Stimulus} {e : DecodeError} (h : decode st = .error e) (s : State) :
    runStimulus st s = .refused (.reservedEncoding e) := by
  simp [runStimulus, h]

theorem State.interruptEvent_direct {s : State} (hm : s.params.dispatchMode = .direct) (hi : s.initialised = true)
    (hq : s.irqEn = true) : s.interruptEvent = s.pending := by
  simp [State.interruptEvent, State.delivered, hm, hi, hq]

theorem State.handlerEvent_deferred {s : State} (hm : s.params.dispatchMode = .deferred) (hi : s.initialised = true)
    (hd : s.deferSig = true) : s.handlerEvent = s.pending := by
  simp [State.handlerEvent, hm, hi, hd]

theorem takeMove_interrupt {s : State} {w : BitVec 16} (h : s.interruptEvent = some w) :
    takeMove .interrupt s = exec (decodeEvt16 w) s := by
  simp [takeMove, h]

theorem takeMove_handler {s : State} {w : BitVec 16} (h : s.handlerEvent = some w) :
    takeMove .handler s = thenDo (exec (decodeEvt16 w) s.handlerEntry) State.handlerExit := by
  simp [takeMove, h]

/-- Settles O13: a step takes the next move, and each of these moves runs its stimulus. -/
theorem stepRunsTheDecodedInstruction : Obligations.StepRunsTheDecodedInstruction := by
  unfold Obligations.StepRunsTheDecodedInstruction
  refine ⟨fun s who h w rest i hin hd => ?call, fun s who h w rest e hin hd => ?refusedCall, fun s c rest hin => ?init,
    fun s w rest hin hm hi hq hp => ?interrupt, fun s w rest hin hm hi hd hp => ?handler, fun s hin => ?wait⟩
  case call => exact (step_move hin).trans (runStimulus_of_ok hd _)
  case refusedCall => exact (step_move hin).trans (runStimulus_of_error hd _)
  case init => exact step_move hin
  case interrupt =>
    have hevent := State.interruptEvent_direct (s := { s with inputs := rest }) hm hi hq
    exact (step_move hin).trans (takeMove_interrupt (hevent.trans hp))
  case handler =>
    have hevent := State.handlerEvent_deferred (s := { s with inputs := rest }) hm hi hd
    exact (step_move hin).trans (takeMove_handler (hevent.trans hp))
  case wait => rw [step, hin]

end Sys2Proof.Machine
end

