-- ==== Sys2Proof/Proofs/Calls.lean ====
section
/-! SUPPORT. `init` (R95) and the entry into an operation (R80, R173): what a call within its preconditions does, and which refusal a
broken precondition gives. Settles O9, O11 and O15. -/

namespace Sys2Proof.Machine

open Sys2Proof.Spec

/-! ### init (R95) -/

theorem exec_init_first {s : State} {c : Nat} (hi : s.initialised = false) (hc : 1 ≤ c) :
    exec (.init c) s = .next
      { s.emit .configure with
        queueCapacity := c, queue := [], busy := false, cur := none, phase := phIdle, lastPhase := phIdle, wrCnt := 0,
        rdCnt := 0, arbLost := false, irqEn := true, deferSig := false, initialised := true, pending := none,
        startOutstanding := false } := by
  have hcap : ¬ c < 1 := Nat.not_lt.mpr hc
  simp [exec, execInit, hi, hcap]

/-- Settles O9: `init` writes these registers and no other. -/
theorem initSetsEveryRegisterItNames : Obligations.InitSetsEveryRegisterItNames := by
  unfold Obligations.InitSetsEveryRegisterItNames
  exact fun _ _ hi hc => exec_init_first hi hc

theorem exec_init_again {s : State} (c : Nat) (hi : s.initialised = true) :
    exec (.init c) s = .refused .alreadyInitialised := by
  simp [exec, execInit, hi]

theorem exec_init_zero {s : State} (hi : s.initialised = false) : exec (.init 0) s = .refused .capacityZero := by
  simp [exec, execInit, hi]

/-! ### The seven operations begin alike (R80 to R87) -/

/-- Every fill step writes the opcode first. -/
theorem fillOf_shape {i : Instr} {h : Handle} {ws : List FieldWrite} (hfill : fillOf i = some (h, ws)) :
    ∃ o rest, ws = .opcode o :: rest := by
  cases i with
  | quick | sendByte | receiveByte | writeByte | readByte | writeWord | readWord =>
    cases hfill
    exact ⟨_, _, rfl⟩
  | _ => cases hfill

theorem exec_eq_beginCall {i : Instr} {h : Handle} {first : FieldWrite} {rest : List FieldWrite}
    (hfill : fillOf i = some (h, first :: rest)) (s : State) : exec i s = s.beginCall h first rest := by
  cases i with
  | quick | sendByte | receiveByte | writeByte | readByte | writeWord | readWord =>
    cases hfill
    rfl
  | _ => cases hfill

theorem State.beginCall_refused {s : State} {h : Handle} {why : Refusal} (hwhy : s.callRefusal s.turn h = some why)
    (first : FieldWrite) (rest : List FieldWrite) : s.beginCall h first rest = .refused why := by
  simp [State.beginCall, hwhy]

theorem exec_call_refused {i : Instr} {s : State} {h : Handle} {ws : List FieldWrite} {why : Refusal}
    (hfill : fillOf i = some (h, ws)) (hwhy : s.callRefusal s.turn h = some why) : exec i s = .refused why := by
  obtain ⟨o, rest, rfl⟩ := fillOf_shape hfill
  rw [exec_eq_beginCall hfill, State.beginCall_refused hwhy]

/-! ### The tests of a call -/

theorem State.callRefusal_uninitialised {s : State} (who : Who) (h : Handle) (hi : s.initialised = false) :
    s.callRefusal who h = some .notInitialised := by
  simp [State.callRefusal, hi]

theorem State.callRefusal_outOfRange {s : State} {h : Handle} (who : Who) (hi : s.initialised = true) (hn : s.nDesc ≤ h) :
    s.callRefusal who h = some .handleOutOfRange := by
  simp [State.callRefusal, hi, State.desc?_outOfRange hn]

/-- The tests after the handle has been found to name a descriptor. -/
theorem State.callRefusal_of_desc {s : State} {h : Handle} {d : Descriptor} (who : Who) (hi : s.initialised = true)
    (hd : s.descs[h]? = some d) :
    s.callRefusal who h =
      if (s.requester who).op.isSome then some .requesterInsideOperation
      else if s.inUse h then some .descriptorInUse
      else if s.lent h then some .descriptorLent
      else if !d.used && d.done then some .channelNotEmpty
      else none := by
  simp [State.callRefusal, hi, hd]

theorem State.lent_eq_true_iff (s : State) (h : Handle) : s.lent h = true ↔ h ∈ s.queue ∨ s.cur = some h := by
  simp [State.lent, State.queued, State.active]

theorem State.lent_eq_false {s : State} {h : Handle} (hqueue : h ∉ s.queue) (hcur : s.cur ≠ some h) :
    s.lent h = false := by
  simp [State.lent, State.queued, State.active, hqueue, hcur]

theorem State.inUse_eq_false_iff (s : State) (h : Handle) :
    s.inUse h = false ↔ ∀ e ∈ s.requesters, ∀ o, e.2.op = some o → o.handle ≠ h := by
  have huses : ∀ r : Requester, r.uses h = false ↔ ∀ o, r.op = some o → o.handle ≠ h := by
    intro r
    cases hop : r.op <;> simp [Requester.uses, hop]
  simp only [State.inUse, List.any_eq_false, Bool.not_eq_true, huses]

theorem State.callRefusal_eq_none_of_mayCall {s : State} {who : Who} {h : Handle} {d : Descriptor} (hcall : MayCall s who h d) :
    s.callRefusal who h = none := by
  obtain ⟨hi, hd, hop, hothers, hqueue, hcur, hchannel⟩ := hcall
  have huse : s.inUse h = false := (s.inUse_eq_false_iff h).mpr hothers
  rw [State.callRefusal_of_desc who hi hd, hop, huse, State.lent_eq_false hqueue hcur]
  rcases hchannel with hused | hdone
  · simp [hused]
  · simp [hdone]

/-! ### A call within its preconditions -/

/-- R80: the opcode is written, and the caller is inside the operation before the rest of the fill step. -/
theorem exec_of_mayCall {i : Instr} {s : State} {h : Handle} {d : Descriptor} {o : Opcode} {rest : List FieldWrite}
    (hfill : fillOf i = some (h, .opcode o :: rest)) (hcall : MayCall s s.turn h d) :
    exec i s = .next ((s.modDesc h (fun d => { d with used := true, opcode := o })).setOp s.turn
      { handle := h, pos := Pos.afterWrite rest, timedOut := false }) := by
  rw [exec_eq_beginCall hfill, State.beginCall, State.callRefusal_eq_none_of_mayCall hcall]
  rfl

/-- Settles O15, from the one entry that the seven operations share. -/
theorem eachOperationBeginsWithItsFillStep : Obligations.EachOperationBeginsWithItsFillStep := by
  unfold Obligations.EachOperationBeginsWithItsFillStep
  exact fun _ _ _ _ _ _ _ hfill hcall => exec_of_mayCall hfill hcall

/-! ### Broken preconditions (R173) -/

theorem State.seqStep_uninitialised {s : State} (hi : s.initialised = false) (code : Byte) (rule : State → Result) :
    s.seqStep code rule = .refused .notInitialised := by
  simp [State.seqStep, hi]

theorem State.errorStop_uninitialised {s : State} (hi : s.initialised = false) (code st : Byte) :
    s.errorStop code st = .refused .notInitialised :=
  State.seqStep_uninitialised hi code _

/-- R173 (a), R180: before `init` there is no operation and no sequencer step. -/
theorem exec_uninitialised {i : Instr} {s : State} (hi : s.initialised = false) (hne : ∀ c, i ≠ .init c) :
    exec i s = .refused .notInitialised := by
  cases i with
  | init c => exact absurd rfl (hne c)
  | quick | sendByte | receiveByte | writeByte | readByte | writeWord | readWord =>
    exact exec_call_refused rfl (State.callRefusal_uninitialised _ _ hi)
  | evtBusError | evtAddrWNak | evtDataWNak | evtAddrRNak | evtOther => exact State.errorStop_uninitialised hi _ _
  | evtStartSent | evtRepStartSent | evtAddrWAck | evtDataWAck | evtArbLost | evtAddrRAck | evtDataRxAck | evtDataRxNak =>
    simp only [exec]
    exact State.seqStep_uninitialised hi _ _

/-- Settles O11: a call answers with the first of its tests that fails, and each clause says which one that is. -/
theorem brokenPreconditionsAreRefused : Obligations.BrokenPreconditionsAreRefused := by
  unfold Obligations.BrokenPreconditionsAreRefused
  refine ⟨fun s c => exec_init_again c, fun s => exec_init_zero, fun i s => exec_uninitialised,
    fun i s h ws hi hfill => ⟨fun hn => ?outOfRange, fun hn hop => ?inside, fun hn hop hother => ?inUse,
      fun hn hop huse hlent => ?lent, fun d hd hop huse hqueue hcur hused hdone => ?channel⟩⟩
  case outOfRange => exact exec_call_refused hfill (State.callRefusal_outOfRange _ hi hn)
  all_goals refine exec_call_refused hfill ?_
  case inside =>
    rw [State.callRefusal_of_desc _ hi (List.getElem?_eq_getElem hn), if_pos (Option.isSome_iff_ne_none.mpr hop)]
  case inUse =>
    obtain ⟨who, o, ho, rfl⟩ := hother
    rw [State.callRefusal_of_desc _ hi (List.getElem?_eq_getElem hn), hop, State.inUse_of_op ho]
    rfl
  case lent =>
    rw [State.callRefusal_of_desc _ hi (List.getElem?_eq_getElem hn), hop, huse, (s.lent_eq_true_iff h).mpr hlent]
    rfl
  case channel =>
    rw [State.callRefusal_of_desc _ hi hd, hop, huse, State.lent_eq_false hqueue hcur, hused, hdone]
    rfl

end Sys2Proof.Machine
end

