-- ==== Sys2Proof/Proofs/SubmitSteps.lean ====
section
/-! SUPPORT. The steps of a requester inside an operation (R80, R88 to R93): each runs the step of its position. Settles O18 to O21 and
O23. -/

namespace Sys2Proof.Machine

open Sys2Proof.Spec

/-- What the step of requester `who`, inside the operation `o` on the descriptor `d`, leaves at each position. -/
def State.afterStep (s : State) (who : Who) (o : Op) (d : Descriptor) : Pos → State
  | .fill next rest => s.stepFill who o next rest
  | .s1 => s.stepS1 who o
  | .s2 => s.stepS2 who o
  | .s3 => s.stepS3 who o
  | .s4 left => s.stepS4 who o d left
  | .s5 => s.stepS5 who o d
  | .s5Delay left => s.stepS5Delay who o left
  | .s6 => s.stepS6 who d

/-- A requester inside an operation whose handle names a descriptor takes the step of its position. -/
theorem State.runRequester_inside {s : State} {who : Who} {o : Op} {d : Descriptor} (hin : InsideAt s who o d) :
    s.runRequester who = .next (s.afterStep who o d o.pos) := by
  obtain ⟨hi, ho, hd⟩ := hin
  simp only [State.runRequester, hi, ho, State.desc?_eq, hd]
  cases o.pos <;> rfl

theorem timerStart_eq_unitsOf (t : Duration) : timerStart t = unitsOf t := by
  cases t <;> rfl

/-- Settles O18: the step writes the field that the operation has next. -/
theorem fillStepWritesOneFieldAMove : Obligations.FillStepWritesOneFieldAMove := by
  unfold Obligations.FillStepWritesOneFieldAMove
  intro s who h next rest t d hin
  rw [State.runRequester_inside hin]
  cases next <;> cases rest <;> rfl

/-- Settles O19: S1 is that one field write. -/
theorem submitStep1WritesTheSentinelOnly : Obligations.SubmitStep1WritesTheSentinelOnly := by
  unfold Obligations.SubmitStep1WritesTheSentinelOnly
  intro s who o d hin hp
  rw [State.runRequester_inside hin, hp]
  rfl

theorem State.stepS2_full {s : State} (who : Who) (o : Op) (hfull : s.queue.length = s.queueCapacity) :
    s.stepS2 who o = (s.modDesc o.handle (fun d => { d with status := stOverloaded })).returnFrom who stOverloaded := by
  simp [State.stepS2, State.enqueue_full hfull]

theorem State.stepS2_room {s : State} (who : Who) (o : Op) (hroom : s.queue.length ≠ s.queueCapacity) :
    s.stepS2 who o = ({ s with queue := s.queue ++ [o.handle] } : State).setOp who { o with pos := .s3 } := by
  simp [State.stepS2, State.enqueue_room hroom]

/-- Settles O20, by whether the queue is full. -/
theorem submitStep2EnqueuesOrReturnsOverloaded : Obligations.SubmitStep2EnqueuesOrReturnsOverloaded := by
  unfold Obligations.SubmitStep2EnqueuesOrReturnsOverloaded
  intro s who o d hin hp
  rw [State.runRequester_inside hin, hp]
  split
  next hfull => exact congrArg _ (State.stepS2_full who o hfull)
  next hroom => exact congrArg _ (State.stepS2_room who o hroom)

theorem State.kick_eq (s : State) : s.kick = if s.busy then s else { issuesStart s with busy := true } := by
  simp [State.kick, State.emit, issuesStart]

/-- The kick leaves the block busy and issues `HW.Start` if it was not (R90). -/
theorem State.kick_fields (s : State) :
    s.kick = { s with busy := true, cmds := s.cmds ++ (if s.busy then [] else [.start]),
                      startOutstanding := s.startOutstanding || !s.busy } := by
  cases hb : s.busy
  · simp [State.kick, hb, State.emit]
  · have hset : ({ s with busy := true } : State) = s := by rw [← hb]
    simp [State.kick, hb, hset]

/-- Settles O21: S3 is the kick, and the kick asks whether the block is busy. -/
theorem submitStep3KicksOnlyAnIdleController : Obligations.SubmitStep3KicksOnlyAnIdleController := by
  unfold Obligations.SubmitStep3KicksOnlyAnIdleController
  intro s who o d hin hp
  rw [State.runRequester_inside hin, hp, ← s.kick_eq, ← timerStart_eq_unitsOf]
  rfl

/-- Settles O23: S5 by the test of R92, its delay by the recovery timer, S6 by the status it reads. -/
theorem submitSteps5And6DelayAndReturnTheStatus : Obligations.SubmitSteps5And6DelayAndReturnTheStatus := by
  unfold Obligations.SubmitSteps5And6DelayAndReturnTheStatus
  refine ⟨fun s who o d hin hp => ?begins, fun s who o d left hin hp => ?delay, fun s who o d hin hp => ?returns⟩
  all_goals rw [State.runRequester_inside hin, hp]
  case begins =>
    simp only [State.afterStep, State.stepS5, State.beginS5_eq, timerStart_eq_unitsOf, Bool.or_eq_true, bne_iff_ne]
    rfl
  case delay => rfl
  case returns => rfl

end Sys2Proof.Machine
end

