-- ==== Sys2Proof/Proofs/Submission.lean ====
section
/-! SUPPORT. A call that no other agent's step comes between (R80 to R90), run move by move: the fill step by induction on its field
writes, then S1, S2 and S3. Settles O16 and O17. -/

namespace Sys2Proof.Machine

open Sys2Proof.Spec

/-! ### Runs -/

/-- The first `n` steps from `s` complete and lead to `t`: a longer run from `s` goes on from there. -/
def LeadsTo (n : Nat) (s t : State) : Prop := ∀ k, run (n + k) s = run k t

theorem LeadsTo.refl (s : State) : LeadsTo 0 s s := by
  intro k
  rw [Nat.zero_add]

theorem run_succ {s t : State} (e : step s = .next t) (k : Nat) : run (k + 1) s = run k t := by
  have hcore : core.step s = .next t := e
  simp only [run, Host.Core.run, hcore]
  rfl

theorem LeadsTo.of_step {s t : State} (e : step s = .next t) : LeadsTo 1 s t := by
  intro k
  rw [Nat.add_comm, run_succ e]

theorem LeadsTo.trans {m n : Nat} {s t u : State} (h₁ : LeadsTo m s t) (h₂ : LeadsTo n t u) : LeadsTo (m + n) s u := by
  intro k
  rw [Nat.add_assoc, h₁, h₂]

theorem LeadsTo.cons {n : Nat} {s t u : State} (h₁ : LeadsTo 1 s t) (h₂ : LeadsTo n t u) : LeadsTo (n + 1) s u :=
  Nat.add_comm 1 n ▸ h₁.trans h₂

theorem LeadsTo.run_eq {n : Nat} {s t : State} (h : LeadsTo n s t) : run n s = .next t := h 0

/-- A move to come of a requester inside an operation is the step of its position. -/
theorem LeadsTo.of_run {s : State} {who : Who} {ms : List Move} {o : Op} {d : Descriptor}
    (hms : s.inputs = .run who :: ms) (hin : InsideAt s who o d) :
    LeadsTo 1 s (({ s with inputs := ms } : State).afterStep who o d o.pos) := by
  have hstep : ({ s with inputs := ms } : State).runRequester who = _ := State.runRequester_inside hin
  exact .of_step ((step_move hms).trans hstep)

/-! ### The caller on its way -/

/-- `s` with the moves `ms` to come and `who` inside a call on `h` at `pos`, after it has changed its descriptor as `f` says. -/
def State.callerAt (s : State) (who : Who) (h : Handle) (ms : List Move) (f : Descriptor → Descriptor) (pos : Pos) : State :=
  (({ s with inputs := ms } : State).modDesc h f).setOp who { handle := h, pos := pos, timedOut := false }

/-- The caller writes its descriptor and moves on. -/
theorem State.callerAt_writes (s : State) (who : Who) (h : Handle) (ms : List Move) (f g : Descriptor → Descriptor)
    (pos pos' : Pos) :
    ((s.callerAt who h ms f pos).modDesc h g).setOp who { handle := h, pos := pos', timedOut := false } =
      s.callerAt who h ms (fun d => g (f d)) pos' := by
  simp [State.callerAt, State.setOp, State.setRequester, State.modDesc, modify_modify]

section
variable {s : State} {h : Handle} {d : Descriptor} (who : Who) (ms : List Move) (f : Descriptor → Descriptor)
  (hi : s.initialised = true) (hd : s.descs[h]? = some d)
include hi hd

theorem State.callerAt_inside (pos : Pos) :
    InsideAt (s.callerAt who h ms f pos) who { handle := h, pos := pos, timedOut := false } (f d) := by
  refine ⟨hi, ?_, ?_⟩
  · simp [State.callerAt, State.setOp]
  · simp [State.callerAt, State.setOp, hd]

theorem leadsTo_afterStep (pos : Pos) :
    LeadsTo 1 (s.callerAt who h (.run who :: ms) f pos)
      ((s.callerAt who h ms f pos).afterStep who { handle := h, pos := pos, timedOut := false } (f d) pos) :=
  .of_run rfl (State.callerAt_inside who _ f hi hd pos)

theorem leadsTo_fieldWrite (next : FieldWrite) (rest : List FieldWrite) :
    LeadsTo 1 (s.callerAt who h (.run who :: ms) f (.fill next rest))
      (s.callerAt who h ms (fun d => next.apply (f d)) (Pos.afterWrite rest)) := by
  rw [← State.callerAt_writes s who h ms f next.apply (.fill next rest)]
  exact leadsTo_afterStep who ms f hi hd _

theorem leadsTo_sentinel :
    LeadsTo 1 (s.callerAt who h (.run who :: ms) f .s1)
      (s.callerAt who h ms (fun d => { f d with status := stIncomplete }) .s2) := by
  rw [← State.callerAt_writes s who h ms f (fun d => { d with status := stIncomplete }) .s1]
  exact leadsTo_afterStep who ms f hi hd _

theorem leadsTo_enqueue (hroom : s.queue.length ≠ s.queueCapacity) :
    LeadsTo 1 (s.callerAt who h (.run who :: ms) f .s2)
      (({ s with queue := s.queue ++ [h] } : State).callerAt who h ms f .s3) := by
  have hstep := leadsTo_afterStep who ms f hi hd .s2
  rw [State.afterStep, State.stepS2_room (s := s.callerAt who h ms f .s2) _ _ hroom] at hstep
  simpa [State.callerAt, State.setOp, State.setRequester, State.modDesc] using hstep

theorem leadsTo_overloaded (hfull : s.queue.length = s.queueCapacity) :
    LeadsTo 1 (s.callerAt who h (.run who :: ms) f .s2)
      ((({ s with inputs := ms } : State).modDesc h (fun d => { f d with status := stOverloaded })).returnFrom who
        stOverloaded) := by
  have hstep := leadsTo_afterStep who ms f hi hd .s2
  rw [State.afterStep, State.stepS2_full (s := s.callerAt who h ms f .s2) _ _ hfull] at hstep
  simpa [State.callerAt, State.setOp, State.returnFrom, State.setRequester, State.modDesc, modify_modify] using hstep

theorem leadsTo_kick :
    LeadsTo 1 (s.callerAt who h (.run who :: ms) f .s3)
      (s.kick.callerAt who h ms f (.s4 (timerStart s.params.tWait))) := by
  have hstep := leadsTo_afterStep who ms f hi hd .s3
  simpa [State.afterStep, State.stepS3, State.kick_fields, State.callerAt, State.setOp, State.setRequester,
    State.modDesc] using hstep

end

/-! ### The fill step (R80) -/

/-- The descriptor after these field writes, in order. -/
def writeAll (ws : List FieldWrite) (d : Descriptor) : Descriptor := ws.foldl (fun d w => w.apply d) d

theorem leadsTo_fill {s : State} {h : Handle} {d : Descriptor} (who : Who) (ms : List Move) (hi : s.initialised = true)
    (hd : s.descs[h]? = some d) (ws : List FieldWrite) (f : Descriptor → Descriptor) :
    LeadsTo ws.length (s.callerAt who h (List.replicate ws.length (.run who) ++ ms) f (Pos.afterWrite ws))
      (s.callerAt who h ms (fun d => writeAll ws (f d)) .s1) := by
  induction ws generalizing f with
  | nil => exact .refl _
  | cons w ws ih =>
    have hfirst := leadsTo_fieldWrite who (List.replicate ws.length (.run who) ++ ms) f hi hd w ws
    exact hfirst.cons (ih fun d => w.apply (f d))

/-- The field writes of an operation write what its rule names (R81 to R87). -/
theorem filled_eq_writeAll {i : Instr} {h : Handle} {ws : List FieldWrite} (hfill : fillOf i = some (h, ws))
    (d : Descriptor) : filled i d = writeAll ws { d with used := true } := by
  cases i with
  | quick | sendByte | receiveByte | writeByte | readByte | writeWord | readWord =>
    cases hfill
    rfl
  | _ => cases hfill

theorem wf_of_fillOf {i : Instr} {h : Handle} {ws : List FieldWrite} (hfill : fillOf i = some (h, ws)) :
    i.wf = true := by
  cases i with
  | quick | sendByte | receiveByte | writeByte | readByte | writeWord | readWord => rfl
  | _ => cases hfill

/-! ### The whole call -/

theorem leadsTo_call {i : Instr} {s : State} {who : Who} {h : Handle} {d : Descriptor} {w : BitVec 40} {o : Opcode}
    {rest : List FieldWrite} (hw : encode i = .req40 h w) (hfill : fillOf i = some (h, .opcode o :: rest))
    (hcall : MayCall s who h d) (ms : List Move) :
    LeadsTo 1 { s with inputs := .call who h w :: ms }
      (({ s with turn := who } : State).callerAt who h ms (fun d => { d with used := true, opcode := o })
        (Pos.afterWrite rest)) := by
  have hdecode : decode (.req40 h w) = .ok i := hw ▸ decode_encode (wf_of_fillOf hfill)
  have hexec := exec_of_mayCall (s := { s with inputs := ms, turn := who }) hfill hcall
  have hstep := stepRunsTheDecodedInstruction.1 { s with inputs := .call who h w :: ms } who h w ms i rfl hdecode
  exact .of_step (hstep.trans hexec)

theorem callAlone_succ_append (who : Who) (h : Handle) (w : BitVec 40) (n : Nat) (ms : List Move) :
    callAlone who h w (n + 1) ++ ms = callAlone who h w n ++ .run who :: ms := by
  simp [callAlone, List.replicate_succ']

/-- The call, the fill step and S1: the caller is at S2 with its descriptor filled and the sentinel in it. -/
theorem leadsTo_s2 {i : Instr} {s : State} {who : Who} {h : Handle} {d : Descriptor} {w : BitVec 40}
    {ws : List FieldWrite} (hw : encode i = .req40 h w) (hfill : fillOf i = some (h, ws)) (hcall : MayCall s who h d)
    (ms : List Move) :
    LeadsTo (ws.length + 1) { s with inputs := callAlone who h w ws.length ++ ms }
      (({ s with turn := who } : State).callerAt who h ms (fun d => { filled i d with status := stIncomplete }) .s2) := by
  have ⟨hi, hd, _⟩ := hcall
  simp only [filled_eq_writeAll hfill]
  obtain ⟨o, rest, rfl⟩ := fillOf_shape hfill
  rw [List.length_cons, callAlone_succ_append]
  have hbegin := leadsTo_call hw hfill hcall (List.replicate rest.length (.run who) ++ .run who :: ms)
  have hfields := leadsTo_fill (s := { s with turn := who }) who (.run who :: ms) hi hd rest
    (fun d => { d with used := true, opcode := o })
  have hs1 := leadsTo_sentinel (s := { s with turn := who }) who ms
    (fun d => writeAll rest { d with used := true, opcode := o }) hi hd
  exact hbegin.cons (hfields.trans hs1)

/-- Settles O17: from S2 the full queue sends the caller back. -/
theorem fullQueueReturnsOverloadedAndTouchesNoController :
    Obligations.FullQueueReturnsOverloadedAndTouchesNoController := by
  unfold Obligations.FullQueueReturnsOverloadedAndTouchesNoController
  intro i s who h d w ws rest hw hfill hcall hfull
  have ⟨hi, hd, _⟩ := hcall
  rw [callAlone_succ_append]
  have hs2 := leadsTo_s2 hw hfill hcall (.run who :: rest)
  have hreturn := leadsTo_overloaded (s := { s with turn := who }) who rest
    (fun d => { filled i d with status := stIncomplete }) hi hd hfull
  exact (hs2.trans hreturn).run_eq

/-- Settles O16: from S2 the caller enqueues its handle, kicks, and waits. -/
theorem undisturbedSubmissionFillsEnqueuesAndKicks : Obligations.UndisturbedSubmissionFillsEnqueuesAndKicks := by
  unfold Obligations.UndisturbedSubmissionFillsEnqueuesAndKicks
  intro i s who h d w ws rest hw hfill hcall hroom
  have ⟨hi, hd, _⟩ := hcall
  rw [callAlone_succ_append, callAlone_succ_append]
  have hs2 := leadsTo_s2 hw hfill hcall (.run who :: .run who :: rest)
  have henqueue := leadsTo_enqueue (s := { s with turn := who }) who (.run who :: rest)
    (fun d => { filled i d with status := stIncomplete }) hi hd hroom
  have hkick := leadsTo_kick (s := { s with turn := who, queue := s.queue ++ [h] }) who rest
    (fun d => { filled i d with status := stIncomplete }) hi hd
  have hrun := ((hs2.trans henqueue).trans hkick).run_eq
  rw [State.kick_fields, timerStart_eq_unitsOf] at hrun
  exact hrun

end Sys2Proof.Machine
end

