-- ==== Sys2Proof/Proofs/Counters.lean ====
section
/-! SUPPORT. The byte counters (R29, R119): what the terminal sequence and an event leave of them. Settles O43. -/

namespace Sys2Proof.Machine

@[simp] theorem State.terminal_wrCnt (s : State) (h : Handle) (st : Byte) : (s.terminal h st).wrCnt = s.wrCnt := by
  cases hq : s.queue with
  | nil => rw [State.terminal_idle h st hq]
  | cons next rest => rw [State.terminal_chain h st hq]

theorem State.countersInRange_terminal {s : State} (h : Handle) (st : Byte) (hs : s.countersInRange) :
    (s.terminal h st).countersInRange := by
  rwa [State.countersInRange, State.terminal_wrCnt, State.terminal_rdCnt]

/-- The store of a received byte asks for `rd_cnt < 2` before it counts (R114). -/
theorem rdCnt_add_one_le_two : ∀ {rd : BitVec 2}, rd < 2 → rd + 1 ≤ 2 := by decide

/-- An event leaves each counter, clears it, sets `wr_cnt` to 1 or 2, or counts a stored byte. -/
theorem EventEffect.countersInRange {s t : State} (e : EventEffect s t) (hs : s.countersInRange) :
    t.countersInRange := by
  have ⟨hswr, hsrd⟩ := hs
  cases e with
  | goesOn code h d cs wr rd arb hc hd hcs hlen hstop hwr hrd =>
    have hwr2 : wr ≤ 2 := by
      obtain rfl | rfl | rfl | rfl := hwr
      · decide
      · exact hswr
      · decide
      · decide
    have hrd2 : rd ≤ 2 := by
      obtain rfl | rfl := hrd
      · decide
      · exact hsrd
    exact ⟨hwr2, hrd2⟩
  | activates => exact ⟨(by decide : (0 : BitVec 2) ≤ 2), (by decide : (0 : BitVec 2) ≤ 2)⟩
  | stores h d b hc hd ho hrd => exact ⟨hswr, rdCnt_add_one_le_two hrd⟩
  | ends code h d st => exact State.countersInRange_terminal (s := s.recordPhase code) h st hs
  | storesAndEnds h d b hc hd hrd =>
    exact State.countersInRange_terminal h stSuccess ⟨hswr, rdCnt_add_one_le_two hrd⟩

theorem exec_event_countersInRange {w : BitVec 16} {s t : State} (e : exec (decodeEvt16 w) s = .next t)
    (hs : s.countersInRange) : t.countersInRange :=
  (exec_event_effect (decodeEvt16_event w) e).2.countersInRange hs

theorem RunEffect.countersInRange {s t : State} {who : Who} (e : RunEffect s who t) (hs : s.countersInRange) :
    t.countersInRange := by
  cases e with
  | waits | advances | enqueues | kicks => exact hs

/-- Only events and `init` write the counters, and `init` clears them (R95). -/
theorem takeMove_countersInRange {m : Move} {s t : State} (e : takeMove m s = .next t) (hs : s.countersInRange) :
    t.countersInRange := by
  have hmove := takeMove_next e
  cases m with
  | call who h w =>
    obtain ⟨o, rest, -, -, -, -, -, rfl⟩ := hmove
    exact hs
  | init c =>
    obtain ⟨-, -, rfl⟩ := execInit_next hmove
    exact ⟨(by decide : (0 : BitVec 2) ≤ 2), (by decide : (0 : BitVec 2) ≤ 2)⟩
  | run who => exact (runRequester_effect hmove).countersInRange hs
  | raise w => obtain ⟨-, rfl⟩ | ⟨-, -, rfl⟩ := hmove <;> exact hs
  | interrupt =>
    obtain ⟨w, -, -, -, hexec⟩ | rfl := hmove
    · exact exec_event_countersInRange hexec hs
    · obtain hstub | ⟨-, -, -, -, hstub⟩ := s.stubStep_cases <;> rw [hstub] <;> exact hs
  | handler =>
    obtain ⟨w, t', -, -, -, hexec, rfl⟩ | rfl := hmove
    · have hevent := exec_event_countersInRange hexec hs
      exact hevent
    · exact hs
  | tick =>
    have htick : t = s.tick := hmove
    rw [htick]
    exact hs
  | writeId who h id =>
    obtain ⟨-, -, rfl⟩ := hmove
    exact hs
  | drain who h =>
    obtain ⟨-, rfl⟩ := hmove
    exact hs

/-- Settles O43: of the moves only an event counts, and an event counts up to 2. -/
theorem everyStepKeepsTheCountersInRange : Obligations.EveryStepKeepsTheCountersInRange := by
  unfold Obligations.EveryStepKeepsTheCountersInRange
  intro s t hs e
  obtain ⟨-, rfl⟩ | ⟨m, rest, -, e⟩ := step_next e
  · exact hs
  · exact takeMove_countersInRange e hs

end Sys2Proof.Machine
end

