-- ==== Sys2Proof/Proofs/StrandedHandles.lean ====
section
/-! SUPPORT. The backlog drain (R116, R199): a requester leaves its kick only by making the block busy, and a handle enters the queue only
with its requester at the kick. Settles O45. -/

namespace Sys2Proof.Machine

/-! ### Requesters at the kick (R90) -/

/-- Every requester at its kick in `s` is there in `t`. -/
def State.keepsKicks (s t : State) : Prop := ∀ who h, s.atKick who h → t.atKick who h

theorem State.keepsKicks_of_eq {s t : State} (hr : t.requesters = s.requesters) : s.keepsKicks t := by
  intro who h hkick
  simpa only [State.atKick, State.requester_eq, hr] using hkick

/-- A requester that is not at its kick may go anywhere. -/
theorem State.keepsKicks_setRequester {s : State} {who : Who} (r : Requester)
    (hne : ∀ o, (s.requester who).op = some o → o.pos ≠ .s3) : s.keepsKicks (s.setRequester who r) := by
  rintro other h ⟨o, ho, hh, hp⟩
  have hother : other ≠ who := by
    rintro rfl
    exact hne o ho hp
  exact ⟨o, by rwa [State.requester_setRequester_other s r hother], hh, hp⟩

theorem State.keepsKicks_tick (s : State) : s.keepsKicks s.tick := by
  rintro who h ⟨o, ho, hh, hp⟩
  rw [State.requester_eq] at ho
  refine ⟨{ o with pos := o.pos.tick }, ?_, hh, by simp [hp, Pos.tick]⟩
  rw [State.requester_eq, State.tick, lookup_map_tick, Requester.tick, ho]
  rfl

theorem RunEffect.keepsKicks {s t : State} {who : Who} (e : RunEffect s who t)
    (hne : ∀ o, (s.requester who).op = some o → o.pos ≠ .s3) : s.keepsKicks t := by
  cases e with
  | waits => exact State.keepsKicks_of_eq rfl
  | advances o f r => exact State.keepsKicks_setRequester (s := s.modDesc o.handle f) r hne
  | enqueues o => exact State.keepsKicks_setRequester (s := { s with queue := s.queue ++ [o.handle] }) _ hne
  | kicks o left ho hp => exact absurd hp (hne o ho)

/-- A requester at its kick leaves the block busy, whether it was or not (R90). -/
theorem runRequester_kicks {s t : State} {who : Who} (e : s.runRequester who = .next t) :
    t.busy = true ∨ s.keepsKicks t := by
  obtain rfl | ⟨o, d, -, ho, -, hstep⟩ := runRequester_next e
  · exact .inr (State.keepsKicks_of_eq rfl)
  · by_cases hp : o.pos = .s3
    · simp only [hp] at hstep
      exact .inl (by rw [hstep, State.stepS3, State.kick_fields]; rfl)
    · refine .inr ((runRequester_effect e).keepsKicks fun o' ho' => ?_)
      rwa [← Option.some.inj (ho.symm.trans ho')]

theorem takeMove_kicks {m : Move} {s t : State} (e : takeMove m s = .next t) : t.busy = true ∨ s.keepsKicks t := by
  have hmove := takeMove_next e
  cases m with
  | call who h w =>
    obtain ⟨o, rest, -, -, hop, -, -, rfl⟩ := hmove
    refine .inr (State.keepsKicks_setRequester (s := State.modDesc { s with turn := who } h _) _ fun o' ho' => ?_)
    cases hop.symm.trans ho'
  | init c =>
    obtain ⟨-, -, rfl⟩ := execInit_next hmove
    exact .inr (State.keepsKicks_of_eq rfl)
  | run who => exact runRequester_kicks hmove
  | raise w => obtain ⟨-, rfl⟩ | ⟨-, -, rfl⟩ := hmove <;> exact .inr (State.keepsKicks_of_eq rfl)
  | interrupt =>
    obtain ⟨w, -, -, -, hexec⟩ | rfl := hmove
    · exact .inr (State.keepsKicks_of_eq (exec_event_effect (decodeEvt16_event w) hexec).2.requesters_eq)
    · exact .inr (State.keepsKicks_of_eq s.stubStep_requesters)
  | handler =>
    obtain ⟨w, t', -, -, -, hexec, rfl⟩ | rfl := hmove
    · have hrequesters := (exec_event_effect (decodeEvt16_event w) hexec).2.requesters_eq
      exact .inr (State.keepsKicks_of_eq hrequesters)
    · exact .inr (State.keepsKicks_of_eq rfl)
  | tick =>
    have htick : t = s.tick := hmove
    exact .inr (htick ▸ s.keepsKicks_tick)
  | writeId who h id =>
    obtain ⟨-, -, rfl⟩ := hmove
    exact .inr (State.keepsKicks_of_eq rfl)
  | drain who h =>
    obtain ⟨-, rfl⟩ := hmove
    exact .inr (State.keepsKicks_of_eq rfl)

/-! ### Queued handles (R89) -/

theorem EventControl.queue_sublist {c c' : Control} {y : Bool} (e : EventControl c c' y) :
    c'.queue.Sublist c.queue := by
  cases e with
  | goesOn _ _ _ _ _ _ hcontrol | endsIdle _ _ _ _ hcontrol => rw [hcontrol]
  | activates h rest b hc hq hcontrol => simp [hcontrol, hq]
  | endsChained h next rest hc hq hcontrol => simp [hcontrol, hq]

/-- A requester's step queues its own handle alone, and then the requester is at its kick. -/
theorem RunEffect.mem_queue {s t : State} {who : Who} (e : RunEffect s who t) {h : Handle} (hmem : h ∈ t.queue) :
    h ∈ s.queue ∨ ∃ who, t.atKick who h := by
  cases e with
  | waits | advances | kicks => exact .inl hmem
  | enqueues o ho hp hroom =>
    obtain hold | hnew := List.mem_append.mp hmem
    · exact .inl hold
    · refine .inr ⟨who, { o with pos := .s3 }, ?_, (List.mem_singleton.mp hnew).symm, rfl⟩
      rw [State.setOp, State.requester_setRequester_same]

theorem takeMove_mem_queue {m : Move} {s t : State} (e : takeMove m s = .next t) {h : Handle} (hmem : h ∈ t.queue) :
    h ∈ s.queue ∨ ∃ who, t.atKick who h := by
  cases takeMove_control e with
  | kept hcontrol | raised _ _ hcontrol | kicked _ _ _ _ _ _ hcontrol =>
    have hqueue : t.queue = s.queue := congrArg Control.queue hcontrol
    exact .inl (hqueue ▸ hmem)
  | enqueued who o hm =>
    subst hm
    exact (runRequester_effect e).mem_queue hmem
  | init c hm hi hcontrol =>
    have hqueue : t.queue = [] := congrArg Control.queue hcontrol
    simp [hqueue] at hmem
  | event hm hpend he => exact .inl (he.queue_sublist.subset hmem)

/-- A block that goes idle leaves no handle in the queue (R95, R115). -/
theorem ControlEffect.queue_empty_of_idled {m : Move} {s t : State} (e : ControlEffect m s t) (hs : s.busy = true)
    (ht : t.busy = false) : t.queue = [] := by
  cases e with
  | kept h | raised _ _ h | enqueued _ _ _ _ _ _ h =>
    have hkept : t.busy = s.busy := congrArg Control.busy h
    simp [hkept, hs] at ht
  | kicked who o hm ho hp hb h => simp [hs] at hb
  | init c hm hi h => exact congrArg Control.queue h
  | event hm hpend he =>
    obtain hkept | ⟨-, hqueue, -⟩ := he.busy_cases
    · have hbusy : t.busy = true := hkept.trans hs
      simp [hbusy] at ht
    · exact hqueue

theorem takeMove_noHandleStranded {m : Move} {s t : State} (e : takeMove m s = .next t) (hs : s.noHandleStranded) :
    t.noHandleStranded := by
  intro ht h hmem
  cases hsbusy : s.busy with
  | true => simp [(takeMove_control e).queue_empty_of_idled hsbusy ht] at hmem
  | false =>
    obtain hbusy | hkicks := takeMove_kicks e
    · simp [hbusy] at ht
    · obtain hold | hnew := takeMove_mem_queue e hmem
      · obtain ⟨who, hkick⟩ := hs hsbusy h hold
        exact ⟨who, hkicks who h hkick⟩
      · exact hnew

/-- Settles O45: a block that goes idle has emptied its queue (`queue_empty_of_idled`); while it stays idle nobody leaves the kick
(`takeMove_kicks`), and a new handle has its requester there (`takeMove_mem_queue`). -/
theorem everyStepStrandsNoQueuedHandle : Obligations.EveryStepStrandsNoQueuedHandle := by
  unfold Obligations.EveryStepStrandsNoQueuedHandle
  intro s t _ _ hs e
  obtain ⟨-, rfl⟩ | ⟨m, rest, -, e⟩ := step_next e
  · exact hs
  · exact takeMove_noHandleStranded e hs

end Sys2Proof.Machine
end

