-- ==== Sys2Proof/Proofs/ActiveEvents.lean ====
section
/-! SUPPORT. The thirteen phase events on an active descriptor (R101 to R113): the whole next state of each, in the records of the
statements. Settles O26 to O34. -/

namespace Sys2Proof.Machine

open Sys2Proof.Spec

/-! ### The model's operations in the records of the statements -/

/-- R115. -/
theorem State.terminal_eq_afterTerminal (s : State) (h : Handle) (st : Byte) : s.terminal h st = afterTerminal s h st := by
  cases hq : s.queue with
  | nil => simp only [State.terminal_idle h st hq, afterTerminal, hq]
  | cons next rest => simp only [State.terminal_chain h st hq, afterTerminal, hq]

theorem State.emit_eq_issues (s : State) {c : HwCmd} (hc : c.isStart = false) : s.emit c = issues s [c] := by
  simp [State.emit, issues, hc]

theorem State.emit_tx (s : State) (b : Byte) : s.emit (.tx b) = issues s [.tx b] :=
  s.emit_eq_issues rfl

theorem State.emit_start (s : State) : s.emit .start = issuesStart s := by
  simp [State.emit, issuesStart]

/-- R66, R102, R103: the address byte is sent after the start condition is cleared. -/
theorem State.clearStart_txAddress (s : State) (d : Descriptor) (dir : BitVec 1) :
    (s.emit .clearStart).txAddress d dir = issues s [.clearStart, .tx (addrByte d.address dir)] := by
  simp [State.txAddress, State.emit, issues]

theorem addrByte_originalDir (d : Descriptor) : addrByte d.address (originalDir d.opcode) = firstAddress d := by
  unfold originalDir firstAddress
  split <;> rfl

/-- R114, with `rd_cnt < 2`. -/
theorem State.storeRx_of_lt {s : State} (h : Handle) (rx : Byte) (hrd : s.rdCnt < 2) :
    s.storeRx h rx = .next (afterStore s h rx) := by
  rw [State.storeRx, if_neg (BitVec.not_le.mpr hrd), afterStore]
  split
  next hzero =>
    simp only [Descriptor.storePayload, hzero, if_true]
    rfl
  next hzero =>
    simp only [Descriptor.storePayload, if_neg hzero]
    rfl

theorem State.storeRx_overrun {s : State} (h : Handle) (rx : Byte) (hrd : 2 ≤ s.rdCnt) :
    s.storeRx h rx = .fault .payloadOverrun :=
  if_pos hrd

/-! ### The frame of an event on an active descriptor (R100) -/

section
variable {s : State} {h : Handle} {d : Descriptor} (hact : Active s h d)
include hact

/-- R100: the phase is recorded and the rule runs on the active descriptor. -/
theorem State.seqStep_active (code : Byte) (rule : State → Handle → Descriptor → Result) :
    (s.seqStep code fun s1 => s1.withActive (rule s1)) = rule (afterPhase s code) h d := by
  obtain ⟨hi, hc, hd⟩ := hact
  rw [State.seqStep_initialised hi]
  exact State.withActive_active (s := s.recordPhase code) hc hd

theorem State.errorStop_active (code st : Byte) :
    s.errorStop code st = .next (afterTerminal (afterPhase s code) h st) := by
  rw [State.errorStop, State.seqStep_active hact, State.terminal_eq_afterTerminal]

/-- R110: ReadWord alone expects a byte that it acknowledges. -/
theorem exec_evtDataRxAck_readWord (ho : d.opcode = .readWord) (rx : Byte) :
    exec (.evtDataRxAck rx) s = thenDo ((afterPhase s phDataRxAck).storeRx h rx) (fun s2 => s2.emit .ackOff) := by
  rw [exec, execEvtDataRxAck, State.seqStep_active hact, if_pos ho]

/-- R111. -/
theorem exec_evtDataRxNak_active (rx : Byte) :
    exec (.evtDataRxNak rx) s = thenDo ((afterPhase s phDataRxNak).storeRx h rx) (fun s2 => s2.terminal h stSuccess) := by
  rw [exec, execEvtDataRxNak, State.seqStep_active hact]

end

/-! ### Start sent (R102) -/

/-- A start sent that finds, or has made, `h` active sends its first address byte. -/
theorem State.startAddress_active {s : State} {h : Handle} {d : Descriptor} (hc : s.cur = some h)
    (hd : s.descs[h]? = some d) :
    (s.emit .clearStart).startAddress = .next (issues s [.clearStart, .tx (firstAddress d)]) := by
  rw [State.startAddress, State.withActive_active (s := s.emit .clearStart) hc hd, State.clearStart_txAddress,
    addrByte_originalDir]

/-- After an arbitration loss it is a retry. -/
theorem exec_evtStartSent_retry {s : State} (hi : s.initialised = true) (hlost : s.phase = phArbLost) (rx : Byte) :
    exec (.evtStartSent rx) s = ((afterPhase s phStartSent).emit .clearStart).startAddress := by
  rw [exec, execEvtStartSent, State.seqStep_initialised hi]
  exact if_pos hlost

theorem exec_evtStartSent_fresh {s s2 : State} (hi : s.initialised = true) (hfresh : s.phase ≠ phArbLost)
    (hstart : ((s.recordPhase phStartSent).emit .clearStart).freshStart = .next s2) (rx : Byte) :
    exec (.evtStartSent rx) s = s2.startAddress := by
  rw [exec, execEvtStartSent, State.seqStep_initialised hi, State.recordPhase_lastPhase, if_neg hfresh]
  simp only [hstart]

/-! ### The statements -/

/-- Settles O26: the five events are the error stops. -/
theorem errorEventsEndTheTransactionWithTheirStatus : Obligations.ErrorEventsEndTheTransactionWithTheirStatus := by
  unfold Obligations.ErrorEventsEndTheTransactionWithTheirStatus
  intro s h d rx code hact
  exact ⟨State.errorStop_active hact phBusError stBusError, State.errorStop_active hact phAddrWNak stAddrWNak,
    State.errorStop_active hact phDataWNak stDataNak, State.errorStop_active hact phAddrRNak stAddrRNak,
    State.errorStop_active hact code stUnexpected⟩

/-- Settles O27: the fresh start of R102 leaves the active descriptor or takes the head of the queue; a retry has none. -/
theorem startSentActivatesAndSendsTheAddress : Obligations.StartSentActivatesAndSendsTheAddress := by
  unfold Obligations.StartSentActivatesAndSendsTheAddress
  refine ⟨fun s h d rx hact hfresh => ?active, fun s h d rx hact hlost => ?retry,
    fun s h rest d rx hi hc hq hd hfresh => ?activates⟩
  case active =>
    obtain ⟨hi, hc, hd⟩ := hact
    rw [exec_evtStartSent_fresh hi hfresh (State.freshStart_active hc)]
    exact State.startAddress_active (s := (s.recordPhase phStartSent).resetCounters) hc hd
  case retry =>
    obtain ⟨hi, hc, hd⟩ := hact
    rw [exec_evtStartSent_retry hi hlost]
    exact State.startAddress_active (s := afterPhase s phStartSent) hc hd
  case activates =>
    rw [exec_evtStartSent_fresh hi hfresh (State.freshStart_head hc hq)]
    exact State.startAddress_active
      (s := { (s.recordPhase phStartSent).resetCounters with queue := rest, cur := some h }) rfl hd

/-- Settles O28: the direction bit is chosen in the rule, the address byte in the statement. -/
theorem repeatedStartSendsTheReadAddressOrResumes : Obligations.RepeatedStartSendsTheReadAddressOrResumes := by
  unfold Obligations.RepeatedStartSendsTheReadAddressOrResumes
  intro s h d rx hact
  rw [exec, execEvtRepStartSent, State.seqStep_active hact, State.clearStart_txAddress, ← addrByte_originalDir,
    apply_ite (addrByte d.address)]
  rfl

/-- Settles O29, opcode by opcode. -/
theorem writeAddressAckBranchesOnTheOpcode : Obligations.WriteAddressAckBranchesOnTheOpcode := by
  unfold Obligations.WriteAddressAckBranchesOnTheOpcode
  intro s h d rx hact
  rw [exec, execEvtAddrWAck, State.seqStep_active hact]
  simp only [State.terminal_eq_afterTerminal, State.emit_tx]
  cases d.opcode <;> rfl

/-- Settles O30, opcode by opcode; the two writes ask `wr_cnt`. -/
theorem writeDataAckSendsTheNextByteOrEnds : Obligations.WriteDataAckSendsTheNextByteOrEnds := by
  unfold Obligations.WriteDataAckSendsTheNextByteOrEnds
  intro s h d rx hact
  have hwr : (afterPhase s phDataWAck).wrCnt = s.wrCnt := rfl
  rw [exec, execEvtDataWAck, State.seqStep_active hact]
  simp only [State.terminal_eq_afterTerminal, State.emit_tx, State.emit_start, hwr]
  cases d.opcode with
  | writeByte | writeWord =>
    simp only [apply_ite Host.Outcome.next]
    rfl
  | quick | sendByte | receiveByte | readByte | readWord => rfl

/-- Settles O31. -/
theorem arbitrationLossReissuesTheStart : Obligations.ArbitrationLossReissuesTheStart := by
  unfold Obligations.ArbitrationLossReissuesTheStart
  intro s h d rx hact
  rw [exec, execEvtArbLost, State.seqStep_active hact, State.emit_start]
  rfl

/-- Settles O32, by whether one byte is expected. -/
theorem readAddressAckSetsTheAcknowledge : Obligations.ReadAddressAckSetsTheAcknowledge := by
  unfold Obligations.ReadAddressAckSetsTheAcknowledge
  intro s h d rx hact
  rw [exec, execEvtAddrRAck, State.seqStep_active hact, State.emit_eq_issues _ rfl, State.emit_eq_issues _ rfl]
  simp only [Bool.or_eq_true, decide_eq_true_eq]
  split <;> rfl

/-- Settles O33: ReadWord stores, or overruns the payload; no other opcode expects the byte. -/
theorem receivedByteWithAckIsStoredForReadWordOnly : Obligations.ReceivedByteWithAckIsStoredForReadWordOnly := by
  unfold Obligations.ReceivedByteWithAckIsStoredForReadWordOnly
  intro s h d rx hact
  refine ⟨fun ho hrd => ?stores, fun ho hrd => ?overruns, fun ho => ?unexpected⟩
  case stores =>
    rw [exec_evtDataRxAck_readWord hact ho, State.storeRx_of_lt (s := afterPhase s phDataRxAck) h rx hrd, thenDo_next,
      State.emit_eq_issues _ rfl]
    rfl
  case overruns =>
    rw [exec_evtDataRxAck_readWord hact ho, State.storeRx_overrun (s := afterPhase s phDataRxAck) h rx hrd, thenDo_fault]
  case unexpected =>
    rw [exec, execEvtDataRxAck, State.seqStep_active hact, if_neg ho, State.terminal_eq_afterTerminal]
    rfl

/-- Settles O34: the store, or the overrun, comes before the terminal sequence. -/
theorem receivedByteWithNakIsStoredAndEnds : Obligations.ReceivedByteWithNakIsStoredAndEnds := by
  unfold Obligations.ReceivedByteWithNakIsStoredAndEnds
  intro s h d rx hact
  rw [exec_evtDataRxNak_active hact]
  refine ⟨fun hrd => ?stores, fun hrd => ?overruns⟩
  case stores =>
    rw [State.storeRx_of_lt (s := afterPhase s phDataRxNak) h rx hrd, thenDo_next, State.terminal_eq_afterTerminal]
    rfl
  case overruns =>
    rw [State.storeRx_overrun (s := afterPhase s phDataRxNak) h rx hrd, thenDo_fault]

end Sys2Proof.Machine
end

