-- ==== Sys2Proof/Proofs/EventOutcomes.lean ====
section
/-! SUPPORT. How an event can end: when it is a fault (R100, R114, R122), that it completes else on an active descriptor, and that it then
continues or stops the transaction (R118, R120). Settles O35 and O60. -/

namespace Sys2Proof.Machine

open Sys2Proof.Spec

theorem event_eq_isEvent (i : Instr) : Instr.event i = isEvent i := by
  cases i <;> rfl

/-! ### An active descriptor -/

/-- The event's rule stores the received byte in the active descriptor `d` (R110, R111). -/
def StoresReceived (i : Instr) (d : Descriptor) : Prop :=
  ∃ rx, i = .evtDataRxNak rx ∨ (i = .evtDataRxAck rx ∧ d.opcode = .readWord)

theorem exec_event_overrun {i : Instr} {s : State} {h : Handle} {d : Descriptor} (hact : Active s h d)
    (hstores : StoresReceived i d) (hrd : 2 ≤ s.rdCnt) : exec i s = .fault .payloadOverrun := by
  obtain ⟨rx, rfl | ⟨rfl, ho⟩⟩ := hstores
  · obtain ⟨-, hoverrun⟩ := receivedByteWithNakIsStoredAndEnds s h d rx hact
    exact hoverrun hrd
  · obtain ⟨-, hoverrun, -⟩ := receivedByteWithAckIsStoredForReadWordOnly s h d rx hact
    exact hoverrun ho hrd

/-- On an active descriptor only a store may fail, and only for want of room (R114). -/
theorem exec_event_completes {i : Instr} {s : State} {h : Handle} {d : Descriptor} (hev : isEvent i = true)
    (hact : Active s h d) (hroom : StoresReceived i d → s.rdCnt < 2) : ∃ t, exec i s = .next t := by
  cases i with
  | quick | sendByte | receiveByte | writeByte | readByte | writeWord | readWord | init => cases hev
  | evtBusError | evtAddrWNak | evtDataWNak | evtAddrRNak | evtOther => exact ⟨_, State.errorStop_active hact _ _⟩
  | evtStartSent rx =>
    obtain ⟨hfresh, hretry, -⟩ := startSentActivatesAndSendsTheAddress
    by_cases hlost : s.phase = 0x38
    · exact ⟨_, hretry s h d rx hact hlost⟩
    · exact ⟨_, hfresh s h d rx hact hlost⟩
  | evtRepStartSent rx => exact ⟨_, repeatedStartSendsTheReadAddressOrResumes s h d rx hact⟩
  | evtAddrWAck rx => exact ⟨_, writeAddressAckBranchesOnTheOpcode s h d rx hact⟩
  | evtDataWAck rx => exact ⟨_, writeDataAckSendsTheNextByteOrEnds s h d rx hact⟩
  | evtArbLost rx => exact ⟨_, arbitrationLossReissuesTheStart s h d rx hact⟩
  | evtAddrRAck rx => exact ⟨_, readAddressAckSetsTheAcknowledge s h d rx hact⟩
  | evtDataRxAck rx =>
    obtain ⟨hstores, -, hends⟩ := receivedByteWithAckIsStoredForReadWordOnly s h d rx hact
    by_cases ho : d.opcode = .readWord
    · exact ⟨_, hstores ho (hroom ⟨rx, .inr ⟨rfl, ho⟩⟩)⟩
    · exact ⟨_, hends ho⟩
  | evtDataRxNak rx =>
    obtain ⟨hstores, -⟩ := receivedByteWithNakIsStoredAndEnds s h d rx hact
    exact ⟨_, hstores (hroom ⟨rx, .inl rfl⟩)⟩

/-! ### No active descriptor (R100) -/

/-- The event is the fresh activation of R102: a start sent, not after an arbitration loss, with a queued handle. -/
def FreshActivation (i : Instr) (s : State) : Prop :=
  (∃ rx, i = .evtStartSent rx) ∧ s.phase ≠ 0x38 ∧ s.queue ≠ []

theorem State.withActive_inactive {s : State} (hc : s.cur = none) (rule : Handle → Descriptor → Result) :
    s.withActive rule = .fault .noActiveDescriptor := by
  simp [State.withActive, hc]

theorem State.seqStep_inactive {s : State} (hi : s.initialised = true) (hc : s.cur = none) (code : Byte)
    (rule : State → Handle → Descriptor → Result) :
    (s.seqStep code fun s1 => s1.withActive (rule s1)) = .fault .noActiveDescriptor := by
  rw [State.seqStep_initialised hi]
  exact State.withActive_inactive (s := s.recordPhase code) hc _

theorem State.errorStop_inactive {s : State} (hi : s.initialised = true) (hc : s.cur = none) (code st : Byte) :
    s.errorStop code st = .fault .noActiveDescriptor :=
  State.seqStep_inactive hi hc code _

theorem State.freshStart_empty {s : State} (hc : s.cur = none) (hq : s.queue = []) :
    s.freshStart = .fault .noActiveDescriptor := by
  simp [State.freshStart, hc, State.dequeue, hq]

theorem exec_evtStartSent_inactive {s : State} (hi : s.initialised = true) (hc : s.cur = none)
    (hno : s.phase = phArbLost ∨ s.queue = []) (rx : Byte) :
    exec (.evtStartSent rx) s = .fault .noActiveDescriptor := by
  by_cases hlost : s.phase = phArbLost
  · rw [exec_evtStartSent_retry hi hlost]
    exact State.withActive_inactive (s := (afterPhase s phStartSent).emit .clearStart) hc _
  · have hempty := State.freshStart_empty (s := (s.recordPhase phStartSent).emit .clearStart) hc
      (hno.resolve_left hlost)
    rw [exec, execEvtStartSent, State.seqStep_initialised hi, State.recordPhase_lastPhase, if_neg hlost]
    simp only [hempty]

theorem exec_event_inactive {i : Instr} {s : State} (hev : isEvent i = true) (hi : s.initialised = true)
    (hc : s.cur = none) (hno : ¬ FreshActivation i s) : exec i s = .fault .noActiveDescriptor := by
  cases i with
  | quick | sendByte | receiveByte | writeByte | readByte | writeWord | readWord | init => cases hev
  | evtBusError | evtAddrWNak | evtDataWNak | evtAddrRNak | evtOther => exact State.errorStop_inactive hi hc _ _
  | evtStartSent rx =>
    refine exec_evtStartSent_inactive hi hc ?_ rx
    by_contra hneither
    obtain ⟨hfresh, hqueue⟩ := not_or.mp hneither
    exact hno ⟨⟨rx, rfl⟩, hfresh, hqueue⟩
  | evtRepStartSent | evtAddrWAck | evtDataWAck | evtArbLost | evtAddrRAck | evtDataRxAck | evtDataRxNak =>
    simp only [exec]
    exact State.seqStep_inactive hi hc _ _

/-- A fresh activation is no fault, whatever the head of the queue names. -/
theorem exec_freshActivation_ne_fault {i : Instr} {s : State} (hi : s.initialised = true) (hc : s.cur = none)
    (hfresh : FreshActivation i s) (e : Fault) : exec i s ≠ .fault e := by
  obtain ⟨⟨rx, rfl⟩, hphase, hqueue⟩ := hfresh
  obtain ⟨h, rest, hq⟩ := List.exists_cons_of_ne_nil hqueue
  obtain ⟨-, -, hactivates⟩ := startSentActivatesAndSendsTheAddress
  cases hd : s.descs[h]? with
  | none =>
    rw [exec, execEvtStartSent_head_outOfRange hi hc hq hphase (List.getElem?_eq_none_iff.mp hd)]
    nofun
  | some d =>
    rw [hactivates s h rest d rx hi hc hq hd hphase]
    nofun

/-! ### Faults (R172) -/

theorem State.beginCall_ne_fault (s : State) (h : Handle) (first : FieldWrite) (rest : List FieldWrite) (e : Fault) :
    s.beginCall h first rest ≠ .fault e := by
  unfold State.beginCall
  split <;> nofun

theorem execInit_ne_fault (c : Nat) (s : State) (e : Fault) : execInit c s ≠ .fault e := by
  unfold execInit
  split
  · nofun
  · split <;> nofun

theorem isEvent_of_fault {i : Instr} {s : State} {e : Fault} (he : exec i s = .fault e) : isEvent i = true := by
  cases i with
  | quick | sendByte | receiveByte | writeByte | readByte | writeWord | readWord =>
    exact absurd he (s.beginCall_ne_fault _ _ _ e)
  | init c => exact absurd he (execInit_ne_fault c s e)
  | _ => rfl

theorem initialised_of_fault {i : Instr} {s : State} {e : Fault} (he : exec i s = .fault e) : s.initialised = true := by
  by_contra hi
  have hrefused : exec i s = .refused .notInitialised := by
    refine exec_uninitialised (by simpa using hi) fun c hinit => ?_
    subst hinit
    exact execInit_ne_fault c s e he
  cases hrefused.symm.trans he

/-- Why an instruction ends in a fault (D12, D13). -/
inductive FaultCause (i : Instr) (s : State) : Fault → Prop
  | noActive (hev : isEvent i = true) (hi : s.initialised = true) (hc : s.cur = none) (hno : ¬ FreshActivation i s) :
      FaultCause i s .noActiveDescriptor
  | overrun (h : Handle) (d : Descriptor) (hact : Active s h d) (hrd : 2 ≤ s.rdCnt) (hstores : StoresReceived i d) :
      FaultCause i s .payloadOverrun

/-- By what `cur` holds: nothing, a handle that names no descriptor, or the active descriptor. -/
theorem exec_eq_fault_iff {i : Instr} {s : State} {e : Fault} : exec i s = .fault e ↔ FaultCause i s e := by
  constructor
  · intro he
    have hev := isEvent_of_fault he
    have hi := initialised_of_fault he
    cases hc : s.cur with
    | none =>
      have hno : ¬ FreshActivation i s := fun hfresh => exec_freshActivation_ne_fault hi hc hfresh e he
      cases (exec_event_inactive hev hi hc hno).symm.trans he
      exact .noActive hev hi hc hno
    | some h =>
      cases hd : s.descs[h]? with
      | none => cases (exec_event_outOfRange hev hi hc (List.getElem?_eq_none_iff.mp hd)).symm.trans he
      | some d =>
        have hact : Active s h d := ⟨hi, hc, hd⟩
        by_cases hroom : StoresReceived i d → s.rdCnt < 2
        · obtain ⟨t, ht⟩ := exec_event_completes hev hact hroom
          cases ht.symm.trans he
        · obtain ⟨hstores, hfull⟩ := Classical.not_imp.mp hroom
          have hrd := BitVec.not_lt.mp hfull
          cases (exec_event_overrun hact hstores hrd).symm.trans he
          exact .overrun h d hact hrd hstores
  · intro hcause
    cases hcause with
    | noActive hev hi hc hno => exact exec_event_inactive hev hi hc hno
    | overrun h d hact hrd hstores => exact exec_event_overrun hact hstores hrd

/-- Settles O35: the causes of the two faults, read off `exec_eq_fault_iff`. -/
theorem faultsAreExactlyTheTwoOfTheSpec : Obligations.FaultsAreExactlyTheTwoOfTheSpec := by
  unfold Obligations.FaultsAreExactlyTheTwoOfTheSpec
  intro i s
  rw [exec_eq_fault_iff, exec_eq_fault_iff]
  refine ⟨⟨fun hcause => ?_, fun ⟨hev, hi, hc, hno⟩ => .noActive hev hi hc hno⟩,
    ⟨fun hcause => ?_, fun ⟨h, d, rx, hact, hrd, hstores⟩ => .overrun h d hact hrd ⟨rx, hstores⟩⟩⟩
  · cases hcause with
    | noActive hev hi hc hno => exact ⟨hev, hi, hc, hno⟩
  · cases hcause with
    | overrun h d hact hrd hstores =>
      obtain ⟨rx, hstores⟩ := hstores
      exact ⟨h, d, rx, hact, hrd, hstores⟩

/-! ### Continuing or stopping (R118, R120) -/

@[simp] theorem State.terminal_lastPhase (s : State) (h : Handle) (st : Byte) :
    (s.terminal h st).lastPhase = s.lastPhase := by
  cases hq : s.queue with
  | nil => rw [State.terminal_idle h st hq]
  | cons next rest => rw [State.terminal_chain h st hq]

@[simp] theorem State.terminal_pending (s : State) (h : Handle) (st : Byte) : (s.terminal h st).pending = s.pending := by
  cases hq : s.queue with
  | nil => rw [State.terminal_idle h st hq]
  | cons next rest => rw [State.terminal_chain h st hq]

/-- R100, R152: the phase is recorded and the event consumed. -/
theorem EventEffect.consumes {s t : State} (e : EventEffect s t) : t.lastPhase = s.phase ∧ t.pending = none := by
  cases e with
  | goesOn | activates | stores => exact ⟨rfl, rfl⟩
  | ends | storesAndEnds => exact ⟨State.terminal_lastPhase _ _ _, State.terminal_pending _ _ _⟩

/-- The transaction on `h` goes on with at least one command. -/
def Continues (s : State) (h : Handle) (t : State) : Prop :=
  t.cur = some h ∧ t.busy = s.busy ∧ t.queue = s.queue ∧ (∃ c cs, t.cmds = s.cmds ++ c :: cs) ∧ t.yieldReq = false

/-- The transaction on `h` has ended with a stop: its owner is told, and the head of the queue, if any, is active. -/
def Stops (s : State) (h : Handle) (t : State) : Prop :=
  .stop ∈ t.cmds.drop s.cmds.length ∧ t.yieldReq = true ∧ t.cur = s.queue.head? ∧ t.queue = s.queue.tail ∧
    (t.busy = true ↔ s.busy = true ∧ s.queue ≠ []) ∧
    ∃ d', t.descs[h]? = some d' ∧ d'.done = true ∧ d'.status.toNat < 6

theorem State.stops_terminal {s : State} {h : Handle} {d : Descriptor} {st : Byte} (hd : s.descs[h]? = some d)
    (hst : st.toNat < 6) : Stops s h (s.terminal h st) := by
  have hended : ∃ d', (s.terminal h st).descs[h]? = some d' ∧ d'.done = true ∧ d'.status.toNat < 6 :=
    ⟨{ d with status := st, done := true }, by simp [hd], rfl, hst⟩
  cases hq : s.queue with
  | nil =>
    rw [State.terminal_idle h st hq] at hended ⊢
    exact ⟨by simp, rfl, by simp [hq], by simp [hq], by simp [hq], hended⟩
  | cons next rest =>
    rw [State.terminal_chain h st hq] at hended ⊢
    exact ⟨by simp, rfl, by simp [hq], by simp [hq], by simp [hq], hended⟩

theorem EventEffect.continues_or_stops {s t : State} (e : EventEffect s t) {h : Handle} (hcur : s.cur = some h) :
    Continues s h t ∨ Stops s h t := by
  cases e with
  | goesOn code h' d cs wr rd arb hc hd hcs =>
    obtain ⟨c, cs', rfl⟩ := List.exists_cons_of_ne_nil hcs
    exact .inl ⟨hcur, rfl, rfl, ⟨c, cs', rfl⟩, rfl⟩
  | activates h' rest d hc => simp [hcur] at hc
  | stores h' d b hc => exact .inl ⟨hcur, rfl, rfl, ⟨.ackOff, [], rfl⟩, rfl⟩
  | ends code h' d st hc hd hst =>
    obtain rfl := Option.some.inj (hcur.symm.trans hc)
    exact .inr (State.stops_terminal (s := s.recordPhase code) hd hst)
  | storesAndEnds h' d b hc hd =>
    obtain rfl := Option.some.inj (hcur.symm.trans hc)
    have hstored : (s.descs.modify h fun d => d.storePayload s.rdCnt b)[h]? = some (d.storePayload s.rdCnt b) := by
      simp [hd]
    exact .inr (State.stops_terminal (s := { s.recordPhase phDataRxNak with
      descs := s.descs.modify h (fun d => d.storePayload s.rdCnt b), rdCnt := s.rdCnt + 1 }) hstored (by decide))

/-- Settles O60: within the payload's bounds the event completes (`exec_event_completes`), and each of its five effects but the fresh
activation continues or stops the active transaction. -/
theorem everyEventContinuesOrStopsTheTransaction : Obligations.EveryEventContinuesOrStopsTheTransaction := by
  unfold Obligations.EveryEventContinuesOrStopsTheTransaction
  intro i s h d hev hact hrd
  obtain ⟨t, ht⟩ := exec_event_completes hev hact fun _ => hrd
  obtain ⟨-, heffect⟩ := exec_event_effect ((event_eq_isEvent i).trans hev) ht
  obtain ⟨hlast, hpending⟩ := heffect.consumes
  obtain ⟨-, hcur, -⟩ := hact
  exact ⟨t, ht, hlast, hpending, heffect.continues_or_stops hcur⟩

end Sys2Proof.Machine
end

