-- ==== Sys2Proof/Proofs/Transactions.lean ====
section
/-! SUPPORT. Whole transactions (R130 to R137): what each event of an undisturbed transaction does, as a triple over the progress of the
transaction (the active descriptor and the byte counters), and the transactions as sequences of such triples. Settles O36 to O38. -/

namespace Sys2Proof.Machine

open Sys2Proof.Spec

/-! ### Runs of events -/

theorem runEvents_cons {i : Instr} {s t : State} (e : exec i s = .next t) (rest : List Instr) :
    runEvents (i :: rest) s = runEvents rest t := by
  simp only [runEvents, e]

/-- Since `s` the commands `cs` have been issued and descriptor `h` alone has changed, as `g` says; the requesters and the
configuration are as they were. -/
structure Since (s : State) (h : Handle) (cs : List HwCmd) (g : Descriptor → Descriptor) (t : State) : Prop where
  cmds : t.cmds = s.cmds ++ cs
  descs : t.descs = s.descs.modify h g
  requesters : t.requesters = s.requesters
  params : t.params = s.params
  queueCapacity : t.queueCapacity = s.queueCapacity

theorem Since.issued {s t : State} {cs : List HwCmd} (h : Handle) (cmds : t.cmds = s.cmds ++ cs) (descs : t.descs = s.descs)
    (requesters : t.requesters = s.requesters) (params : t.params = s.params)
    (queueCapacity : t.queueCapacity = s.queueCapacity) : Since s h cs id t :=
  ⟨cmds, descs.trans (List.modify_id h s.descs).symm, requesters, params, queueCapacity⟩

theorem Since.recorded (s : State) (h : Handle) (code : Byte) : Since s h [] id (afterPhase s code) :=
  .issued h (List.append_nil s.cmds).symm rfl rfl rfl rfl

theorem Since.trans {s t u : State} {h : Handle} {cs cs' : List HwCmd} {f g : Descriptor → Descriptor}
    (hfirst : Since s h cs g t) (hthen : Since t h cs' f u) : Since s h (cs ++ cs') (f ∘ g) u where
  cmds := by rw [hthen.cmds, hfirst.cmds, List.append_assoc]
  descs := by rw [hthen.descs, hfirst.descs, List.modify_modify_eq]
  requesters := hthen.requesters.trans hfirst.requesters
  params := hthen.params.trans hfirst.params
  queueCapacity := hthen.queueCapacity.trans hfirst.queueCapacity

/-- What is left of a transaction ends it. -/
theorem Since.endsIdle {s t : State} {h : Handle} {cs cs' : List HwCmd} {f g : Descriptor → Descriptor} {r : Result}
    (hfirst : Since s h cs g t) (hrest : endsIdle t r h cs' f) : endsIdle s r h (cs ++ cs') (f ∘ g) := by
  obtain ⟨u, hr, hcmds, hdescs, hbusy, hcur, hqueue, hreqs, hparams, hcap, harb⟩ := hrest
  have hall := hfirst.trans ⟨hcmds, hdescs, hreqs, hparams, hcap⟩
  exact ⟨u, hr, hall.cmds, hall.descs, hbusy, hcur, hqueue, hall.requesters, hall.params, hall.queueCapacity, harb⟩

/-! ### The progress of a transaction -/

/-- What the rules of an active transaction branch on, besides the phase (R29, R100). -/
structure Progress where
  desc : Descriptor
  wrCnt : BitVec 2
  rdCnt : BitVec 2

/-- The transaction on `h` is active and undisturbed with progress `p`, and no other handle waits. -/
structure Midway (s : State) (h : Handle) (p : Progress) : Prop where
  active : Active s h p.desc
  queue : s.queue = []
  arbLost : s.arbLost = false
  wrCnt : s.wrCnt = p.wrCnt
  rdCnt : s.rdCnt = p.rdCnt
  phase : s.phase ≠ 0x38

/-- R114: the progress after a received byte. -/
def Progress.stored (p : Progress) (b : Byte) : Progress :=
  { p with desc := p.desc.storePayload p.rdCnt b, rdCnt := p.rdCnt + 1 }

/-- What the terminal sequence writes into the descriptor of a transaction without error (R115). -/
def succeeded (d : Descriptor) : Descriptor := { d with status := 0x00, done := true }

theorem afterStore_eq (s : State) (h : Handle) (b : Byte) :
    afterStore s h b =
      { s with descs := s.descs.modify h (fun d => d.storePayload s.rdCnt b), rdCnt := s.rdCnt + 1 } := by
  unfold afterStore Descriptor.storePayload
  split
  next hzero => simp [hzero]
  next => rfl

section
variable {s : State} {h : Handle} {p : Progress} (hmid : Midway s h p)
include hmid

/-- R100: recording the phase of any event but an arbitration loss leaves the transaction undisturbed. -/
theorem Midway.recorded {code : Byte} (hcode : code ≠ 0x38) : Midway (afterPhase s code) h p :=
  { hmid with phase := hcode }

/-- R33: issuing commands leaves its progress as it is. -/
theorem Midway.commanded (cs : List HwCmd) (out : Bool) : Midway { s with cmds := cs, startOutstanding := out } h p :=
  { hmid with }

/-- R29: sending with `wr_cnt` set is the progress of a write. -/
theorem Midway.issued (cs : List HwCmd) (wr : BitVec 2) :
    Midway { issues s cs with wrCnt := wr } h { p with wrCnt := wr } :=
  { hmid with wrCnt := rfl }

theorem Midway.stored (b : Byte) : Midway (afterStore s h b) h (p.stored b) := by
  obtain ⟨⟨hi, hcur, hd⟩, hqueue, harb, hwr, hrd, hphase⟩ := hmid
  rw [afterStore_eq, hrd]
  exact ⟨⟨hi, hcur, by simp [hd, Progress.stored]⟩, hqueue, harb, hwr, rfl, hphase⟩

theorem Midway.since_stored (b : Byte) : Since s h [] (fun d => d.storePayload p.rdCnt b) (afterStore s h b) := by
  rw [afterStore_eq, hmid.rdCnt]
  exact ⟨(List.append_nil s.cmds).symm, rfl, rfl, rfl, rfl⟩

/-- R115 with an empty queue. -/
theorem Midway.endsIdle_afterTerminal : endsIdle s (.next (afterTerminal s h 0x00)) h [.stop] succeeded := by
  simp only [afterTerminal, hmid.queue]
  exact ⟨_, rfl, rfl, rfl, rfl, rfl, rfl, rfl, rfl, rfl, hmid.arbLost⟩

end

/-! ### Events as triples -/

/-- Wherever the transaction has progress `p`, the event `i` issues `cs`, changes the descriptor as `g` says, and leads to progress
`p'`. -/
def Takes (i : Instr) (h : Handle) (p : Progress) (cs : List HwCmd) (g : Descriptor → Descriptor) (p' : Progress) : Prop :=
  ∀ s, Midway s h p → ∃ t, exec i s = .next t ∧ Since s h cs g t ∧ Midway t h p'

/-- Wherever the transaction has progress `p`, the events `es` end it: they issue `cs`, change the descriptor as `f` says, and leave the
block idle. -/
def Completes (es : List Instr) (h : Handle) (p : Progress) (cs : List HwCmd) (f : Descriptor → Descriptor) : Prop :=
  ∀ s, Midway s h p → endsIdle s (runEvents es s) h cs f

theorem Takes.andThen {i : Instr} {es : List Instr} {h : Handle} {p p' : Progress} {cs cs' : List HwCmd}
    {f g : Descriptor → Descriptor} (hfirst : Takes i h p cs g p') (hrest : Completes es h p' cs' f) :
    Completes (i :: es) h p (cs ++ cs') (f ∘ g) := by
  intro s hmid
  obtain ⟨t, ht, hsince, hmid'⟩ := hfirst s hmid
  rw [runEvents_cons ht]
  exact hsince.endsIdle (hrest t hmid')

/-- R102: the start condition of an active descriptor begins its transaction, with the counters reset. -/
theorem endsIdle_of_start {s : State} {h : Handle} {d : Descriptor} {es : List Instr} {cs : List HwCmd} {address : Byte}
    {f : Descriptor → Descriptor} (hfirst : firstAddress d = address) (hact : Active s h d) (hphase : s.phase ≠ 0x38)
    (hqueue : s.queue = []) (rx : Byte) (hrest : Completes es h { desc := d, wrCnt := 0, rdCnt := 0 } cs f) :
    endsIdle s (runEvents (.evtStartSent rx :: es) s) h ([.clearStart, .tx address] ++ cs) f := by
  subst hfirst
  obtain ⟨hfresh, -, -⟩ := startSentActivatesAndSendsTheAddress
  rw [runEvents_cons (hfresh s h d rx hact hphase)]
  refine Since.endsIdle ?since (hrest _ ?begun)
  case since => exact .issued h rfl rfl rfl rfl rfl
  case begun => exact ⟨hact, hqueue, rfl, rfl, rfl, (by decide : (0x08 : Byte) ≠ 0x38)⟩

section
variable {h : Handle} {p : Progress}

/-- An event that sends, and counts what it has sent. -/
theorem takes_of_issues {i : Instr} {code : Byte} {cs : List HwCmd} {wr : BitVec 2} (hcode : code ≠ 0x38)
    (hexec : ∀ s, Midway s h p → exec i s = .next { issues (afterPhase s code) cs with wrCnt := wr }) :
    Takes i h p cs id { p with wrCnt := wr } :=
  fun s hmid => ⟨_, hexec s hmid, .issued h rfl rfl rfl rfl rfl, (hmid.recorded hcode).issued cs wr⟩

/-- An event whose whole action is the terminal sequence. -/
theorem completes_of_afterTerminal {i : Instr} {code : Byte} (hcode : code ≠ 0x38)
    (hexec : ∀ s, Midway s h p → exec i s = .next (afterTerminal (afterPhase s code) h 0x00)) :
    Completes [i] h p [.stop] succeeded := by
  intro s hmid
  rw [runEvents_cons (hexec s hmid)]
  exact (Since.recorded s h code).endsIdle (hmid.recorded hcode).endsIdle_afterTerminal

/-! ### Events of a write (R104, R106) -/

theorem completes_quick (rx : Byte) (ho : p.desc.opcode = .quick) : Completes [.evtAddrWAck rx] h p [.stop] succeeded :=
  completes_of_afterTerminal (code := 0x18) (by decide) fun s hmid => by
    rw [writeAddressAckBranchesOnTheOpcode s h p.desc rx hmid.active, ho]

theorem takes_singleByte (rx : Byte) (ho : p.desc.opcode = .sendByte) :
    Takes (.evtAddrWAck rx) h p [.tx p.desc.payload0] id { p with wrCnt := 1 } :=
  takes_of_issues (code := 0x18) (by decide) fun s hmid => by
    rw [writeAddressAckBranchesOnTheOpcode s h p.desc rx hmid.active, ho]

theorem takes_command (rx : Byte) (ho : p.desc.opcode ∈ [Opcode.writeByte, .readByte, .writeWord, .readWord]) :
    Takes (.evtAddrWAck rx) h p [.tx p.desc.command] id p :=
  takes_of_issues (code := 0x18) (by decide) fun s hmid => by
    rw [writeAddressAckBranchesOnTheOpcode s h p.desc rx hmid.active, ← hmid.wrCnt]
    simp only [List.mem_cons, List.not_mem_nil, or_false] at ho
    obtain ho | ho | ho | ho := ho <;> rw [ho] <;> rfl

theorem takes_payload0 (rx : Byte) (ho : p.desc.opcode = .writeByte ∨ p.desc.opcode = .writeWord) (hwr : p.wrCnt = 0) :
    Takes (.evtDataWAck rx) h p [.tx p.desc.payload0] id { p with wrCnt := 1 } :=
  takes_of_issues (code := 0x28) (by decide) fun s hmid => by
    rw [writeDataAckSendsTheNextByteOrEnds s h p.desc rx hmid.active, hmid.wrCnt, hwr]
    obtain ho | ho := ho <;> rw [ho] <;> rfl

theorem takes_payload1 (rx : Byte) (ho : p.desc.opcode = .writeWord) (hwr : p.wrCnt = 1) :
    Takes (.evtDataWAck rx) h p [.tx p.desc.payload1] id { p with wrCnt := 2 } :=
  takes_of_issues (code := 0x28) (by decide) fun s hmid => by
    rw [writeDataAckSendsTheNextByteOrEnds s h p.desc rx hmid.active, hmid.wrCnt, hwr, ho]
    rfl

/-- The last byte is the one of SendByte, or the counter says so. -/
theorem completes_write (rx : Byte) (ho : p.desc.opcode = .sendByte ∨ (p.desc.opcode = .writeByte ∧ p.wrCnt = 1) ∨
      (p.desc.opcode = .writeWord ∧ p.wrCnt = 2)) :
    Completes [.evtDataWAck rx] h p [.stop] succeeded :=
  completes_of_afterTerminal (code := 0x28) (by decide) fun s hmid => by
    rw [writeDataAckSendsTheNextByteOrEnds s h p.desc rx hmid.active, hmid.wrCnt]
    obtain ho | ⟨ho, hwr⟩ | ⟨ho, hwr⟩ := ho
    · rw [ho]
    · rw [ho, hwr]; rfl
    · rw [ho, hwr]; rfl

/-! ### Events of a read (R103, R106, R109 to R111) -/

/-- R106: no stop comes between the command byte and the repeated start. -/
theorem takes_turnRound (rx : Byte) (ho : p.desc.opcode = .readByte ∨ p.desc.opcode = .readWord) :
    Takes (.evtDataWAck rx) h p [.start] id p := by
  intro s hmid
  have hexec : exec (.evtDataWAck rx) s = .next (issuesStart (afterPhase s 0x28)) := by
    rw [writeDataAckSendsTheNextByteOrEnds s h p.desc rx hmid.active]
    obtain ho | ho := ho <;> rw [ho]
  exact ⟨_, hexec, .issued h rfl rfl rfl rfl rfl, (hmid.recorded (by decide)).commanded _ true⟩

theorem takes_readAddress (rx : Byte) : Takes (.evtRepStartSent rx) h p [.clearStart, .tx (addressR p.desc)] id p :=
  takes_of_issues (code := 0x10) (by decide) fun s hmid => by
    rw [repeatedStartSendsTheReadAddressOrResumes s h p.desc rx hmid.active, if_neg hmid.phase, ← hmid.wrCnt]
    rfl

/-- R109: the command is the one for a single byte, or the one for more. -/
theorem takes_readAck {c : HwCmd} (rx : Byte)
    (hc : (if p.desc.opcode = .receiveByte ∨ p.desc.opcode = .readByte then HwCmd.ackOff else .ackOn) = c) :
    Takes (.evtAddrRAck rx) h p [c] id p :=
  takes_of_issues (code := 0x40) (by decide) fun s hmid => by
    rw [readAddressAckSetsTheAcknowledge s h p.desc rx hmid.active, hc, ← hmid.wrCnt]
    rfl

theorem takes_receivedByte (b : Byte) (ho : p.desc.opcode = .readWord) (hrd : p.rdCnt < 2) :
    Takes (.evtDataRxAck b) h p [.ackOff] (fun d => d.storePayload p.rdCnt b) (p.stored b) := by
  intro s hmid
  obtain ⟨hstores, -, -⟩ := receivedByteWithAckIsStoredForReadWordOnly s h p.desc b hmid.active
  have hmid' := hmid.recorded (code := 0x50) (by decide)
  have hsince := (Since.recorded s h 0x50).trans (hmid'.since_stored b)
  refine ⟨_, hstores ho (hmid.rdCnt ▸ hrd), hsince.trans (cs' := [.ackOff]) (f := id) ?_, (hmid'.stored b).commanded _ _⟩
  exact .issued h rfl rfl rfl rfl rfl

theorem completes_read (b : Byte) (hrd : p.rdCnt < 2) :
    Completes [.evtDataRxNak b] h p [.stop] (succeeded ∘ fun d => d.storePayload p.rdCnt b) := by
  intro s hmid
  obtain ⟨hstores, -⟩ := receivedByteWithNakIsStoredAndEnds s h p.desc b hmid.active
  have hmid' := hmid.recorded (code := 0x58) (by decide)
  rw [runEvents_cons (hstores (hmid.rdCnt ▸ hrd))]
  exact (Since.recorded s h 0x58).endsIdle ((hmid'.since_stored b).endsIdle (hmid'.stored b).endsIdle_afterTerminal)

end

/-! ### Arbitration losses (R102, R103, R108) -/

/-- R108: what the loss leaves. -/
def afterLoss (s : State) : State := { issuesStart (afterPhase s 0x38) with arbLost := true }

/-- R102, R103: a retry sends the first address byte again, whichever start condition the HBI reports, and resets nothing. -/
theorem exec_retry {s : State} {h : Handle} {d : Descriptor} {retry : Instr} {rx : Byte} (hact : Active s h d)
    (hlost : s.phase = 0x38) (hretry : retry ∈ [Instr.evtStartSent rx, .evtRepStartSent rx]) :
    ∃ code, exec retry s = .next (issues (afterPhase s code) [.clearStart, .tx (firstAddress d)]) := by
  simp only [List.mem_cons, List.not_mem_nil, or_false] at hretry
  obtain rfl | rfl := hretry
  · obtain ⟨-, hresume, -⟩ := startSentActivatesAndSendsTheAddress
    exact ⟨0x08, hresume s h d rx hact hlost⟩
  · have hresume := repeatedStartSendsTheReadAddressOrResumes s h d rx hact
    rw [if_pos hlost] at hresume
    exact ⟨0x10, hresume⟩

/-! ### The statements -/

theorem firstAddress_receiveByte {d : Descriptor} (ho : d.opcode = .receiveByte) : firstAddress d = addressR d := if_pos ho

theorem firstAddress_of_ne_receiveByte {d : Descriptor} (ho : d.opcode ≠ .receiveByte) : firstAddress d = addressW d :=
  if_neg ho

/-- Settles O36: each transaction is the sequence of its events. -/
theorem writeTransactionsSendTheirBytesInOrder : Obligations.WriteTransactionsSendTheirBytesInOrder := by
  unfold Obligations.WriteTransactionsSendTheirBytesInOrder
  intro s h d r1 r2 r3 r4 r5 hact hphase hqueue
  refine ⟨fun ho => ?quick, fun ho => ?sendByte, fun ho => ?writeByte, fun ho => ?writeWord⟩ <;>
    refine endsIdle_of_start (firstAddress_of_ne_receiveByte (by simp [ho])) hact hphase hqueue r1 ?_
  case quick => exact completes_quick r2 ho
  case sendByte => exact (takes_singleByte r2 ho).andThen (completes_write r3 (.inl ho))
  case writeByte =>
    exact (takes_command r2 (by simp [ho])).andThen <| (takes_payload0 r3 (.inl ho) rfl).andThen <|
      completes_write r4 (.inr (.inl ⟨ho, rfl⟩))
  case writeWord =>
    exact (takes_command r2 (by simp [ho])).andThen <| (takes_payload0 r3 (.inr ho) rfl).andThen <|
      (takes_payload1 r4 ho rfl).andThen <| completes_write r5 (.inr (.inr ⟨ho, rfl⟩))

/-- Settles O37: so is each read, and the byte counter places the bytes. -/
theorem readTransactionsStoreTheirBytesInOrder : Obligations.ReadTransactionsStoreTheirBytesInOrder := by
  unfold Obligations.ReadTransactionsStoreTheirBytesInOrder
  intro s h d r1 r2 r3 r4 r5 b0 b1 hact hphase hqueue
  have hfirst : (0 : BitVec 2) < 2 := by decide
  have hsecond : (0 + 1 : BitVec 2) < 2 := by decide
  refine ⟨fun ho => ?receiveByte, fun ho => ?readByte, fun ho => ?readWord⟩
  case receiveByte =>
    refine endsIdle_of_start (firstAddress_receiveByte ho) hact hphase hqueue r1 ?_
    exact (takes_readAck r2 (if_pos (.inl ho))).andThen (completes_read b0 hfirst)
  case readByte =>
    refine endsIdle_of_start (firstAddress_of_ne_receiveByte (by simp [ho])) hact hphase hqueue r1 ?_
    exact (takes_command r2 (by simp [ho])).andThen <| (takes_turnRound r3 (.inl ho)).andThen <|
      (takes_readAddress r4).andThen <| (takes_readAck r5 (if_pos (.inr ho))).andThen <| completes_read b0 hfirst
  case readWord =>
    refine endsIdle_of_start (firstAddress_of_ne_receiveByte (by simp [ho])) hact hphase hqueue r1 ?_
    refine (takes_command r2 (by simp [ho])).andThen <| (takes_turnRound r3 (.inr ho)).andThen <|
      (takes_readAddress r4).andThen <| (takes_readAck r5 (if_neg (by simp [ho]))).andThen <|
      (takes_receivedByte b0 ho hfirst).andThen <| completes_read b1 ?_
    exact hsecond

/-- Settles O38: neither report of the retry resets anything, since the phase before it is the loss. -/
theorem arbitrationRetryResumesWithItsCounters : Obligations.ArbitrationRetryResumesWithItsCounters := by
  unfold Obligations.ArbitrationRetryResumesWithItsCounters
  intro s h d r1 r2 hact retry hretry
  have hlost : exec (.evtArbLost r1) s = .next (afterLoss s) := arbitrationLossReissuesTheStart s h d r1 hact
  obtain ⟨code, hexec⟩ := exec_retry (s := afterLoss s) hact rfl hretry
  rw [runEvents_cons hlost, runEvents_cons hexec]
  exact ⟨_, rfl, List.append_assoc s.cmds _ _, rfl, rfl, rfl, rfl, rfl, rfl, rfl, rfl⟩

end Sys2Proof.Machine
end

