-- ==== Sys2Proof/Proofs/Bridge.lean ====
section
/-! SUPPORT. The two ends of the bridge (43_bridge.md): the wait that a completion or the timer ends, and what the HBI's event and the
interrupt find. Settles O22 and O39. -/

namespace Sys2Proof.Machine

open Sys2Proof.Spec

/-! ### The wait (R91) -/

/-- Settles O22: S4 asks for completion first, and then begins S5 by the test of R92 on the status it has found. -/
theorem submitStep4EndsByCompletionOrTimeout : Obligations.SubmitStep4EndsByCompletionOrTimeout := by
  unfold Obligations.SubmitStep4EndsByCompletionOrTimeout
  intro s who o d left hin hp
  rw [State.runRequester_inside hin, hp]
  simp only [State.afterStep, State.stepS4, State.beginS5_eq, timerStart_eq_unitsOf, Bool.false_or, bne_iff_ne]
  rfl

/-! ### Raised events and the stub (R34, R147, R180) -/

theorem State.raiseEvent_uninitialised {s : State} (hi : s.initialised = false) (w : BitVec 16) :
    s.raiseEvent w = .next s := by
  simp [State.raiseEvent, hi]

theorem State.raiseEvent_pending {s : State} (hi : s.initialised = true) (hp : s.pending ≠ none) (w : BitVec 16) :
    s.raiseEvent w = .refused .eventAlreadyPending := by
  simp [State.raiseEvent, hi, Option.isSome_iff_ne_none.mpr hp]

theorem State.raiseEvent_idle {s : State} (hi : s.initialised = true) (hp : s.pending = none) (w : BitVec 16) :
    s.raiseEvent w = .next { s with pending := some w } := by
  simp [State.raiseEvent, hi, hp]

theorem State.delivered_eq_none {s : State} (h : s.irqEn = false ∨ s.pending = none ∨ s.initialised = false) :
    s.delivered = none := by
  obtain hq | hp | hi := h <;> simp [State.delivered, *]

theorem State.delivered_eq_some {s : State} {w : BitVec 16} (hi : s.initialised = true) (hq : s.irqEn = true)
    (hp : s.pending = some w) : s.delivered = some w := by
  simp [State.delivered, hi, hq, hp]

/-- With nothing delivered the interrupt is not taken, in either mode. -/
theorem takeMove_interrupt_undelivered {s : State} (h : s.delivered = none) : takeMove .interrupt s = .next s := by
  cases hm : s.params.dispatchMode <;> simp [takeMove, State.interruptEvent, State.stubStep, hm, h]

/-- R147: in DEFERRED mode the interrupt is the stub step. -/
theorem takeMove_interrupt_stub {s : State} {w : BitVec 16} (hm : s.params.dispatchMode = .deferred)
    (h : s.delivered = some w) :
    takeMove .interrupt s = .next { s with irqEn := false, deferSig := true, yieldReq := true } := by
  simp [takeMove, State.interruptEvent, State.stubStep, hm, h]

/-- Settles O39, by what the HBI and the interrupt find. -/
theorem interruptStubMasksTheLineAndHandsOff : Obligations.InterruptStubMasksTheLineAndHandsOff := by
  unfold Obligations.InterruptStubMasksTheLineAndHandsOff
  refine ⟨fun s w rest hin hi hp => ?pends, fun s w rest hin hi hp => ?refused, fun s w rest hin hi => ?dropped,
    fun s w rest hin hm hi hq hp => ?stub, fun s rest hin hno => ?masked⟩
  all_goals refine (step_move hin).trans ?_
  case pends => exact State.raiseEvent_idle (s := { s with inputs := rest }) hi hp w
  case refused => exact State.raiseEvent_pending (s := { s with inputs := rest }) hi hp w
  case dropped => exact State.raiseEvent_uninitialised (s := { s with inputs := rest }) hi w
  case stub =>
    exact takeMove_interrupt_stub (s := { s with inputs := rest }) hm (State.delivered_eq_some (w := w) hi hq hp)
  case masked => exact takeMove_interrupt_undelivered (State.delivered_eq_none (s := { s with inputs := rest }) hno)

end Sys2Proof.Machine
end

