-- ==== Sys2Proof/Proofs/DispatchModes.lean ====
section
/-! SUPPORT. A sequencer step does the same whatever the dispatch mode and `irq_en` are, so a stub step with its handler step is the
interrupt step of DIRECT mode. Settles O41. -/

namespace Sys2Proof.Machine

open Sys2Proof.Spec

/-! ### A sequencer step does not see how it is dispatched (R150) -/

/-- `s` in dispatch mode `m` with `irq_en` at `q`. -/
def State.dispatched (m : DispatchMode) (q : Bool) (s : State) : State :=
  { s with params := { s.params with dispatchMode := m }, irqEn := q }

theorem State.dispatched_self (s : State) {m : DispatchMode} {q : Bool} (hm : s.params.dispatchMode = m)
    (hq : s.irqEn = q) : s.dispatched m q = s := by
  subst hm hq
  rfl

theorem thenDo_thenDo (r : Result) (f g : State → State) : thenDo (thenDo r f) g = thenDo r fun s => g (f s) := by
  cases r <;> rfl

section
variable (m : DispatchMode) (q : Bool)

/-- The rule answers the same in mode `m` with `irq_en` at `q`, and leaves these two as it finds them. -/
def IgnoresDispatch (rule : State → Result) : Prop :=
  ∀ s, rule (s.dispatched m q) = thenDo (rule s) (State.dispatched m q)

theorem State.terminal_dispatched (s : State) (h : Handle) (st : Byte) :
    (s.dispatched m q).terminal h st = (s.terminal h st).dispatched m q := by
  cases hq : s.queue with
  | nil =>
    rw [State.terminal_idle h st hq, State.terminal_idle (s := s.dispatched m q) h st hq]
    rfl
  | cons next rest =>
    rw [State.terminal_chain h st hq, State.terminal_chain (s := s.dispatched m q) h st hq]
    rfl

variable {m q}

theorem ignoresDispatch_terminal (h : Handle) (st : Byte) : IgnoresDispatch m q fun s => .next (s.terminal h st) :=
  fun s => congrArg _ (s.terminal_dispatched m q h st)

theorem ignoresDispatch_storeRx (h : Handle) (b : Byte) : IgnoresDispatch m q fun s => s.storeRx h b := by
  intro s
  change (if 2 ≤ s.rdCnt then _ else _) = thenDo (if 2 ≤ s.rdCnt then _ else _) _
  split <;> rfl

theorem IgnoresDispatch.andThen {rule : State → Result} {f : State → State} (hrule : IgnoresDispatch m q rule)
    (hf : ∀ s, f (s.dispatched m q) = (f s).dispatched m q) : IgnoresDispatch m q fun s => thenDo (rule s) f := by
  intro s
  simp only [hrule s, thenDo_thenDo, hf]

/-- A test of a register that the dispatch does not concern. -/
theorem IgnoresDispatch.ite {c : State → Prop} [DecidablePred c] {rule rule' : State → Result}
    (hc : ∀ s, c (s.dispatched m q) ↔ c s) (hrule : IgnoresDispatch m q rule) (hrule' : IgnoresDispatch m q rule') :
    IgnoresDispatch m q fun s => if c s then rule s else rule' s := by
  intro s
  simp only [hc]
  split
  · exact hrule s
  · exact hrule' s

/-- What the active descriptor is does not depend on the dispatch. -/
theorem IgnoresDispatch.withActive {rule : State → Handle → Descriptor → Result}
    (hrule : ∀ h d, IgnoresDispatch m q fun s => rule s h d) : IgnoresDispatch m q fun s => s.withActive (rule s) := by
  intro s
  change State.withActive _ _ = thenDo (State.withActive _ _) _
  cases hc : s.cur with
  | none => rw [State.withActive_inactive hc, State.withActive_inactive (s := s.dispatched m q) hc, thenDo_fault]
  | some h =>
    cases hd : s.descs[h]? with
    | none =>
      have hn : s.nDesc ≤ h := List.getElem?_eq_none_iff.mp hd
      rw [State.withActive_outOfRange hc hn, State.withActive_outOfRange (s := s.dispatched m q) hc hn, thenDo_refused]
    | some d =>
      rw [State.withActive_active hc hd, State.withActive_active (s := s.dispatched m q) hc hd]
      exact hrule h d s

theorem ignoresDispatch_startAddress : IgnoresDispatch m q State.startAddress :=
  .withActive (rule := fun s _ d => .next (s.txAddress d (originalDir d.opcode))) fun _ _ _ => rfl

theorem ignoresDispatch_freshStart : IgnoresDispatch m q State.freshStart := by
  intro s
  cases hc : s.cur with
  | some h =>
    rw [State.freshStart_active hc, State.freshStart_active (s := s.dispatched m q) hc]
    rfl
  | none =>
    cases hq : s.queue with
    | nil => rw [State.freshStart_empty hc hq, State.freshStart_empty (s := s.dispatched m q) hc hq, thenDo_fault]
    | cons h rest =>
      rw [State.freshStart_head hc hq, State.freshStart_head (s := s.dispatched m q) hc hq]
      rfl

end

section
variable {m : DispatchMode} {q : Bool} {s s' : State}

/-- A sequencer step from `s'` finds what one from `s` does, but for the mode, which is `m`, and `irq_en`, which is `q`. -/
def EntersAs (m : DispatchMode) (q : Bool) (s s' : State) : Prop :=
  s'.initialised = s.initialised ∧ ∀ code, s'.recordPhase code = (s.recordPhase code).dispatched m q

/-- Each state does so of itself. -/
theorem EntersAs.self (hm : s.params.dispatchMode = m) (hq : s.irqEn = q) : EntersAs m q s s :=
  ⟨rfl, fun code => ((s.recordPhase code).dispatched_self hm hq).symm⟩

theorem EntersAs.seqStep (henters : EntersAs m q s s') {code : Byte} {rule : State → Result}
    (hrule : IgnoresDispatch m q rule) :
    s'.seqStep code rule = thenDo (s.seqStep code rule) (State.dispatched m q) := by
  obtain ⟨hinit, hrecord⟩ := henters
  cases hi : s.initialised with
  | false => rw [State.seqStep_uninitialised hi, State.seqStep_uninitialised (hinit.trans hi), thenDo_refused]
  | true =>
    rw [State.seqStep_initialised hi, State.seqStep_initialised (hinit.trans hi), hrecord]
    exact hrule (s.recordPhase code)

theorem EntersAs.errorStop (henters : EntersAs m q s s') (code st : Byte) :
    s'.errorStop code st = thenDo (s.errorStop code st) (State.dispatched m q) :=
  henters.seqStep (.withActive fun h _ => ignoresDispatch_terminal h st)

theorem EntersAs.execEvtStartSent (henters : EntersAs m q s s') (rx : Byte) :
    execEvtStartSent rx s' = thenDo (execEvtStartSent rx s) (State.dispatched m q) := by
  refine henters.seqStep (.ite (c := fun s => s.lastPhase = phArbLost) (fun _ => Iff.rfl) ?retry ?start)
  case retry => exact fun s => ignoresDispatch_startAddress (s.emit .clearStart)
  case start =>
    intro s
    have hfresh : ((s.dispatched m q).emit .clearStart).freshStart = _ := ignoresDispatch_freshStart (s.emit .clearStart)
    simp only [hfresh]
    cases (s.emit .clearStart).freshStart with
    | next s2 => exact ignoresDispatch_startAddress s2
    | fault e => rfl
    | refused e => rfl

/-- The event lemma of the bridge: a phase event runs alike in both modes, whatever `irq_en` and `yield_req` it finds. -/
theorem EntersAs.exec_event (henters : EntersAs m q s s') {i : Instr} (hev : Instr.event i = true) :
    exec i s' = thenDo (exec i s) (State.dispatched m q) := by
  cases i
  case quick | sendByte | receiveByte | writeByte | readByte | writeWord | readWord | init => cases hev
  case evtBusError | evtAddrWNak | evtDataWNak | evtAddrRNak | evtOther => exact henters.errorStop _ _
  all_goals simp only [exec]
  case evtStartSent => exact henters.execEvtStartSent _
  all_goals refine henters.seqStep (.withActive fun h d => ?_)
  case evtRepStartSent | evtArbLost => exact fun _ => rfl
  case evtAddrWAck =>
    cases d.opcode with
    | quick | receiveByte => exact ignoresDispatch_terminal h _
    | sendByte | writeByte | readByte | writeWord | readWord => exact fun _ => rfl
  case evtDataWAck =>
    cases d.opcode with
    | quick | receiveByte | sendByte => exact ignoresDispatch_terminal h _
    | readByte | readWord => exact fun _ => rfl
    | writeByte => exact .ite (c := fun s => s.wrCnt = 0) (fun _ => Iff.rfl) (fun _ => rfl) (ignoresDispatch_terminal h _)
    | writeWord =>
      exact .ite (c := fun s => s.wrCnt = 0) (fun _ => Iff.rfl) (fun _ => rfl)
        (.ite (c := fun s => s.wrCnt = 1) (fun _ => Iff.rfl) (fun _ => rfl) (ignoresDispatch_terminal h _))
  case evtAddrRAck => split <;> exact fun _ => rfl
  case evtDataRxAck rx =>
    split
    · exact (ignoresDispatch_storeRx h rx).andThen fun _ => rfl
    · exact ignoresDispatch_terminal h _
  case evtDataRxNak rx =>
    exact (ignoresDispatch_storeRx h rx).andThen fun s => s.terminal_dispatched m q h _

end

/-! ### The two ways of dispatch (R150) -/

theorem run_one (s : State) : run 1 s = step s := by
  have hcore : core.step s = step s := rfl
  simp only [run, Host.Core.run, hcore]
  cases step s <;> rfl

/-- R145: in DIRECT mode the interrupt is the sequencer step, which leaves mode and line as they were. -/
theorem step_interrupt_direct {s : State} {w : BitVec 16} {rest : List Move} (hin : s.inputs = .interrupt :: rest)
    (hm : s.params.dispatchMode = .direct) (hi : s.initialised = true) (hq : s.irqEn = true) (hp : s.pending = some w) :
    step s = thenDo (exec (decodeEvt16 w) { s with inputs := rest }) (State.dispatched .direct true) := by
  obtain ⟨-, -, -, hinterrupt, -⟩ := stepRunsTheDecodedInstruction
  rw [hinterrupt s w rest hin hm hi hq hp]
  exact (EntersAs.self (s := { s with inputs := rest }) hm hq).exec_event (decodeEvt16_event w)

/-- R147, R148: the stub step and the handler step after it. -/
theorem run_stub_handler {s : State} {w : BitVec 16} {rest : List Move} (hin : s.inputs = .interrupt :: .handler :: rest)
    (hm : s.params.dispatchMode = .deferred) (hi : s.initialised = true) (hq : s.irqEn = true) (hp : s.pending = some w) :
    run 2 s =
      thenDo (exec (decodeEvt16 w) { s with inputs := rest, irqEn := false, deferSig := false, yieldReq := true })
        State.handlerExit := by
  obtain ⟨-, -, -, hstub, -⟩ := interruptStubMasksTheLineAndHandsOff
  obtain ⟨-, -, -, -, hhandler, -⟩ := stepRunsTheDecodedInstruction
  rw [run_succ (hstub s w _ hin hm hi hq hp), run_one]
  exact hhandler _ w rest rfl hm hi rfl hp

/-- Settles O41: the stub leaves the event to the handler, whose sequencer step is that of the interrupt in DIRECT mode. -/
theorem deferredDispatchEqualsDirectDispatch : Obligations.DeferredDispatchEqualsDirectDispatch := by
  unfold Obligations.DeferredDispatchEqualsDirectDispatch
  intro s w rest hm hflags hi hp
  obtain ⟨hq, hd⟩ : s.irqEn = true ∧ s.deferSig = false := by
    have hflags := hflags hi
    rwa [hm] at hflags
  have henters : EntersAs .deferred false { s with inputs := rest }
      { s with params := { s.params with dispatchMode := .deferred }, inputs := rest, irqEn := false, deferSig := false,
               yieldReq := true } :=
    ⟨rfl, fun code => by simp [State.recordPhase, State.dispatched, hd]⟩
  have hdirect := step_interrupt_direct (s := { s with inputs := .interrupt :: rest }) rfl hm hi hq hp
  have hdeferred := run_stub_handler
    (s := { s with params := { s.params with dispatchMode := .deferred }, inputs := .interrupt :: .handler :: rest })
    rfl rfl hi hq hp
  rw [hdeferred, hdirect, henters.exec_event (decodeEvt16_event w), thenDo_thenDo, thenDo_thenDo]
  rfl

end Sys2Proof.Machine
end

