-- ==== Sys2Proof/Proofs/Reset.lean ====
section
/-! SUPPORT. The state after the one reset (R180 to R184): its `done` flags, and the `init` it is the result of. Settles O10. -/

namespace Sys2Proof.Machine

/-- R36, R187: every completion channel is empty after reset, whatever the table's size. -/
theorem reset_done {d : Descriptor} (hd : d ∈ State.reset.descs) : d.done = false := by
  have hfresh : d = Descriptor.fresh := List.eq_of_mem_replicate hd
  rw [hfresh]
  rfl

/-- R180: what R95 has `init` write to the registers is what `State.reset` holds in them. -/
theorem exec_init_reset :
    exec (.init State.reset.queueCapacity) { State.reset with initialised := false, cmds := [] } = .next State.reset :=
  initSetsEveryRegisterItNames { State.reset with initialised := false, cmds := [] } State.reset.queueCapacity rfl (by decide)

/-- Settles O10: the registers by the definition of `State.reset`, the `done` flags and the way there by the lemmas above. -/
theorem resetIsTheStateInitLeaves : Obligations.ResetIsTheStateInitLeaves := by
  unfold Obligations.ResetIsTheStateInitLeaves
  exact ⟨rfl, rfl, rfl, rfl, rfl, rfl, rfl, rfl, rfl, rfl, rfl, rfl, rfl, fun _ hd => reset_done hd, exec_init_reset⟩

end Sys2Proof.Machine
end

