-- ==== Sys2Proof/Proofs/BusOrder.lean ====
section
/-! SUPPORT. A correct HBI on the bus (41_sequencer.md section 5): what an event of its table says of the active opcode, and what the
sequencer then leaves. Settles O50 and O51. -/

namespace Sys2Proof

/-- The opcodes that an event of this class, in the order of the table, may meet; `phase` is the code of the event before it. -/
def PhaseClass.fits (phase : Byte) (o : Opcode) : PhaseClass → Prop
  | .repStartSent => phase = phArbLost ∨ o = .readByte ∨ o = .readWord
  | .addrWAck => o ≠ .receiveByte
  | .addrRAck => o = .receiveByte ∨ o = .readByte ∨ o = .readWord
  | .dataWAck => o ≠ .quick ∧ o ≠ .receiveByte
  | .dataRxAck => o = .readWord
  | .other => False
  | .busError | .startSent | .addrWNak | .dataWNak | .arbLost | .addrRNak | .dataRxNak => True

end Sys2Proof

namespace Sys2Proof.Machine

open Sys2Proof.Spec

/-! ### What an answer says of the active opcode -/

theorem State.busy_of_answer {s : State} {code : Byte} (hcode : code ∈ s.hbiAnswers) : s.busy = true := by
  by_contra hidle
  simp [State.hbiAnswers, hidle] at hcode

/-- The table's answers to the last command, and what that command says of the opcode, taken together. -/
theorem State.fits_of_answer {s : State} {o : Opcode} (hcur : s.cur ≠ none) (hfits : s.commandFits o) :
    ∀ code ∈ s.hbiAnswers, (classify code).fits s.phase o := by
  unfold State.commandFits at hfits
  unfold State.hbiAnswers
  split
  next => nofun
  next =>
    split <;> rename_i hlast <;> simp only [hlast] at hfits
    case h_5 | h_6 | h_7 | h_8 => nofun
    case h_1 => -- `HW.Start`
      simp only [hcur, false_or]
      split
      next =>
        simp only [List.forall_mem_cons]
        exact ⟨trivial, trivial, nofun⟩
      next hstop =>
        split <;> simp only [List.forall_mem_cons]
        next hlost => exact ⟨trivial, .inl hlost, trivial, nofun⟩
        next hlost => exact ⟨hfits.resolve_left hstop, trivial, nofun⟩
    case h_2 b => -- `HW.Tx`
      split
      next hphase =>
        rw [if_pos hphase] at hfits
        obtain ⟨hread, hwrite⟩ := hfits
        split <;> simp only [List.forall_mem_cons]
        next hdir => exact ⟨hread hdir, trivial, trivial, trivial, nofun⟩
        next hdir => exact ⟨hwrite (Bool.eq_false_of_not_eq_true hdir), trivial, trivial, trivial, nofun⟩
      next hphase =>
        rw [if_neg hphase] at hfits
        simp only [List.forall_mem_cons]
        exact ⟨hfits, trivial, trivial, trivial, nofun⟩
    case h_3 => -- `HW.AckOff`
      simp only [List.forall_mem_cons]
      exact ⟨trivial, trivial, trivial, nofun⟩
    case h_4 => -- `HW.AckOn`
      simp only [List.forall_mem_cons]
      exact ⟨hfits, trivial, nofun⟩

/-! ### What a command says of the opcode -/

/-- An address byte, by its direction bit (R66). -/
theorem State.commandFits_address {s : State} {o : Opcode} {b : Byte} (hlast : s.cmds.getLast? = some (.tx b))
    (hphase : s.phase = phStartSent ∨ s.phase = phRepStartSent)
    (hread : b.getLsbD 0 = true → o = .receiveByte ∨ o = .readByte ∨ o = .readWord)
    (hwrite : b.getLsbD 0 = false → o ≠ .receiveByte) : s.commandFits o := by
  simp only [State.commandFits, hlast, if_pos hphase]
  exact ⟨hread, hwrite⟩

theorem State.commandFits_data {s : State} {o : Opcode} {b : Byte} (hlast : s.cmds.getLast? = some (.tx b))
    (hphase : s.phase ≠ phStartSent ∧ s.phase ≠ phRepStartSent) (ho : o ≠ .quick ∧ o ≠ .receiveByte) :
    s.commandFits o := by
  simpa only [State.commandFits, hlast, hphase, or_self, if_false] using ho

theorem State.commandFits_start {s : State} {o : Opcode} (hlast : s.cmds.getLast? = some .start)
    (hwhy : s.cmds.dropLast.getLast? = some .stop ∨ s.phase = phArbLost ∨ o = .readByte ∨ o = .readWord) :
    s.commandFits o := by
  simpa only [State.commandFits, hlast] using hwhy

theorem State.commandFits_ackOn {s : State} {o : Opcode} (hlast : s.cmds.getLast? = some .ackOn) (ho : o = .readWord) :
    s.commandFits o := by
  simpa only [State.commandFits, hlast] using ho

theorem State.commandFits_ackOff {s : State} (o : Opcode) (hlast : s.cmds.getLast? = some .ackOff) : s.commandFits o := by
  simp only [State.commandFits, hlast]

theorem addressR_direction (d : Descriptor) : (addressR d).getLsbD 0 = true :=
  (BitVec.getLsbD_append (x := d.address) (y := 1#1)).trans rfl

theorem addressW_direction (d : Descriptor) : (addressW d).getLsbD 0 = false :=
  (BitVec.getLsbD_append (x := d.address) (y := 0#1)).trans rfl

/-- The first address byte (R102) fits the opcode it is made from. -/
theorem State.commandFits_firstAddress {s : State} {d : Descriptor} (hlast : s.cmds.getLast? = some (.tx (firstAddress d)))
    (hphase : s.phase = phStartSent ∨ s.phase = phRepStartSent) : s.commandFits d.opcode := by
  by_cases ho : d.opcode = .receiveByte
  · rw [firstAddress, if_pos ho] at hlast
    exact State.commandFits_address hlast hphase (fun _ => .inl ho)
      fun hwrite => nomatch hwrite.symm.trans (addressR_direction d)
  · rw [firstAddress, if_neg ho] at hlast
    exact State.commandFits_address hlast hphase (fun hread => nomatch hread.symm.trans (addressW_direction d))
      fun _ => ho

/-- The read address of a repeated start (R103) fits the opcodes that read. -/
theorem State.commandFits_addressR {s : State} {d : Descriptor} (hlast : s.cmds.getLast? = some (.tx (addressR d)))
    (hphase : s.phase = phRepStartSent) (ho : d.opcode = .readByte ∨ d.opcode = .readWord) : s.commandFits d.opcode :=
  State.commandFits_address hlast (.inr hphase) (fun _ => .inr ho)
    fun hwrite => nomatch hwrite.symm.trans (addressR_direction d)

/-! ### What an answered event leaves -/

/-- The last command fits the active opcode, if there is one. -/
def State.activeFits (s : State) : Prop := ∀ h d, s.cur = some h → s.descs[h]? = some d → s.commandFits d.opcode

/-- Where a descriptor of `t` holds `ST_UNEXPECTED`, it does in `s`. -/
def State.gainsNoUnexpected (s t : State) : Prop :=
  ∀ (h : Handle) (d' : Descriptor), t.descs[h]? = some d' → d'.status = stUnexpected →
    ∃ d : Descriptor, s.descs[h]? = some d ∧ d.status = stUnexpected

theorem State.gainsNoUnexpected_of_modify {s t : State} {h : Handle} {f : Descriptor → Descriptor}
    (hdescs : t.descs = s.descs.modify h f) (hf : ∀ d, (f d).status = stUnexpected → d.status = stUnexpected) :
    s.gainsNoUnexpected t := by
  intro k d' hd' hstatus
  rw [hdescs, modify_getElem?] at hd'
  split at hd'
  · obtain ⟨d, hd, rfl⟩ := Option.map_eq_some_iff.mp hd'
    exact ⟨d, hd, hf d hstatus⟩
  · exact ⟨d', hd', hstatus⟩

theorem State.gainsNoUnexpected_of_descs_eq {s t : State} (hdescs : t.descs = s.descs) : s.gainsNoUnexpected t := by
  intro h d hd hstatus
  exact ⟨d, hdescs ▸ hd, hstatus⟩

/-- An event the table allows leaves the last command fitting, and no transaction ended as unexpected. -/
def Answered (s t : State) : Prop := t.activeFits ∧ s.gainsNoUnexpected t

/-- The terminal sequence (R115) with another status: a chained transaction's start comes after a stop. -/
theorem answered_afterTerminal {s s1 : State} {h : Handle} {st : Byte} (hst : st ≠ stUnexpected)
    {f : Descriptor → Descriptor} (hdescs : s1.descs = s.descs.modify h f) : Answered s (afterTerminal s1 h st) := by
  have hended : (afterTerminal s1 h st).descs = s.descs.modify h fun d => { f d with status := st, done := true } := by
    rw [← State.terminal_eq_afterTerminal, State.terminal_descs, hdescs, modify_modify]
  refine ⟨fun k d hc hd => ?_, State.gainsNoUnexpected_of_modify hended fun d hstatus => absurd hstatus hst⟩
  cases hq : s1.queue with
  | nil => simp [afterTerminal, hq] at hc
  | cons next rest => exact State.commandFits_start (by simp [afterTerminal, hq]) (.inl (by simp [afterTerminal, hq]))

/-- The transaction on `h` goes on, and the last command fits its opcode. -/
theorem answered_goesOn {s t : State} {h : Handle} {d : Descriptor} (hc : t.cur = some h) (hd : s.descs[h]? = some d)
    (hdescs : t.descs = s.descs) (hfits : t.commandFits d.opcode) : Answered s t := by
  refine ⟨fun k d' hc' hd' => ?_, State.gainsNoUnexpected_of_descs_eq hdescs⟩
  obtain rfl := Option.some.inj (hc.symm.trans hc')
  rw [hdescs, hd] at hd'
  rwa [← Option.some.inj hd']

section
variable {s : State} {h : Handle} {d : Descriptor} (hact : Active s h d)
include hact

/-- A command or data byte is sent (R104, R106). -/
theorem answered_sends {code : Byte} (hcode : code ≠ phStartSent ∧ code ≠ phRepStartSent) (b : Byte) (wr : BitVec 2)
    (ho : d.opcode ≠ .quick ∧ d.opcode ≠ .receiveByte) :
    Answered s { issues (afterPhase s code) [.tx b] with wrCnt := wr } := by
  obtain ⟨-, hc, hd⟩ := hact
  exact answered_goesOn hc hd rfl (State.commandFits_data (b := b) (by simp [issues]) hcode ho)

/-- A first address byte is sent after the start condition is cleared (R102, R103). -/
theorem answered_firstAddress {t : State} (hcur : t.cur = s.cur) (hdescs : t.descs = s.descs)
    (hcmds : t.cmds = s.cmds ++ [.clearStart, .tx (firstAddress d)])
    (hphase : t.phase = phStartSent ∨ t.phase = phRepStartSent) : Answered s t := by
  obtain ⟨-, hc, hd⟩ := hact
  exact answered_goesOn (hcur.trans hc) hd hdescs (State.commandFits_firstAddress (by simp [hcmds]) hphase)

/-- On an active descriptor whose opcode may meet the event, the transaction goes on with a command that fits, or ends with a status of
its own. -/
theorem answered_of_active {t : State} {k : PhaseClass} {code rx : Byte} (hfits : k.fits s.phase d.opcode)
    (e : exec (eventOf code rx k) s = .next t) : Answered s t := by
  have ⟨hi, hc, hd⟩ := hact
  have leaves {u : State} (hu : exec (eventOf code rx k) s = .next u) (ha : Answered s u) : Answered s t :=
    Host.Outcome.next.inj (hu.symm.trans e) ▸ ha
  have ends (ph : Byte) {st : Byte} (hst : st ≠ stUnexpected) : Answered s (afterTerminal (afterPhase s ph) h st) :=
    answered_afterTerminal (f := id) hst (List.modify_id _ _).symm
  obtain ⟨hbus, hwnak, hdnak, hrnak, -⟩ := errorEventsEndTheTransactionWithTheirStatus s h d rx code hact
  cases k with
  | other => cases hfits
  | busError => exact leaves hbus (ends _ (by decide))
  | addrWNak => exact leaves hwnak (ends _ (by decide))
  | dataWNak => exact leaves hdnak (ends _ (by decide))
  | addrRNak => exact leaves hrnak (ends _ (by decide))
  | startSent =>
    obtain ⟨hfresh, hretry, -⟩ := startSentActivatesAndSendsTheAddress
    by_cases hlost : s.phase = 0x38
    · exact leaves (hretry s h d rx hact hlost) (answered_firstAddress hact rfl rfl rfl (.inl rfl))
    · exact leaves (hfresh s h d rx hact hlost) (answered_firstAddress hact rfl rfl rfl (.inl rfl))
  | repStartSent =>
    refine leaves (repeatedStartSendsTheReadAddressOrResumes s h d rx hact) ?_
    split
    next hlost => exact answered_firstAddress hact rfl rfl rfl (.inr rfl)
    next hlost =>
      exact answered_goesOn hc hd rfl (State.commandFits_addressR (by simp [issues]) rfl (hfits.resolve_left hlost))
  | addrWAck =>
    refine leaves (writeAddressAckBranchesOnTheOpcode s h d rx hact) ?_
    cases ho : d.opcode with
    | quick => exact ends _ (by decide)
    | receiveByte => exact absurd ho hfits
    | sendByte => exact answered_sends hact (by decide) _ 1 (by simp [ho])
    | writeByte | readByte | writeWord | readWord => exact answered_sends hact (by decide) _ s.wrCnt (by simp [ho])
  | dataWAck =>
    refine leaves (writeDataAckSendsTheNextByteOrEnds s h d rx hact) ?_
    have ⟨hquick, hreceive⟩ := hfits
    cases ho : d.opcode with
    | quick => exact absurd ho hquick
    | receiveByte => exact absurd ho hreceive
    | sendByte => exact ends _ (by decide)
    | readByte | readWord =>
      exact answered_goesOn hc hd rfl (State.commandFits_start (by simp [issuesStart]) (by simp [ho]))
    | writeByte =>
      by_cases hwr : s.wrCnt = 0 <;> simp only [hwr, if_true, if_false]
      · exact answered_sends hact (by decide) _ 1 hfits
      · exact ends _ (by decide)
    | writeWord =>
      simp only []
      split <;> [skip; split]
      · exact answered_sends hact (by decide) _ 1 hfits
      · exact answered_sends hact (by decide) _ 2 hfits
      · exact ends _ (by decide)
  | arbLost =>
    exact leaves (arbitrationLossReissuesTheStart s h d rx hact)
      (answered_goesOn hc hd rfl (State.commandFits_start (by simp [issuesStart]) (.inr (.inl rfl))))
  | addrRAck =>
    have hreads : d.opcode = .receiveByte ∨ d.opcode = .readByte ∨ d.opcode = .readWord := hfits
    refine leaves (readAddressAckSetsTheAcknowledge s h d rx hact) (answered_goesOn hc hd rfl ?_)
    by_cases ho : d.opcode = .receiveByte ∨ d.opcode = .readByte
    · exact State.commandFits_ackOff _ (by simp [issues, ho])
    · exact State.commandFits_ackOn (by simp [issues, ho]) (by tauto)
  | dataRxAck =>
    obtain ⟨hstores, hoverrun, -⟩ := receivedByteWithAckIsStoredForReadWordOnly s h d rx hact
    by_cases hrd : s.rdCnt < 2
    · refine leaves (hstores hfits hrd) ⟨fun _ _ _ _ => State.commandFits_ackOff _ (by simp [issues]), ?_⟩
      exact State.gainsNoUnexpected_of_modify (congrArg State.descs (afterStore_eq _ h rx))
        fun d hstatus => (d.storePayload_status _ rx).symm.trans hstatus
    · cases e.symm.trans (hoverrun hfits (BitVec.not_lt.mp hrd))
  | dataRxNak =>
    obtain ⟨hstores, hoverrun⟩ := receivedByteWithNakIsStoredAndEnds s h d rx hact
    by_cases hrd : s.rdCnt < 2
    · exact leaves (hstores hrd) (answered_afterTerminal (by decide) (congrArg State.descs (afterStore_eq _ h rx)))
    · cases e.symm.trans (hoverrun (BitVec.not_lt.mp hrd))

end

/-- An event that the table allows, in a state in order (41_sequencer.md section 5). -/
theorem exec_event_answered {s t : State} {w : BitVec 16} (hs : s.busInOrder) (hpend : s.pending = some w)
    (e : exec (decodeEvt16 w) s = .next t) : Answered s t ∧ t.pending = none := by
  obtain ⟨-, -, hanswer, hfits⟩ := hs
  obtain ⟨hi, heffect⟩ := exec_event_effect (decodeEvt16_event w) e
  refine ⟨?_, heffect.consumes.2⟩
  cases hc : s.cur with
  | none =>
    cases heffect with
    | activates h rest d hc' hq hd =>
      rw [addrByte_originalDir]
      exact answered_goesOn rfl hd rfl (State.commandFits_firstAddress (by simp) (.inl rfl))
    | goesOn _ h | stores h | ends _ h | storesAndEnds h => simp_all
  | some h =>
    cases hd : s.descs[h]? with
    | none =>
      have hev := (event_eq_isEvent _).symm.trans (decodeEvt16_event w)
      cases e.symm.trans (exec_event_outOfRange hev hi hc (List.getElem?_eq_none_iff.mp hd))
    | some d =>
      rw [decodeEvt16_eq_eventOf] at e
      exact answered_of_active ⟨hi, hc, hd⟩
        (State.fits_of_answer (by simp [hc]) (hfits h d hc hd) _ (hanswer w hpend)) e

/-! ### Steps -/

/-- The registers that the table of a correct HBI reads. -/
structure Bus where
  busy : Bool
  cur : Option Handle
  phase : Byte
  cmds : List HwCmd

def State.bus (s : State) : Bus := { busy := s.busy, cur := s.cur, phase := s.phase, cmds := s.cmds }

theorem State.hbiAnswers_of_bus {s t : State} (h : t.bus = s.bus) : t.hbiAnswers = s.hbiAnswers := by
  obtain ⟨hbusy, hcur, hphase, hcmds⟩ := Bus.mk.inj h
  simp only [State.hbiAnswers, hbusy, hcur, hphase, hcmds]

theorem State.commandFits_of_bus {s t : State} (h : t.bus = s.bus) (o : Opcode) : t.commandFits o ↔ s.commandFits o := by
  obtain ⟨-, -, hphase, hcmds⟩ := Bus.mk.inj h
  simp only [State.commandFits, hphase, hcmds]

/-- What a move does to the bus from a state in order. -/
inductive BusEffect (m : Move) (s t : State) : Prop
  /-- nothing, but that the HBI may make an event pending -/
  | kept (hbus : t.bus = s.bus) (hpend : t.pending = s.pending ∨ ∃ w, m = .raise w ∧ t.pending = some w)
  /-- no event is pending after it: the sequencer has answered it, or nothing is active yet -/
  | answered (hfits : t.activeFits) (hpend : t.pending = none)

theorem RunEffect.busEffect {s t : State} {who : Who} (e : RunEffect s who t) (hs : s.activeImpliesBusy) :
    BusEffect (.run who) s t := by
  obtain ⟨hcur, -, hpend⟩ := hs
  cases e with
  | waits | advances | enqueues => exact .kept rfl (.inl rfl)
  | kicks o left ho hp hb =>
    obtain ⟨hnone, hquiet⟩ : s.cur = none ∧ s.pending = none := by
      simpa [hb] using And.intro hcur hpend
    refine .answered (fun h d hc => ?_) hquiet
    cases hnone.symm.trans hc

theorem State.writesStatus.not_unexpected {s : State} {o : Op} {f : Descriptor → Descriptor} (hf : s.writesStatus o f)
    (d : Descriptor) (hstatus : (f d).status = stUnexpected) : d.status = stUnexpected := by
  obtain hkept | ⟨-, hwritten⟩ | ⟨-, -, hwritten⟩ := hf
  · exact (hkept d).symm.trans hstatus
  · cases (hwritten d).symm.trans hstatus
  · cases (hwritten d).symm.trans hstatus

theorem RunEffect.gainsNoUnexpected {s t : State} {who : Who} (e : RunEffect s who t) : s.gainsNoUnexpected t := by
  cases e with
  | waits | enqueues | kicks => exact State.gainsNoUnexpected_of_descs_eq rfl
  | advances o f r ho hf hr => exact State.gainsNoUnexpected_of_modify rfl hf.not_unexpected

theorem takeMove_bus {m : Move} {s t : State} (e : takeMove m s = .next t) (hs : s.busInOrder) :
    BusEffect m s t ∧ s.gainsNoUnexpected t := by
  have hmove := takeMove_next e
  have ⟨hbusy, _⟩ := hs
  cases m with
  | call who h w =>
    obtain ⟨o, rest, -, -, -, -, -, rfl⟩ := hmove
    exact ⟨.kept rfl (.inl rfl), State.gainsNoUnexpected_of_modify rfl fun _ => id⟩
  | init c =>
    obtain ⟨-, -, rfl⟩ := execInit_next hmove
    exact ⟨.answered (fun _ _ => nofun) rfl, State.gainsNoUnexpected_of_descs_eq rfl⟩
  | run who =>
    have heffect := runRequester_effect hmove
    exact ⟨heffect.busEffect hbusy, heffect.gainsNoUnexpected⟩
  | raise w =>
    obtain ⟨-, rfl⟩ | ⟨-, -, rfl⟩ := hmove
    · exact ⟨.kept rfl (.inl rfl), State.gainsNoUnexpected_of_descs_eq rfl⟩
    · exact ⟨.kept rfl (.inr ⟨w, rfl, rfl⟩), State.gainsNoUnexpected_of_descs_eq rfl⟩
  | interrupt =>
    obtain ⟨w, -, -, hpend, hexec⟩ | rfl := hmove
    · obtain ⟨⟨hfits, hgains⟩, hnone⟩ := exec_event_answered hs hpend hexec
      exact ⟨.answered hfits hnone, hgains⟩
    · obtain h | ⟨-, -, -, -, h⟩ := s.stubStep_cases <;> rw [h] <;>
        exact ⟨.kept rfl (.inl rfl), State.gainsNoUnexpected_of_descs_eq rfl⟩
  | handler =>
    obtain ⟨w, t', -, -, hpend, hexec, rfl⟩ | rfl := hmove
    · obtain ⟨⟨hfits, hgains⟩, hnone⟩ := exec_event_answered (s := { s with deferSig := false }) hs hpend hexec
      exact ⟨.answered hfits hnone, hgains⟩
    · exact ⟨.kept rfl (.inl rfl), State.gainsNoUnexpected_of_descs_eq rfl⟩
  | tick =>
    have htick : t = s.tick := hmove
    rw [htick]
    exact ⟨.kept rfl (.inl rfl), State.gainsNoUnexpected_of_descs_eq rfl⟩
  | writeId who h id =>
    obtain ⟨-, -, rfl⟩ := hmove
    exact ⟨.kept rfl (.inl rfl), State.gainsNoUnexpected_of_modify rfl fun _ hstatus => hstatus⟩
  | drain who h =>
    obtain ⟨-, rfl⟩ := hmove
    exact ⟨.kept rfl (.inl rfl), State.gainsNoUnexpected_of_modify rfl fun _ => id⟩

/-- The active descriptor is lent, so no step writes its opcode (R44). -/
theorem step_keeps_activeFits {s t : State} (e : step s = .next t) (hs : s.busInOrder) (hbus : t.bus = s.bus) :
    t.activeFits := by
  obtain ⟨-, ⟨-, hfree, -⟩, -, hfits⟩ := hs
  obtain ⟨-, hcur, -⟩ := Bus.mk.inj hbus
  intro h d' hc hd'
  rw [hcur] at hc
  obtain ⟨-, hlength, -⟩ := configurationIsFixedAfterInit s t e
  have hlt : h < s.nDesc := by
    rw [← hlength]
    exact (List.getElem?_eq_some_iff.mp hd').1
  have hd := List.getElem?_eq_getElem (l := s.descs) hlt
  obtain ⟨hrequest, -⟩ := step_of_lent e hfree hd hd' (by simp [State.lent, State.active, hc])
  obtain ⟨hopcode, -⟩ := Descriptor.requestFields_eq_iff.mp hrequest
  rw [State.commandFits_of_bus hbus, hopcode]
  exact hfits h _ hc hd

/-- Settles O50: what an answer says of the active opcode (`fits_of_answer`) makes the event leave a command that fits
(`exec_event_answered`), and no other step touches the bus while a transaction is active but the HBI's own. -/
theorem everyStepKeepsTheBusInOrder : Obligations.EveryStepKeepsTheBusInOrder := by
  unfold Obligations.EveryStepKeepsTheBusInOrder
  intro s t hs hraise e
  have ⟨hbusy, hlent, hanswer, hfits⟩ := hs
  refine ⟨everyStepKeepsBusyWhileATransactionIsActive s t hbusy
    (fun w rest hin => State.busy_of_answer (hraise w rest hin)) e, everyStepLendsADescriptorOnce s t hlent e, ?_⟩
  obtain ⟨-, rfl⟩ | ⟨m, rest, hin, hmove⟩ := step_next e
  · exact ⟨hanswer, hfits⟩
  · obtain ⟨⟨hbus, hpend⟩ | ⟨hfits, hpend⟩, -⟩ := takeMove_bus hmove hs
    · refine ⟨fun w hw => ?_, step_keeps_activeFits e hs hbus⟩
      rw [State.hbiAnswers_of_bus hbus]
      obtain hkept | ⟨w', rfl, hraised⟩ := hpend
      · exact hanswer w (hkept.symm.trans hw)
      · obtain rfl := Option.some.inj (hraised.symm.trans hw)
        exact hraise w' rest hin
    · exact ⟨fun w hw => by simp [hpend] at hw, hfits⟩

/-- Settles O51: `ST_UNEXPECTED` is written by no requester, and in order by no event (`exec_event_answered`). -/
theorem correctHbiNeverCausesAnUnexpectedStatus : Obligations.CorrectHbiNeverCausesAnUnexpectedStatus := by
  unfold Obligations.CorrectHbiNeverCausesAnUnexpectedStatus
  intro s t h d d' hs e hd hd' hstatus
  have hgains : s.gainsNoUnexpected t := by
    obtain ⟨-, rfl⟩ | ⟨m, rest, -, hmove⟩ := step_next e
    · exact State.gainsNoUnexpected_of_descs_eq rfl
    · obtain ⟨-, hgains⟩ := takeMove_bus hmove hs
      exact hgains
  obtain ⟨d0, hd0, hstatus0⟩ := hgains h d' hd' hstatus
  obtain rfl := Option.some.inj (hd0.symm.trans hd)
  exact hstatus0

end Sys2Proof.Machine
end

