-- ==== Sys2Proof/Proofs/HandlesInRange.lean ====
section
/-! SUPPORT. The handles the block holds (R36, R173 (d)): a handle comes into the queue or `cur` from a requester's operation, and into an
operation from a call that has looked it up. Settles O47. -/

namespace Sys2Proof.Machine

/-! ### The lent handles (R18) -/

/-- Every handle that is lent after a move was lent, or a requester's. -/
theorem ControlEffect.mem_lentHandles {m : Move} {s t : State} (e : ControlEffect m s t) {h : Handle}
    (hmem : h ∈ t.control.lentHandles) :
    h ∈ s.control.lentHandles ∨ ∃ who o, (s.requester who).op = some o ∧ o.handle = h := by
  cases e with
  | kept hcontrol | raised _ _ hcontrol | kicked _ _ _ _ _ _ hcontrol =>
    rw [hcontrol] at hmem
    exact .inl hmem
  | enqueued who o hm ho hp hroom hcontrol =>
    rw [hcontrol, Control.lentHandles, ← List.append_assoc] at hmem
    obtain hold | hnew := List.mem_append.mp hmem
    · exact .inl hold
    · exact .inr ⟨who, o, ho, (List.mem_singleton.mp hnew).symm⟩
  | init c hm hi hcontrol => simp [hcontrol, Control.lentHandles] at hmem
  | event hm hpend he => exact .inl (he.lentHandles_sublist.subset hmem)

/-! ### The requesters' operations (R37) -/

theorem RunEffect.opsContinue {s t : State} {who : Who} (e : RunEffect s who t) : s.opsContinue t := by
  cases e with
  | waits => exact State.opsContinue_of_eq rfl
  | advances o f r ho hf hr => exact State.opsContinue_setRequester (s := s.modDesc o.handle f) ho hr
  | enqueues o ho =>
    exact State.opsContinue_setRequester (s := { s with queue := s.queue ++ [o.handle] }) ho
      (Requester.continues_of_pos rfl nofun)
  | kicks o left ho =>
    exact State.opsContinue_setRequester (s := { s.emit .start with busy := true }) ho
      (Requester.continues_of_pos rfl nofun)

/-- A requester's operation after a move goes on from one before it, or a call has opened it on a descriptor of the table. -/
theorem takeMove_ops {m : Move} {s t : State} (e : takeMove m s = .next t) {who : Who} {o' : Op}
    (ho' : (t.requester who).op = some o') :
    (∃ o, (s.requester who).op = some o ∧ o'.handle = o.handle) ∨ o'.handle < s.nDesc := by
  have of_continue (hops : s.opsContinue t) :
      (∃ o, (s.requester who).op = some o ∧ o'.handle = o.handle) ∨ o'.handle < s.nDesc := by
    obtain ⟨o, ho, hhandle, -⟩ := hops who o' ho'
    exact .inl ⟨o, ho, hhandle⟩
  have hmove := takeMove_next e
  cases m with
  | call caller h w =>
    obtain ⟨o, rest, -, ⟨d, hd, -⟩, -, -, -, rfl⟩ := hmove
    by_cases hwho : who = caller
    · subst hwho
      rw [State.setOp, State.requester_setRequester_same] at ho'
      obtain rfl := Option.some.inj ho'
      exact .inr (List.getElem?_eq_some_iff.mp hd).1
    · rw [State.setOp, State.requester_setRequester_other _ _ hwho] at ho'
      exact .inl ⟨o', ho', rfl⟩
  | init c =>
    obtain ⟨-, -, rfl⟩ := execInit_next hmove
    exact of_continue (State.opsContinue_of_eq rfl)
  | run who => exact of_continue (runRequester_effect hmove).opsContinue
  | raise w => obtain ⟨-, rfl⟩ | ⟨-, -, rfl⟩ := hmove <;> exact of_continue (State.opsContinue_of_eq rfl)
  | interrupt =>
    obtain ⟨w, -, -, -, hexec⟩ | rfl := hmove
    · exact of_continue (State.opsContinue_of_eq (exec_event_effect (decodeEvt16_event w) hexec).2.requesters_eq)
    · exact of_continue (State.opsContinue_of_eq s.stubStep_requesters)
  | handler =>
    obtain ⟨w, t', -, -, -, hexec, rfl⟩ | rfl := hmove
    · have hrequesters := (exec_event_effect (decodeEvt16_event w) hexec).2.requesters_eq
      exact of_continue (State.opsContinue_of_eq hrequesters)
    · exact of_continue (State.opsContinue_of_eq rfl)
  | tick =>
    have htick : t = s.tick := hmove
    exact of_continue (htick ▸ s.opsContinue_tick)
  | writeId who h id =>
    obtain ⟨-, -, rfl⟩ := hmove
    exact of_continue (State.opsContinue_of_eq rfl)
  | drain who h =>
    obtain ⟨-, rfl⟩ := hmove
    exact of_continue (State.opsContinue_of_eq rfl)

/-! ### Every handle -/

theorem State.handlesInRange_iff (s : State) :
    s.handlesInRange ↔ (∀ h ∈ s.control.lentHandles, h < s.nDesc) ∧
      ∀ who o, (s.requester who).op = some o → o.handle < s.nDesc := by
  simp only [State.handlesInRange, Control.lentHandles, List.mem_append, Option.mem_toList, or_imp, forall_and, and_assoc]
  exact and_left_comm

theorem takeMove_handlesInRange {m : Move} {s t : State} (e : takeMove m s = .next t) (hs : s.handlesInRange)
    (hn : t.nDesc = s.nDesc) : t.handlesInRange := by
  rw [State.handlesInRange_iff] at hs ⊢
  obtain ⟨hlent, hops⟩ := hs
  rw [hn]
  refine ⟨fun h hmem => ?_, fun who o' ho' => ?_⟩
  · obtain hold | ⟨who, o, ho, rfl⟩ := (takeMove_control e).mem_lentHandles hmem
    · exact hlent h hold
    · exact hops who o ho
  · obtain ⟨o, ho, hhandle⟩ | hcalled := takeMove_ops e ho'
    · exact hhandle ▸ hops who o ho
    · exact hcalled

/-- Settles O47: of the handles after a step, those that are lent were lent or a requester's (`mem_lentHandles`), and a requester's is its
old one or one a call has looked up (`takeMove_ops`). -/
theorem everyStepKeepsHandlesInRange : Obligations.EveryStepKeepsHandlesInRange := by
  unfold Obligations.EveryStepKeepsHandlesInRange
  intro s t hs e
  obtain ⟨-, hn, -⟩ := configurationIsFixedAfterInit s t e
  obtain ⟨-, rfl⟩ | ⟨m, rest, -, e⟩ := step_next e
  · exact hs
  · exact takeMove_handlesInRange e hs hn

end Sys2Proof.Machine
end

