-- ==== Sys2Proof/Proofs/DispatchFlags.lean ====
section
/-! SUPPORT. The dispatch flags (R145, R147, R148): the stub and the handler change them together, `init` sets them, and no other step
touches them. Settles O48. -/

namespace Sys2Proof.Machine

@[simp] theorem State.terminal_irqEn (s : State) (h : Handle) (st : Byte) : (s.terminal h st).irqEn = s.irqEn := by
  cases hq : s.queue with
  | nil => rw [State.terminal_idle h st hq]
  | cons next rest => rw [State.terminal_chain h st hq]

@[simp] theorem State.terminal_deferSig (s : State) (h : Handle) (st : Byte) :
    (s.terminal h st).deferSig = s.deferSig := by
  cases hq : s.queue with
  | nil => rw [State.terminal_idle h st hq]
  | cons next rest => rw [State.terminal_chain h st hq]

/-- A sequencer step leaves the flags to what dispatched it. -/
theorem EventEffect.dispatch_eq {s t : State} (e : EventEffect s t) : t.irqEn = s.irqEn ∧ t.deferSig = s.deferSig := by
  cases e with
  | goesOn | activates | stores => exact ⟨rfl, rfl⟩
  | ends | storesAndEnds => exact ⟨State.terminal_irqEn _ _ _, State.terminal_deferSig _ _ _⟩

theorem exec_event_dispatch {w : BitVec 16} {s t : State} (e : exec (decodeEvt16 w) s = .next t) :
    t.irqEn = s.irqEn ∧ t.deferSig = s.deferSig :=
  (exec_event_effect (decodeEvt16_event w) e).2.dispatch_eq

theorem State.dispatchConsistent_deferred {s : State} (hm : s.params.dispatchMode = .deferred)
    (hflags : s.deferSig = !s.irqEn) (hpend : s.deferSig = true → s.pending ≠ none) : s.dispatchConsistent := by
  simpa only [State.dispatchConsistent, hm] using fun _ => And.intro hflags hpend

/-- With the line enabled and no hand-off the flags are right in either mode: so they are after `init`, and after a handler step. -/
theorem State.dispatchConsistent_of_enabled {s : State} (hq : s.irqEn = true) (hd : s.deferSig = false) :
    s.dispatchConsistent := by
  cases hm : s.params.dispatchMode <;> simp [State.dispatchConsistent, hm, hq, hd]

theorem State.dispatchConsistent.direct_flags {s : State} (hs : s.dispatchConsistent) (hi : s.initialised = true)
    (hm : s.params.dispatchMode = .direct) : s.irqEn = true ∧ s.deferSig = false := by
  have hflags := hs hi
  rwa [hm] at hflags

/-- A raised event (R34) takes none from a hand-off. -/
theorem State.dispatchConsistent.raised {s : State} (hs : s.dispatchConsistent) (w : BitVec 16) :
    State.dispatchConsistent { s with pending := some w } := by
  intro hi
  have hflags := hs hi
  cases hm : s.params.dispatchMode <;> simp only [hm] at hflags ⊢
  case direct => exact hflags
  case deferred =>
    obtain ⟨hmask, -⟩ := hflags
    exact ⟨hmask, fun _ => nofun⟩

theorem RunEffect.dispatchConsistent {s t : State} {who : Who} (e : RunEffect s who t) (hs : s.dispatchConsistent) :
    t.dispatchConsistent := by
  cases e with
  | waits | advances | enqueues | kicks => exact hs

theorem takeMove_dispatchConsistent {m : Move} {s t : State} (e : takeMove m s = .next t) (hs : s.dispatchConsistent) :
    t.dispatchConsistent := by
  have hmove := takeMove_next e
  cases m with
  | call who h w =>
    obtain ⟨o, rest, -, -, -, -, -, rfl⟩ := hmove
    exact hs
  | init c =>
    obtain ⟨-, -, rfl⟩ := execInit_next hmove
    exact State.dispatchConsistent_of_enabled rfl rfl
  | run who => exact (runRequester_effect hmove).dispatchConsistent hs
  | raise w =>
    obtain ⟨-, rfl⟩ | ⟨-, -, rfl⟩ := hmove
    · exact hs
    · exact hs.raised w
  | interrupt =>
    obtain ⟨w, hm, hq, -, hexec⟩ | rfl := hmove
    · obtain ⟨hirq, hdefer⟩ := exec_event_dispatch hexec
      obtain ⟨hi, -⟩ := exec_event_effect (decodeEvt16_event w) hexec
      obtain ⟨-, hnone⟩ := hs.direct_flags hi hm
      exact State.dispatchConsistent_of_enabled (hirq.trans hq) (hdefer.trans hnone)
    · obtain hstub | ⟨hm, -, -, hpend, hstub⟩ := s.stubStep_cases <;> rw [hstub]
      · exact hs
      · exact State.dispatchConsistent_deferred hm rfl fun _ => hpend
  | handler =>
    obtain ⟨w, t', -, -, -, hexec, rfl⟩ | rfl := hmove
    · obtain ⟨-, hdefer⟩ := exec_event_dispatch hexec
      exact State.dispatchConsistent_of_enabled rfl hdefer
    · exact hs
  | tick =>
    have htick : t = s.tick := hmove
    exact htick ▸ hs
  | writeId who h id =>
    obtain ⟨-, -, rfl⟩ := hmove
    exact hs
  | drain who h =>
    obtain ⟨-, rfl⟩ := hmove
    exact hs

/-- Settles O48: the stub takes the flags from one side to the other with the event still pending, and the handler back. -/
theorem everyStepKeepsTheDispatchFlagsConsistent : Obligations.EveryStepKeepsTheDispatchFlagsConsistent := by
  unfold Obligations.EveryStepKeepsTheDispatchFlagsConsistent
  intro s t hs e
  obtain ⟨-, rfl⟩ | ⟨m, rest, -, e⟩ := step_next e
  · exact hs
  · exact takeMove_dispatchConsistent e hs

end Sys2Proof.Machine
end

