-- ==== Sys2Proof/Proofs/RequesterList.lean ====
section
/-! SUPPORT. The list of requesters in its one form (R37; log 9): only time and the listing of a requester that is not idle change it.
Settles O49. -/

namespace Sys2Proof.Machine

theorem requestersWf_put {l : List (Who × Requester)} {who : Who} {r : Requester} (hl : requestersWf l)
    (hr : r ≠ Requester.idle) : requestersWf (putRequester l who r) := by
  obtain ⟨hsorted, hbusy⟩ := hl
  refine ⟨put_sorted who r hsorted, fun e he => ?_⟩
  obtain rfl | hold := mem_put he
  · exact hr
  · exact hbusy e hold

theorem Requester.ne_idle_of_op (o : Op) (ret : Option Byte) : ({ op := some o, ret := ret } : Requester) ≠ Requester.idle :=
  nofun

theorem Requester.tick_ne_idle {r : Requester} (hr : r ≠ Requester.idle) : r.tick ≠ Requester.idle := by
  obtain ⟨op, ret⟩ := r
  cases op with
  | none => exact hr
  | some o => exact Requester.ne_idle_of_op _ ret

theorem requestersWf_tick {l : List (Who × Requester)} (hl : requestersWf l) :
    requestersWf (l.map fun e => (e.1, e.2.tick)) := by
  obtain ⟨hsorted, hbusy⟩ := hl
  refine ⟨List.pairwise_map.mpr hsorted, fun e he => ?_⟩
  obtain ⟨e, hmem, rfl⟩ := List.mem_map.mp he
  exact Requester.tick_ne_idle (hbusy e hmem)

theorem State.requestersWf_setOp {s : State} {who : Who} {o : Op} (hs : requestersWf s.requesters) :
    requestersWf (s.setOp who o).requesters :=
  requestersWf_put hs (Requester.ne_idle_of_op o _)

theorem State.requestersWf_returnFrom {s : State} {who : Who} {status : Byte} (hs : requestersWf s.requesters) :
    requestersWf (s.returnFrom who status).requesters :=
  requestersWf_put hs nofun

/-- A requester's step leaves it inside its operation, or with the status the operation returned (R93). -/
theorem runRequester_requestersWf {s t : State} {who : Who} (e : s.runRequester who = .next t)
    (hs : requestersWf s.requesters) : requestersWf t.requesters := by
  obtain rfl | ⟨o, d, -, -, -, hstep⟩ := runRequester_next e
  · exact hs
  · cases hp : o.pos <;> simp only [hp] at hstep <;> subst hstep
    case fill => exact State.requestersWf_setOp hs
    case s1 => exact State.requestersWf_setOp hs
    case s2 =>
      unfold State.stepS2
      by_cases hfull : s.queue.length = s.queueCapacity
      · rw [State.enqueue_full hfull]
        exact State.requestersWf_returnFrom hs
      · rw [State.enqueue_room hfull]
        exact State.requestersWf_setOp hs
    case s3 =>
      rw [State.stepS3, State.kick_fields]
      exact State.requestersWf_setOp hs
    case s4 left =>
      unfold State.stepS4
      split
      · rw [State.beginS5_eq]
        exact State.requestersWf_setOp hs
      · split
        · exact State.requestersWf_setOp hs
        · exact hs
    case s5 =>
      rw [State.stepS5, State.beginS5_eq]
      exact State.requestersWf_setOp hs
    case s5Delay left =>
      unfold State.stepS5Delay
      split
      · exact State.requestersWf_setOp hs
      · exact hs
    case s6 => exact State.requestersWf_returnFrom hs

theorem takeMove_requestersWf {m : Move} {s t : State} (e : takeMove m s = .next t) (hs : requestersWf s.requesters) :
    requestersWf t.requesters := by
  have hmove := takeMove_next e
  cases m with
  | call who h w =>
    obtain ⟨o, rest, -, -, -, -, -, rfl⟩ := hmove
    exact State.requestersWf_setOp hs
  | init c =>
    obtain ⟨-, -, rfl⟩ := execInit_next hmove
    exact hs
  | run who => exact runRequester_requestersWf hmove hs
  | raise w => obtain ⟨-, rfl⟩ | ⟨-, -, rfl⟩ := hmove <;> exact hs
  | interrupt =>
    obtain ⟨w, -, -, -, hexec⟩ | rfl := hmove
    · rwa [(exec_event_effect (decodeEvt16_event w) hexec).2.requesters_eq]
    · rwa [State.stubStep_requesters]
  | handler =>
    obtain ⟨w, t', -, -, -, hexec, rfl⟩ | rfl := hmove
    · have hrequesters : t'.requesters = s.requesters := (exec_event_effect (decodeEvt16_event w) hexec).2.requesters_eq
      exact hrequesters ▸ hs
    · exact hs
  | tick =>
    have htick : t = s.tick := hmove
    exact htick ▸ requestersWf_tick hs
  | writeId who h id =>
    obtain ⟨-, -, rfl⟩ := hmove
    exact hs
  | drain who h =>
    obtain ⟨-, rfl⟩ := hmove
    exact hs

/-- Settles O49: a listed requester has its place in the rising order and is inside an operation or has returned from one. -/
theorem everyStepKeepsTheRequesterListCanonical : Obligations.EveryStepKeepsTheRequesterListCanonical := by
  unfold Obligations.EveryStepKeepsTheRequesterListCanonical
  intro s t hs e
  obtain ⟨-, rfl⟩ | ⟨m, rest, -, e⟩ := step_next e
  · exact hs
  · exact takeMove_requestersWf e hs

end Sys2Proof.Machine
end

