-- ==== Sys2Proof/Proofs/Completion.lean ====
section
/-! SUPPORT. The completion channels (R140 to R144): what a step can do to the descriptor table, in the terms of `done`. Settles O55. -/

namespace Sys2Proof.Machine

/-- What a move can do to the descriptor table, as far as `done` goes. -/
inductive DoneEffect (m : Move) (s t : State) : Prop
  /-- no completion flag is written -/
  | kept (h : Handle) (f : Descriptor → Descriptor) (hdescs : t.descs = s.descs.modify h f)
      (hf : ∀ d, (f d).done = d.done)
  /-- a requester at S4 (R142) or the owner (R187) clears its flag -/
  | consumed (h : Handle) (hdescs : t.descs = s.descs.modify h fun d => { d with done := false })
      (hwait : (∃ who o left, (s.requester who).op = some o ∧ o.handle = h ∧ o.pos = .s4 left) ∨ ∃ who, m = .drain who h)
  /-- the terminal sequence of the active descriptor (R115) -/
  | ended (h : Handle) (f : Descriptor → Descriptor) (hdescs : t.descs = s.descs.modify h f) (hc : s.cur = some h)
      (hf : ∀ d, (f d).done = true) (hstops : Stops s h t)

theorem DoneEffect.of_descs_eq {m : Move} {s t : State} (h : t.descs = s.descs) : DoneEffect m s t :=
  .kept 0 id (by rw [h, List.modify_id]) fun _ => rfl

theorem Descriptor.storePayload_done (d : Descriptor) (rdCnt : BitVec 2) (b : Byte) :
    (d.storePayload rdCnt b).done = d.done := by
  unfold Descriptor.storePayload
  split <;> rfl

theorem FieldWrite.apply_done (w : FieldWrite) (d : Descriptor) : (w.apply d).done = d.done := by
  cases w <;> rfl

/-! ### Events and requesters' steps -/

theorem exec_event_done {m : Move} {w : BitVec 16} {s t : State} (e : exec (decodeEvt16 w) s = .next t) :
    DoneEffect m s t := by
  obtain ⟨-, heffect⟩ := exec_event_effect (decodeEvt16_event w) e
  cases heffect with
  | goesOn | activates => exact .of_descs_eq rfl
  | stores h d b => exact .kept h _ rfl fun d => d.storePayload_done s.rdCnt b
  | ends code h d st hc hd hst =>
    exact .ended h _ (State.terminal_descs _ h st) hc (fun _ => rfl) (State.stops_terminal (s := s.recordPhase code) hd hst)
  | storesAndEnds h d b hc hd =>
    refine .ended h _ (by rw [State.terminal_descs, modify_modify]) hc (fun _ => rfl) ?_
    exact State.stops_terminal (d := d.storePayload s.rdCnt b)
      (s := { s.recordPhase phDataRxNak with
        descs := s.descs.modify h (fun d => d.storePayload s.rdCnt b), rdCnt := s.rdCnt + 1 })
      (by simp [hd]) (by decide)

theorem runRequester_done {s t : State} {who : Who} (e : s.runRequester who = .next t) : DoneEffect (.run who) s t := by
  obtain rfl | ⟨o, d, -, ho, -, hstep⟩ := runRequester_next e
  · exact .of_descs_eq rfl
  · cases hp : o.pos <;> simp only [hp] at hstep <;> subst hstep
    case fill next rest => exact .kept o.handle _ rfl next.apply_done
    case s1 => exact .kept o.handle _ rfl fun _ => rfl
    case s2 =>
      unfold State.stepS2
      by_cases hfull : s.queue.length = s.queueCapacity
      · rw [State.enqueue_full hfull]
        exact .kept o.handle _ rfl fun _ => rfl
      · rw [State.enqueue_room hfull]
        exact .of_descs_eq rfl
    case s3 => exact .of_descs_eq s.kick_descs
    case s4 left =>
      unfold State.stepS4
      split
      · exact .consumed o.handle (State.beginS5_descs _ _ _ _) (.inl ⟨who, o, left, ho, rfl, hp⟩)
      · split <;> exact .of_descs_eq rfl
    case s5 => exact .of_descs_eq (s.beginS5_descs who o d.status)
    case s5Delay left =>
      unfold State.stepS5Delay
      split <;> exact .of_descs_eq rfl
    case s6 => exact .of_descs_eq rfl

/-! ### Steps -/

theorem takeMove_done {m : Move} {s t : State} (e : takeMove m s = .next t) : DoneEffect m s t := by
  have hmove := takeMove_next e
  cases m with
  | call who h w =>
    obtain ⟨o, rest, -, -, -, -, -, rfl⟩ := hmove
    exact .kept h (fun d => { d with used := true, opcode := o }) rfl fun _ => rfl
  | init c =>
    obtain ⟨-, -, rfl⟩ := execInit_next hmove
    exact .of_descs_eq rfl
  | run who => exact runRequester_done hmove
  | raise w => obtain ⟨-, rfl⟩ | ⟨-, -, rfl⟩ := hmove <;> exact .of_descs_eq rfl
  | interrupt =>
    obtain ⟨w, -, -, -, hexec⟩ | rfl := hmove
    · exact exec_event_done hexec
    · exact .of_descs_eq s.stubStep_descs
  | handler =>
    obtain ⟨w, t', -, -, -, hexec, rfl⟩ | rfl := hmove
    · cases exec_event_done (m := .handler) hexec with
      | kept h f hdescs hf => exact .kept h f hdescs hf
      | consumed h hdescs hwait => exact .consumed h hdescs hwait
      | ended h f hdescs hc hf hstops => exact .ended h f hdescs hc hf hstops
    · exact .of_descs_eq rfl
  | tick =>
    have htick : t = s.tick := hmove
    exact htick ▸ .of_descs_eq rfl
  | writeId who h id =>
    obtain ⟨-, -, rfl⟩ := hmove
    exact .kept h (fun d => { d with requesterId := id }) rfl fun _ => rfl
  | drain who h =>
    obtain ⟨-, rfl⟩ := hmove
    exact .consumed h rfl (.inr ⟨who, rfl⟩)

/-- A handle that is lent once and active does not wait in the queue to become active again. -/
theorem State.next_ne_active {s : State} {h : Handle} (hs : s.lentOnce) (hc : s.cur = some h) : s.queue.head? ≠ some h := by
  obtain ⟨hnodup, -⟩ := hs
  rw [hc] at hnodup
  intro hhead
  exact (List.nodup_cons.mp hnodup).1 (List.mem_of_head? hhead)

/-- What the effect leaves of one flag: it is kept, cleared by a wait (R142, R187), or set by the terminal sequence (R141). -/
theorem DoneEffect.flag {m : Move} {s t : State} (e : DoneEffect m s t) {h : Handle} {d d' : Descriptor}
    (hd : s.descs[h]? = some d) (hd' : t.descs[h]? = some d') :
    d'.done = d.done ∨
    (d'.done = false ∧
      ((∃ who o left, (s.requester who).op = some o ∧ o.handle = h ∧ o.pos = .s4 left) ∨ ∃ who, m = .drain who h)) ∨
    (d'.done = true ∧ s.cur = some h ∧ Stops s h t) := by
  cases e with
  | kept k f hdescs hf =>
    rw [hdescs] at hd'
    obtain rfl | ⟨-, rfl⟩ := modify_changed hd hd'
    · exact .inl rfl
    · exact .inl (hf d)
  | consumed k hdescs hwait =>
    rw [hdescs] at hd'
    obtain rfl | ⟨rfl, rfl⟩ := modify_changed hd hd'
    · exact .inl rfl
    · exact .inr (.inl ⟨rfl, hwait⟩)
  | ended k f hdescs hc hf hstops =>
    rw [hdescs] at hd'
    obtain rfl | ⟨rfl, rfl⟩ := modify_changed hd hd'
    · exact .inl rfl
    · exact .inr (.inr ⟨hf d, hc, hstops⟩)

/-- Settles O55, from the three effects on the completion flags; the handle that the terminal sequence makes active is another, since a
descriptor is lent once (`next_ne_active`). -/
theorem doneIsSetByTheSequencerAndClearedByAWait : Obligations.DoneIsSetByTheSequencerAndClearedByAWait := by
  unfold Obligations.DoneIsSetByTheSequencerAndClearedByAWait
  intro s t h d d' e hd hd'
  obtain ⟨-, rfl⟩ | ⟨m, rest, hin, hmove⟩ := step_next e
  · obtain rfl := Option.some.inj (hd.symm.trans hd')
    exact ⟨fun hclear hset => by simp [hclear] at hset, fun hset hclear => by simp [hset] at hclear⟩
  · obtain hkept | ⟨hcleared, hwait⟩ | ⟨hset, hc, hstop, hyield, hcur, -⟩ := (takeMove_done hmove).flag hd hd'
    · exact ⟨fun hclear hset => by simp [hkept, hclear] at hset, fun hset hclear => by simp [hkept, hset] at hclear⟩
    · refine ⟨by simp [hcleared], fun _ _ => ?_⟩
      exact hwait.imp_right fun ⟨who, hm⟩ => ⟨who, rest, hm ▸ hin⟩
    · exact ⟨fun _ _ => ⟨hc, hyield, hstop, fun hs => hcur ▸ State.next_ne_active hs hc⟩, by simp [hset]⟩

end Sys2Proof.Machine
end

