-- ==== Sys2Proof/Proofs/Schedule.lean ====
section
/-! SUPPORT. The schedule (R47; logs 1, 6 and 16): the fetch place, the passing of time, and the moves of agents with no enabled step.
Settles O14, O24 and O40. -/

namespace Sys2Proof.Machine

/-! ### The fetch place -/

theorem le_foldl_max (l : List (Who × Requester)) (n : Nat) : n ≤ l.foldl (fun n e => max n (e.1 + 1)) n := by
  induction l generalizing n with
  | nil => exact Nat.le_refl n
  | cons e rest ih => exact Nat.le_trans (Nat.le_max_left _ _) (ih _)

theorem lt_foldl_max {l : List (Who × Requester)} {e : Who × Requester} (he : e ∈ l) (n : Nat) :
    e.1 < l.foldl (fun n e => max n (e.1 + 1)) n := by
  induction l generalizing n with
  | nil => cases he
  | cons e' rest ih =>
    cases he with
    | head => exact Nat.lt_of_lt_of_le (Nat.lt_of_lt_of_le (Nat.lt_succ_self _) (Nat.le_max_right _ _)) (le_foldl_max rest _)
    | tail _ hmem => exact ih hmem _

/-- No listed requester has the fresh name. -/
theorem State.freshWho_op (s : State) : (s.requester s.freshWho).op = none := by
  rw [Option.eq_none_iff_forall_ne_some]
  intro o ho
  exact Nat.lt_irrefl _ (lt_foldl_max (lookup_mem ho) 0)

theorem decode_of_tableWord {nbits w : Nat} {st : Stimulus} {i : Instr} (hst : tableStimulus nbits w = some st)
    (hi : decodeTableWord nbits w = some i) : decode st = .ok i := by
  simp only [decodeTableWord, hst] at hi
  cases hd : decode st with
  | error e => simp [hd] at hi
  | ok i' => simpa [hd] using hi

theorem decodeEvt16_of_tableWord {w : Nat} {i : Instr} (hi : decodeTableWord 16 w = some i) :
    decodeEvt16 (BitVec.ofNat 16 w) = i :=
  Except.ok.inj (decode_of_tableWord (st := .evt16 (BitVec.ofNat 16 w)) rfl hi)

theorem State.withFetchWord_eq {s : State} {nbits w : Nat} {st : Stimulus} (hst : tableStimulus nbits w = some st) :
    s.withFetchWord nbits w = s.place st := by
  simp only [State.withFetchWord, hst]

/-- Settles O14: the placed stimulus is what the placed move runs. -/
theorem placedWordIsRunByTheVeryNextStep : Obligations.PlacedWordIsRunByTheVeryNextStep := by
  unfold Obligations.PlacedWordIsRunByTheVeryNextStep
  obtain ⟨hcall, -, -, hinterrupt, hhandler, -⟩ := stepRunsTheDecodedInstruction
  refine ⟨fun s w i hi => ⟨?call, s.freshWho_op⟩, fun s w i hinit hm hi => ?direct, fun s w i hinit hm hi => ?deferred⟩
  case call =>
    rw [State.withFetchWord_eq rfl]
    exact hcall _ s.freshWho 0 _ s.inputs i rfl (decode_of_tableWord rfl hi)
  case direct =>
    obtain rfl := decodeEvt16_of_tableWord hi
    rw [State.withFetchWord_eq rfl, State.place]
    simp only [hm]
    exact hinterrupt _ (BitVec.ofNat 16 w) s.inputs rfl hm hinit rfl rfl
  case deferred =>
    obtain rfl := decodeEvt16_of_tableWord hi
    rw [State.withFetchWord_eq rfl, State.place]
    simp only [hm]
    exact hhandler _ (BitVec.ofNat 16 w) s.inputs rfl hm hinit rfl rfl

/-! ### Time (R175) -/

/-- Settles O24: the tick of the list, requester by requester, is the tick of each. -/
theorem timeRunsOnlyTheRequestersTimers : Obligations.TimeRunsOnlyTheRequestersTimers := by
  unfold Obligations.TimeRunsOnlyTheRequestersTimers
  intro s rest hin
  refine ⟨s.tick.requesters, step_move hin, fun who => ?_⟩
  rw [State.tick, lookup_map_tick]
  refine ⟨rfl, congrArg (fun f => (s.requester who).op.map f) (funext fun o => ?_)⟩
  cases hp : o.pos <;> simp [Pos.tick]

/-! ### Agents with no enabled step (R47) -/

theorem State.runRequester_idle {s : State} {who : Who} (h : s.initialised = false ∨ (s.requester who).op = none) :
    s.runRequester who = .next s := by
  unfold State.runRequester
  obtain hi | hop := h
  · simp [hi]
  · simp only [hop, ite_self]

theorem State.handlerEvent_eq_none {s : State}
    (h : s.initialised = false ∨ s.deferSig = false ∨ s.params.dispatchMode = .direct) : s.handlerEvent = none := by
  obtain hi | hd | hm := h
  · cases hm : s.params.dispatchMode <;> simp [State.handlerEvent, hm, hi]
  · cases hm : s.params.dispatchMode <;> simp [State.handlerEvent, hm, hd]
  · simp [State.handlerEvent, hm]

/-- Settles O40: each of these moves finds nothing to take. -/
theorem agentsWithNoEnabledStepChangeNothing : Obligations.AgentsWithNoEnabledStepChangeNothing := by
  unfold Obligations.AgentsWithNoEnabledStepChangeNothing
  refine ⟨fun s who rest hin hidle => ?_, fun s rest hin hno => ?_, fun s rest hin hno => ?_⟩ <;>
    refine (step_move hin).trans ?_
  · exact State.runRequester_idle (s := { s with inputs := rest }) hidle
  · exact takeMove_interrupt_undelivered (State.delivered_eq_none (s := { s with inputs := rest }) (by tauto))
  · have hnone := State.handlerEvent_eq_none (s := { s with inputs := rest }) hno
    simp only [takeMove, hnone]

end Sys2Proof.Machine
end

