-- ==== Sys2Proof/Proofs/ResetInvariants.lean ====
section
/-! SUPPORT. The invariants hold of the state after reset (R180 to R184): nothing is lent, pending or active in it. Settles O52. -/

namespace Sys2Proof.Machine

/-- R37: every requester is outside any operation. -/
theorem reset_op (who : Who) : (State.reset.requester who).op = none := rfl

theorem reset_activeImpliesBusy : State.reset.activeImpliesBusy :=
  ⟨fun h => absurd rfl h, nofun, fun h => absurd rfl h⟩

theorem reset_lentOnce : State.reset.lentOnce :=
  ⟨List.nodup_nil, fun _ _ => nofun, fun _ _ _ _ => nofun⟩

theorem reset_busInOrder : State.reset.busInOrder :=
  ⟨reset_activeImpliesBusy, reset_lentOnce, nofun, fun _ _ => nofun⟩

/-- Settles O52: the registers of `State.reset`, one invariant after the other. -/
theorem resetMeetsTheInvariants : Obligations.ResetMeetsTheInvariants := by
  unfold Obligations.ResetMeetsTheInvariants
  exact ⟨Nat.zero_le _, ⟨by decide, by decide⟩, reset_activeImpliesBusy, fun _ _ => nofun, reset_lentOnce,
    ⟨nofun, nofun, fun _ _ => nofun⟩, fun _ => ⟨rfl, rfl⟩, ⟨.nil, nofun⟩, reset_busInOrder,
    ⟨by decide, rfl, fun _ => by decide⟩⟩

end Sys2Proof.Machine
end
